-- ==== Sys2Proof/Word.lean ====
section
/-! DEFINITION. The words of the block: bytes, 32-bit words and byte strings (00_scope.md R8, R9). -/

namespace Sys2Proof

/-- A byte, 8 bits (R8). -/
abbrev Byte := BitVec 8

/-- A word of the host port and of every register, 32 bits (R9). -/
abbrev Word := BitVec 32

/-- A byte string: a finite sequence of bytes, first byte first (R8). -/
abbrev ByteString := List Byte

end Sys2Proof
end

