-- ==== Sys2Proof/Machine/Bytes.lean ====
section
/-! DEFINITION. Byte strings and big-endian encodings (00_scope.md R8, R9), and the block-wise parsing shared by
SHA-1 and SHA-256 (40_kdf.md R161, 42_hmac_sha256.md R251). -/

namespace Sys2Proof.Machine

/-- `0^n`, n zero bytes (R8). -/
def zeros (n : Nat) : ByteString := List.replicate n 0

/-- `A ⊕ B` of two strings of equal length (R8); of two lengths, as long as the shorter (log 14). -/
def xorBytes (a b : ByteString) : ByteString := List.zipWith (· ^^^ ·) a b

/-- `be32(v)`, the 4-byte big-endian encoding (R9). -/
def be32 (v : Word) : ByteString :=
  [v.extractLsb' 24 8, v.extractLsb' 16 8, v.extractLsb' 8 8, v.extractLsb' 0 8]

/-- `be64(v)`, the 8-byte big-endian encoding (R9). -/
def be64 (v : BitVec 64) : ByteString :=
  be32 (v.extractLsb' 32 32) ++ be32 (v.extractLsb' 0 32)

/-- The word of four bytes, the first being bits 31:24 (R161). -/
def wordOfBytes (a b c d : Byte) : Word := a ++ b ++ c ++ d

/-- A byte string cut into big-endian 32-bit words; a rest of fewer than four bytes gives no word (R161). -/
def wordsBE : ByteString → List Word
  | a :: b :: c :: d :: rest => wordOfBytes a b c d :: wordsBE rest
  | _ => []

/-- `k` of `pad(M)` for a message of n bytes: the least natural with (n + 1 + k) mod 64 = 56 (R161). -/
def shaPadZeros (n : Nat) : Nat := (119 - n % 64) % 64

/-- `pad(M) = M || 0x80 || 0^k || be64(8·len(M))` (R161, R251). The bit length is a 64-bit value (log 14). -/
def shaPad (m : ByteString) : ByteString :=
  m ++ [0x80] ++ zeros (shaPadZeros m.length) ++ be64 (BitVec.ofNat 64 (8 * m.length))

/-- Compress `n` 64-byte blocks of `m` in order, from the chaining value `h` (R163, R255). A missing word of a block
is read as 0 by the schedules, a case that padding rules out (log 14). -/
def foldBlocks {σ : Type} (compress : σ → List Word → σ) : Nat → ByteString → σ → σ
  | 0, _, h => h
  | n + 1, m, h => foldBlocks compress n (m.drop 64) (compress h (wordsBE (m.take 64)))

/-- A Merkle-Damgard hash over the padding of R161: every block of `pad(M)` compressed in order. -/
def hashPadded {σ : Type} (compress : σ → List Word → σ) (initial : σ) (m : ByteString) : σ :=
  foldBlocks compress ((shaPad m).length / 64) (shaPad m) initial

end Sys2Proof.Machine
end

