-- ==== Sys2Proof/Config.lean ====
section
/-! DEFINITION. What an implementation fixes: the values of 00_scope.md R6, the parameters of R7, and the
free values of 93_implementation_defined.md U1 and U2. -/

namespace Sys2Proof

namespace Config

/-- KEY_BYTES and MAC_KEY_BYTES: each key register holds 32 bytes (R6). -/
abbrev keyBytes : Nat := 32

/-- IV_BYTES (R6). -/
abbrev ivBytes : Nat := 16

/-- BLOCK_BYTES, the AES block (R6). -/
abbrev blockBytes : Nat := 16

/-- TAG_BYTES, an HMAC-SHA256 tag (R6). -/
abbrev tagBytes : Nat := 32

/-- SESSION_KEY_BYTES (R6). -/
abbrev sessionKeyBytes : Nat := 64

/-- ITER_MIN, the floor of the iteration count (R6, R175). -/
abbrev iterMin : Nat := 10000

/-- SALT_MIN, the floor of the salt length in bytes (R6, R175). -/
abbrev saltMin : Nat := 16

/-- DOMAIN_SUFFIX, the ASCII bytes of the literal |scs1| (R6, R176). -/
def domainSuffix : ByteString := [0x7C, 0x73, 0x63, 0x73, 0x31, 0x7C]

/-- The value of the ID register (10_state.md R33). -/
def idValue : Word := 0x53534B31

/-- BUF_BASE, the offset of the buffer window (R7, 20_memory.md R81). -/
abbrev bufBase : Nat := 0x01000000

/-- The size of the host port window in bytes, 32 MiB (20_memory.md R80). -/
abbrev windowBytes : Nat := 0x02000000

/-- The end of the register file: offsets below it are registers (20_memory.md R81). -/
abbrev regFileBytes : Nat := 0x30

/-- The default of MEM_BYTES (R7, 92_eei_decisions.md D3). -/
abbrev memBytesDefault : Nat := 0x00200000

/-- The value of an unspecified buffer byte: draw number `draw`, buffer offset `addr`. It has no body: a draw
under no law (70_reset_and_hazards.md R382, R384; U1, U2). Log 2 and log 3. -/
opaque freeByte (draw addr : Nat) : Byte

end Config

/-- The platform parameters of one block (00_scope.md R7, 20_memory.md R80). Log 1. -/
structure Platform where
  /-- MEM_BYTES, the size of the local buffer. -/
  memBytes : Nat
  /-- BASE, the host address of offset 0 of the block. -/
  base : Nat
  deriving DecidableEq, Repr

/-- MEM_BYTES at its default (R7); BASE is open in the spec and stands at 0 here (DESIGN CHOICE, log 1). -/
def Platform.atDefault : Platform := { memBytes := Config.memBytesDefault, base := 0 }

end Sys2Proof
end

