-- ==== Sys2Proof/Syntax.lean ====
section
/-! DEFINITION. The syntax of what drives the block: its ten commands (30_encoding.md R131), the command word
(R130), the registers (10_state.md R32), the host accesses (20_memory.md R84, R85), the events a schedule lists,
and the host-program lines of R138. -/

namespace Sys2Proof

/-- The ten commands, the whole command set (30_encoding.md R131, R140). Operands are in the operand registers,
so no command has a field (R130, R135). -/
inductive Instr where
  /-- Derive 64 bytes and load both keys (40_kdf.md R180). -/
  | kdf64
  /-- Derive 32 bytes as the signing key (40_kdf.md R181). -/
  | kdf32
  /-- Load a 64-byte session key (44_key_management.md R311). -/
  | loadkeys
  /-- Wipe both key registers (44_key_management.md R320). -/
  | zeroize
  /-- Wipe both key registers and the buffer (44_key_management.md R325). -/
  | zeroizeAll
  /-- AES-256-CBC encryption with PKCS7 padding (41_aes_cbc.md R221). -/
  | aesenc
  /-- AES-256-CBC decryption with padding check, gated by AUTH (41_aes_cbc.md R230). -/
  | aesdec
  /-- HMAC-SHA256 tag into the buffer (42_hmac_sha256.md R260). -/
  | hmac
  /-- HMAC-SHA256 tag verification (42_hmac_sha256.md R270). -/
  | hmacverify
  /-- Constant-time comparison of two regions (43_compare.md R295). -/
  | ctcmp
  deriving DecidableEq, Repr

/-- The fields of a command word, format CMDW (30_encoding.md R130). -/
structure CommandWord where
  /-- RSVD, bits 31:8. -/
  rsvd : BitVec 24
  /-- OPCODE, bits 7:0. -/
  opcode : BitVec 8
  deriving DecidableEq, Repr

/-- The registers of the register file (10_state.md R32). -/
inductive Reg where
  | id | ctrl | status | cmd | srcAddr | srcLen | auxAddr | auxLen | dstAddr | ivAddr | iter | outLen
  deriving DecidableEq, Repr

/-- The byte offset of a register from BASE (10_state.md R32). -/
def Reg.offset : Reg → Nat
  | .id => 0x000
  | .ctrl => 0x004
  | .status => 0x008
  | .cmd => 0x00C
  | .srcAddr => 0x010
  | .srcLen => 0x014
  | .auxAddr => 0x018
  | .auxLen => 0x01C
  | .dstAddr => 0x020
  | .ivAddr => 0x024
  | .iter => 0x028
  | .outLen => 0x02C

/-- The width of a host access: 8, 16 or 32 bits (20_memory.md R85). -/
inductive Width where
  | w8 | w16 | w32
  deriving DecidableEq, Repr

/-- The width in bytes. -/
def Width.bytes : Width → Nat
  | .w8 => 1
  | .w16 => 2
  | .w32 => 4

/-- The value a host access carries, as wide as the access. -/
inductive Datum where
  | byte (v : BitVec 8)
  | half (v : BitVec 16)
  | word (v : BitVec 32)
  deriving DecidableEq, Repr

/-- The width of a value. -/
def Datum.width : Datum → Width
  | .byte _ => .w8
  | .half _ => .w16
  | .word _ => .w32

/-- One host access, at an absolute host address (20_memory.md R80, R84, R85). -/
inductive Access where
  | read (addr : Nat) (w : Width)
  | write (addr : Nat) (d : Datum)
  deriving DecidableEq, Repr

/-- What can happen next at the block: a host access, the sequencer's turn (60_exceptions.md R340, R342), or the
platform's power-on reset (70_reset_and_hazards.md R380). Log 5. -/
inductive Event where
  | access (a : Access)
  | sequencer
  | powerOn
  deriving DecidableEq, Repr

/-- One line of a host program in the syntax of 30_encoding.md R138; comments carry nothing. -/
inductive HostLine where
  /-- `W <reg>, <value>`. -/
  | writeReg (r : Reg) (v : Word)
  /-- `R <reg>`. -/
  | readReg (r : Reg)
  /-- `WB <a>, <hex bytes>`. -/
  | writeBytes (a : Nat) (v : ByteString)
  /-- `RB <a>, <n>`. -/
  | readBytes (a n : Nat)
  /-- `CMD <mnemonic>`. -/
  | cmd (i : Instr)
  /-- `WAIT`. -/
  | wait
  /-- `SRC <a>, <n>`. -/
  | src (a n : Word)
  /-- `AUX <a>, <n>`. -/
  | aux (a n : Word)
  /-- `DST <a>`. -/
  | dst (a : Word)
  /-- `IV <a>`. -/
  | iv (a : Word)
  /-- `ITER <c>`. -/
  | iter (c : Word)
  deriving DecidableEq, Repr

end Sys2Proof
end

