-- ==== Sys2Proof/WellFormed.lean ====
section
/-! DEFINITION. Well-formedness: a command word (30_encoding.md R132, R133) and the platform parameters
(00_scope.md R7, 20_memory.md R80). An `Instr` has no field, so each one is well formed: its command word is. -/

namespace Sys2Proof

/-- The assigned opcodes (30_encoding.md R131). -/
def assignedOpcodes : List (BitVec 8) := [0x01, 0x02, 0x03, 0x04, 0x05, 0x10, 0x11, 0x20, 0x21, 0x30]

/-- The reserved field must be 0 (R132). -/
def CommandWord.reservedClear (c : CommandWord) : Bool := c.rsvd == 0

/-- The opcode must be assigned (R133). -/
def CommandWord.opcodeAssigned (c : CommandWord) : Bool := assignedOpcodes.contains c.opcode

/-- A command word is legal (R132, R133). -/
def CommandWord.wf (c : CommandWord) : Bool := c.reservedClear && c.opcodeAssigned

/-- The fields of a 32-bit command word (R130). -/
def CommandWord.ofWord (v : Word) : CommandWord :=
  { rsvd := v.extractLsb' 8 24, opcode := v.extractLsb' 0 8 }

/-- The 32-bit word of the fields (R130). -/
def CommandWord.toWord (c : CommandWord) : Word := c.rsvd ++ c.opcode

/-- MEM_BYTES is a multiple of 16 with 64 ≤ MEM_BYTES ≤ 0x0100_0000 (R7), and BASE is 32 MiB aligned (R80). -/
abbrev Platform.wf (p : Platform) : Prop :=
  p.memBytes % 16 = 0 ∧ 64 ≤ p.memBytes ∧ p.memBytes ≤ 0x01000000 ∧ p.base % Config.windowBytes = 0

end Sys2Proof
end

