-- ==== Sys2Proof/Decode.lean ====
section
/-! DEFINITION. Decoding and encoding of command words (30_encoding.md R130 to R133, R139). -/

namespace Sys2Proof

/-- Why a command word is ILLEGAL. -/
inductive Illegal where
  /-- A bit of RSVD is set (R132). -/
  | reservedBits
  /-- The opcode is not in the table of R131 (R133). -/
  | unassignedOpcode
  deriving DecidableEq, Repr

/-- The answer of the decoder: a command, or ILLEGAL with its reason (R131). -/
inductive Decoded where
  | instr (i : Instr)
  | illegal (why : Illegal)
  deriving DecidableEq, Repr

/-- A row of the opcode map (R131). -/
structure OpcodeRow where
  opcode : BitVec 8
  instr : Instr
  deriving DecidableEq, Repr

/-- The opcode map of R131. -/
def opcodeTable : List OpcodeRow :=
  [ { opcode := 0x01, instr := .kdf64 }, { opcode := 0x02, instr := .kdf32 },
    { opcode := 0x03, instr := .loadkeys }, { opcode := 0x04, instr := .zeroize },
    { opcode := 0x05, instr := .zeroizeAll }, { opcode := 0x10, instr := .aesenc },
    { opcode := 0x11, instr := .aesdec }, { opcode := 0x20, instr := .hmac },
    { opcode := 0x21, instr := .hmacverify }, { opcode := 0x30, instr := .ctcmp } ]

/-- The row of an opcode, if it is assigned. -/
def rowOfOpcode (op : BitVec 8) : Option OpcodeRow := opcodeTable.find? fun r => r.opcode == op

/-- `decode(v)` of R131, total on all 32-bit words. -/
def decode (v : Word) : Decoded :=
  if v.extractLsb' 8 24 = 0 then
    match rowOfOpcode (v.extractLsb' 0 8) with
    | some r => .instr r.instr
    | none => .illegal .unassignedOpcode
  else .illegal .reservedBits

/-- The OPCODE of a command (R131). -/
def opcodeOf : Instr → BitVec 8
  | .kdf64 => 0x01
  | .kdf32 => 0x02
  | .loadkeys => 0x03
  | .zeroize => 0x04
  | .zeroizeAll => 0x05
  | .aesenc => 0x10
  | .aesdec => 0x11
  | .hmac => 0x20
  | .hmacverify => 0x21
  | .ctcmp => 0x30

/-- The command word of a command, zext_32 of its OPCODE (R139). -/
def encode (i : Instr) : Word := (opcodeOf i).setWidth 32

/-- The command word the host writes to CMD for the table's bits `w` of a row of `nbits` bits: one 32-bit
register write, bit 0 its least significant bit, every bit above `nbits` 0. -/
def tableWord (nbits w : Nat) : Word := BitVec.ofNat 32 (w % 2 ^ nbits)

/-- The command the decoder reads from an opcode-table word. -/
def decodeTableWord (nbits w : Nat) : Option Instr :=
  match decode (tableWord nbits w) with
  | .instr i => some i
  | .illegal _ => none

end Sys2Proof
end

