-- ==== Sys2Proof/Machine/State.lean ====
section
/-! DEFINITION. The state of one block (10_state.md R30) as plain data, the reasons a step can stop, and the state
after power-on reset (10_state.md R70). -/

namespace Sys2Proof.Machine

/-- The sequencer state (10_state.md R31). -/
inductive Seq where
  | idle | busy
  deriving DecidableEq, Repr

/-- The error codes (60_exceptions.md R347). Codes 9 to 15 are never produced and have no name here (log 13). -/
inductive ErrCode where
  | noError | badCmd | range | overlap | noKey | policy | length | notAuth | integrity
  deriving DecidableEq, Repr

/-- A key register: 32 bytes, byte 0 first (10_state.md R50, R51). -/
abbrev Key := Vector Byte 32

/-- What a buffer byte holds that the buffer lists nowhere. -/
inductive Fill where
  /-- 0x00, after ZEROIZE_ALL (44_key_management.md R325). -/
  | zero
  /-- The free value of draw number `k` (70_reset_and_hazards.md R382). -/
  | drawn (k : Nat)
  deriving DecidableEq, Repr

/-- The local buffer (10_state.md R55). A byte listed in `cells` has that value; a byte listed in `drawn` with a
draw number has that draw's free value (R384); any other byte is as `fill` says. -/
structure Memory where
  fill : Fill
  drawn : List (Nat × Nat)
  cells : List Host.Cell
  deriving DecidableEq, Repr

/-- The port's answer to the last host access (20_memory.md R83 to R90). A bus error is no answer here: it is a
`Fault`. Log 6. -/
inductive Response where
  /-- No access yet since power-on. -/
  | none
  /-- A write was answered, refused (R90) or not. -/
  | written
  /-- A read returned this value. -/
  | data (d : Datum)
  deriving DecidableEq, Repr

/-- The state of one block: R30 (a) to (d), and the model's own fields `cfg`, `schedule`, `resp` and `draws`
(INVENTORY.md, log 1, 2, 5, 6). Scratch holds nothing between steps (R60); irq is `State.irq` (R63). -/
structure State where
  /-- MEM_BYTES and BASE (log 1). -/
  cfg : Platform
  /-- IDLE or BUSY (R31); STATUS.BUSY is read from it (R37). -/
  seq : Seq
  /-- CMDL, the accepted command word (R61). -/
  cmdl : Word
  /-- CTRL.IRQ_EN (R34). -/
  irqEn : Bool
  /-- STATUS.DONE (R38). -/
  isDone : Bool
  /-- STATUS.RESULT (R39). -/
  result : Bool
  /-- STATUS.ENC_KEY_VALID (R40). -/
  encKeyValid : Bool
  /-- STATUS.MAC_KEY_VALID (R40). -/
  macKeyValid : Bool
  /-- STATUS.AUTH, the AUTH latch (R41). -/
  auth : Bool
  /-- STATUS.BUSY_VIOL (R42). -/
  busyViol : Bool
  /-- STATUS.ERR (R43). -/
  err : ErrCode
  /-- SRC_ADDR (R46). -/
  srcAddr : Word
  /-- SRC_LEN (R46). -/
  srcLen : Word
  /-- AUX_ADDR (R46). -/
  auxAddr : Word
  /-- AUX_LEN (R46). -/
  auxLen : Word
  /-- DST_ADDR (R46). -/
  dstAddr : Word
  /-- IV_ADDR (R46). -/
  ivAddr : Word
  /-- ITER (R47). -/
  iter : Word
  /-- OUT_LEN (R48). -/
  outLen : Word
  /-- ENC_KEY (R50). -/
  encKey : Key
  /-- MAC_KEY (R50). -/
  macKey : Key
  /-- The local buffer (R55). -/
  mem : Memory
  /-- The number of the next draw of unspecified bytes (log 2). -/
  draws : Nat
  /-- The events still to come, the next one first (log 5). -/
  schedule : List Event
  /-- The answer to the last host access (log 6). -/
  resp : Response
  deriving DecidableEq, Repr

/-- The reasons a step stops. Each is a host access that is no legal access to the block; the block's state is the
state before it (20_memory.md R83: no state change). All are safe: the model stops where the block would go on
after a bus error (93_implementation_defined.md U7 gives the treatment fault). Log 7. -/
inductive Fault where
  /-- Raised by a host access at an unmapped offset: a bus error (R83). Safe. -/
  | busErrorUnmapped
  /-- Raised by a register access that is not 32 bits wide at a multiple of 4: a bus error (R84). Safe. -/
  | busErrorRegister
  /-- Raised by a misaligned buffer access, or one that runs past the buffer: a bus error (R85). Safe. -/
  | busErrorBuffer
  /-- Raised by a host access outside the 32 MiB window at BASE, which does not reach the block (R80). Safe.
  Log 8. -/
  | outsideWindow
  deriving DecidableEq, Repr

/-- The reasons an instruction has no meaning. -/
inductive Refusal where
  /-- Raised by an arm of `exec` for an instruction without a meaning; no arm does so in this model. Safe. -/
  | notModelled (mnemonic : String)
  deriving DecidableEq, Repr

/-- The state right after power-on reset (10_state.md R70, 70_reset_and_hazards.md R381, R382): every register at
its reset value, both keys 0^32, every buffer byte unspecified (draw 0). CMDL: log 4. The model's own fields:
log 1, 2, 5, 6. -/
def State.reset : State :=
  { cfg := Platform.atDefault
    seq := .idle
    cmdl := 0
    irqEn := false
    isDone := false
    result := false
    encKeyValid := false
    macKeyValid := false
    auth := false
    busyViol := false
    err := .noError
    srcAddr := 0
    srcLen := 0
    auxAddr := 0
    auxLen := 0
    dstAddr := 0
    ivAddr := 0
    iter := 0
    outLen := 0
    encKey := Vector.replicate 32 0
    macKey := Vector.replicate 32 0
    mem := { fill := .drawn 0, drawn := [], cells := [] }
    draws := 1
    schedule := []
    resp := .none }

end Sys2Proof.Machine
end

