-- ==== Sys2Proof/Machine/Flags.lean ====
section
/-! DEFINITION. The status flags: the STATUS and CTRL words (10_state.md R34, R36), the write-1-to-clear bits (R44),
the error codes (60_exceptions.md R347), irq (R63) and the mapping to SSK's categories (60_exceptions.md R348). -/

namespace Sys2Proof.Machine

/-- The 4-bit code of an error (60_exceptions.md R347). -/
def ErrCode.code : ErrCode → BitVec 4
  | .noError => 0
  | .badCmd => 1
  | .range => 2
  | .overlap => 3
  | .noKey => 4
  | .policy => 5
  | .length => 6
  | .notAuth => 7
  | .integrity => 8

/-- A flag as one bit. -/
def flagBit (b : Bool) : BitVec 1 := BitVec.ofBool b

/-- STATUS.BUSY, 1 exactly when seq = BUSY (10_state.md R37). -/
def State.isBusy (s : State) : Bool := s.seq == .busy

/-- The STATUS word: bits 31:12 and 7 read 0, ERR in 11:8, then BUSY_VIOL, AUTH, MAC_KEY_VALID, ENC_KEY_VALID,
RESULT, DONE and BUSY from bit 6 down (10_state.md R36). -/
def State.statusWord (s : State) : Word :=
  (0 : BitVec 20) ++ s.err.code ++ (0 : BitVec 1) ++ flagBit s.busyViol ++ flagBit s.auth ++ flagBit s.macKeyValid
    ++ flagBit s.encKeyValid ++ flagBit s.result ++ flagBit s.isDone ++ flagBit s.isBusy

/-- The CTRL word: IRQ_EN in bit 0, every other bit reads 0 (10_state.md R34). -/
def State.ctrlWord (s : State) : Word := (0 : BitVec 31) ++ flagBit s.irqEn

/-- A host write of v to STATUS: bit 1 clears DONE, bit 6 clears BUSY_VIOL, the rest is ignored (10_state.md R44). -/
def State.writeStatus (s : State) (v : Word) : State :=
  { s with isDone := s.isDone && !v.getLsbD 1, busyViol := s.busyViol && !v.getLsbD 6 }

/-- The interrupt output, the level CTRL.IRQ_EN AND STATUS.DONE (10_state.md R63, 60_exceptions.md R353). -/
def State.irq (s : State) : Bool := s.irqEn && s.isDone

/-- SSK's error categories that a block outcome maps to (60_exceptions.md R348). -/
inductive SskCategory where
  | policyViolation
  | integrityFailure
  deriving DecidableEq, Repr

/-- The category of an error code; BAD_CMD, RANGE, OVERLAP and NO_KEY have none: they are faults of the host's
driver (60_exceptions.md R348). -/
def ErrCode.category : ErrCode → Option SskCategory
  | .policy => some .policyViolation
  | .length => some .policyViolation
  | .integrity => some .integrityFailure
  | .notAuth => some .integrityFailure
  | .noError => none
  | .badCmd => none
  | .range => none
  | .overlap => none
  | .noKey => none

/-- The category the host reports for a completed HMACVERIFY of an unseal or unprotect: a mismatch is an
IntegrityFailure though it is no error of the block (60_exceptions.md R348). -/
def State.verifyCategory (s : State) : Option SskCategory :=
  match s.err with
  | .noError => if s.result then none else some .integrityFailure
  | e => e.category

end Sys2Proof.Machine
end

