-- ==== Sys2Proof/Machine/Operands.lean ====
section
/-! DEFINITION. Operands: regions (20_memory.md R94 to R96), their assembly from the operand registers
(30_encoding.md R136) and the read and write regions of every command (R135). -/

namespace Sys2Proof.Machine

/-- A region (a, n): the buffer bytes a to a + n - 1 (R94). -/
structure Region where
  addr : Nat
  len : Nat
  deriving DecidableEq, Repr

/-- `inRange` for a buffer of `memBytes` bytes: a + n ≤ MEM_BYTES on naturals (R95). -/
abbrev Region.InRange (memBytes : Nat) (r : Region) : Prop := r.addr + r.len ≤ memBytes

/-- `overlaps` (R96). -/
abbrev Region.Overlaps (r t : Region) : Prop :=
  0 < r.len ∧ 0 < t.len ∧ r.addr < t.addr + t.len ∧ t.addr < r.addr + r.len

/-- The buffer offset x is a byte of the region (R94). -/
abbrev Region.Has (r : Region) (x : Nat) : Prop := r.addr ≤ x ∧ x < r.addr + r.len

/-- (SRC_ADDR, SRC_LEN), both read as naturals (R136). -/
def State.src (s : State) : Region := { addr := s.srcAddr.toNat, len := s.srcLen.toNat }

/-- (AUX_ADDR, AUX_LEN) (R136). -/
def State.aux (s : State) : Region := { addr := s.auxAddr.toNat, len := s.auxLen.toNat }

/-- (IV_ADDR, 16) (R135). -/
def State.ivRegion (s : State) : Region := { addr := s.ivAddr.toNat, len := Config.ivBytes }

/-- (DST_ADDR, n) (R135). -/
def State.dst (s : State) (n : Nat) : Region := { addr := s.dstAddr.toNat, len := n }

/-- The length of AESENC's output, 16·(⌊SRC_LEN / 16⌋ + 1), on naturals (R135, R136). -/
def State.aesencLen (s : State) : Nat := 16 * (s.srcLen.toNat / 16 + 1)

/-- The regions a command reads (R135). -/
def readRegions (i : Instr) (s : State) : List Region :=
  match i with
  | .kdf64 => [s.src, s.aux]
  | .kdf32 => [s.src, s.aux]
  | .loadkeys => [s.src]
  | .zeroize => []
  | .zeroizeAll => []
  | .aesenc => [s.src, s.ivRegion]
  | .aesdec => [s.src, s.ivRegion]
  | .hmac => [s.src]
  | .hmacverify => [s.src, s.aux]
  | .ctcmp => [s.src, s.aux]

/-- The operand registers a command reads, those its row of R135 names (30_encoding.md R134). -/
def operandsRead : Instr → List Reg
  | .kdf64 => [.srcAddr, .srcLen, .auxAddr, .auxLen, .iter]
  | .kdf32 => [.srcAddr, .srcLen, .auxAddr, .auxLen, .iter]
  | .loadkeys => [.srcAddr, .srcLen]
  | .zeroize => []
  | .zeroizeAll => []
  | .aesenc => [.srcAddr, .srcLen, .ivAddr, .dstAddr]
  | .aesdec => [.srcAddr, .srcLen, .ivAddr, .dstAddr]
  | .hmac => [.srcAddr, .srcLen, .dstAddr]
  | .hmacverify => [.srcAddr, .srcLen, .auxAddr, .auxLen]
  | .ctcmp => [.srcAddr, .srcLen, .auxAddr, .auxLen]

/-- The region a command writes, with length 0 for a command that writes none (R135). -/
def writeRegion (i : Instr) (s : State) : Region :=
  match i with
  | .kdf64 => { addr := 0, len := 0 }
  | .kdf32 => { addr := 0, len := 0 }
  | .loadkeys => s.src
  | .zeroize => { addr := 0, len := 0 }
  | .zeroizeAll => { addr := 0, len := s.cfg.memBytes }
  | .aesenc => s.dst s.aesencLen
  | .aesdec => s.dst s.srcLen.toNat
  | .hmac => s.dst Config.tagBytes
  | .hmacverify => { addr := 0, len := 0 }
  | .ctcmp => { addr := 0, len := 0 }

end Sys2Proof.Machine
end

