-- ==== Sys2Proof/Machine/Ops.lean ====
section
/-! DEFINITION. The named operations the meanings are built from: the buffer (20_memory.md R94, 10_state.md R55), the
key registers (10_state.md R53), the checks of a command (60_exceptions.md R345), acceptance (R341), the two endings
of a command (R349, R350), and reset (70_reset_and_hazards.md R381 to R384). -/

namespace Sys2Proof.Machine

/-! ### The buffer -/

/-- The value every unlisted byte is known to have, if it is known. -/
def Fill.known : Fill → Option Byte
  | .zero => some 0
  | .drawn _ => none

/-- WHAT AN UNLISTED ADDRESS READS AS: 0x00 after ZEROIZE_ALL (R325), the power-on draw's free value before
(70_reset_and_hazards.md R382). Log 2. -/
def Fill.byte (f : Fill) (a : Nat) : Byte :=
  match f with
  | .zero => 0
  | .drawn k => Config.freeByte k a

/-- The byte at offset a (10_state.md R55). -/
def Memory.read (m : Memory) (a : Nat) : Byte :=
  match m.cells.find? (fun c => c.1 == a) with
  | some c => c.2
  | none =>
    match m.drawn.find? (fun d => d.1 == a) with
    | some d => Config.freeByte d.2 a
    | none => m.fill.byte a

/-- `MemRead(a, n)`, the string mem[a] || ... || mem[a+n-1] (20_memory.md R94). -/
def Memory.readBytes (m : Memory) (a n : Nat) : ByteString := (List.range n).map fun k => m.read (a + k)

/-- The cells of a string v at offset a: every byte but those an unlisted address is known to read as. -/
def cellsOf (known : Option Byte) : Nat → ByteString → List Host.Cell
  | _, [] => []
  | a, b :: rest => if known = some b then cellsOf known (a + 1) rest else (a, b) :: cellsOf known (a + 1) rest

/-- `MemWrite(a, len(v), v)`: mem[a + k] <- v[k] (20_memory.md R94). -/
def Memory.write (m : Memory) (a : Nat) (v : ByteString) : Memory :=
  { fill := m.fill
    drawn := m.drawn.filter (fun d => d.1 < a) ++ m.drawn.filter (fun d => a + v.length ≤ d.1)
    cells := m.cells.filter (fun c => c.1 < a) ++ cellsOf m.fill.known a v
      ++ m.cells.filter (fun c => a + v.length ≤ c.1) }

/-- Every buffer byte 0x00 (44_key_management.md R325). -/
def Memory.zeroed : Memory := { fill := .zero, drawn := [], cells := [] }

/-- Every buffer byte unspecified, as draw number k (70_reset_and_hazards.md R382). -/
def Memory.unspecified (k : Nat) : Memory := { fill := .drawn k, drawn := [], cells := [] }

/-- The bytes of the region that lie in the buffer become unspecified, as draw number k; every other byte keeps its
value (70_reset_and_hazards.md R384). Log 3. -/
def Memory.scramble (m : Memory) (memBytes : Nat) (r : Region) (k : Nat) : Memory :=
  if r.addr = 0 ∧ memBytes ≤ r.len then Memory.unspecified k
  else
    let stop := min (r.addr + r.len) memBytes
    { fill := m.fill
      drawn := m.drawn.filter (fun d => d.1 < r.addr)
        ++ (List.range' r.addr (stop - r.addr)).map (fun a => (a, k))
        ++ m.drawn.filter (fun d => r.addr ≤ d.1 ∧ stop ≤ d.1)
      cells := m.cells.filter (fun c => c.1 < r.addr) ++ m.cells.filter (fun c => r.addr ≤ c.1 ∧ stop ≤ c.1) }

/-- THE CANONICAL FORM of the buffer: addresses strictly rising in both lists, no address in both, no cell equal to
what an unlisted address is known to read as, no drawn entry equal to the fill's own draw. -/
abbrev Memory.wf (m : Memory) : Prop :=
  (m.cells.map Prod.fst).Pairwise (· < ·) ∧ (m.drawn.map Prod.fst).Pairwise (· < ·)
    ∧ (∀ c ∈ m.cells, ∀ d ∈ m.drawn, c.1 ≠ d.1) ∧ (∀ c ∈ m.cells, m.fill.known ≠ some c.2)
    ∧ (∀ d ∈ m.drawn, m.fill ≠ .drawn d.2)

/-- Every listed address is an offset of a buffer of n bytes. -/
abbrev Memory.within (m : Memory) (n : Nat) : Prop :=
  (∀ c ∈ m.cells, c.1 < n) ∧ (∀ d ∈ m.drawn, d.1 < n)

/-- Every draw the buffer names has a number below n. -/
abbrev Memory.drawnBelow (m : Memory) (n : Nat) : Prop :=
  (∀ d ∈ m.drawn, d.2 < n) ∧ (∀ k, m.fill = .drawn k → k < n)

/-- The bytes of a region of the state's buffer (20_memory.md R94). -/
def State.readRegion (s : State) (r : Region) : ByteString := s.mem.readBytes r.addr r.len

/-- A write of a string at an offset of the state's buffer (20_memory.md R94). -/
def State.writeMem (s : State) (a : Nat) (v : ByteString) : State := { s with mem := s.mem.write a v }

/-! ### The key registers -/

/-- `0^32` (10_state.md R53). -/
def Key.zero : Key := Vector.replicate 32 0

/-- The key register that holds a 32-byte string, byte 0 first (10_state.md R51). Of a string of another length, which
no meaning loads, the first 32 bytes, zero bytes added (log 14). -/
def Key.ofBytes (v : ByteString) : Key := ⟨((v ++ zeros 32).take 32).toArray, by simp [zeros]⟩

/-- The 32 bytes of a key register (10_state.md R50). -/
def Key.bytes (k : Key) : ByteString := k.toList

/-- Both keys loaded and valid (10_state.md R53, rows KDF64 and LOADKEYS). -/
def State.loadBothKeys (s : State) (enc mac : ByteString) : State :=
  { s with encKey := Key.ofBytes enc, macKey := Key.ofBytes mac, encKeyValid := true, macKeyValid := true }

/-- MAC_KEY loaded, ENC_KEY wiped (10_state.md R53, row KDF32). -/
def State.loadMacKey (s : State) (mac : ByteString) : State :=
  { s with encKey := Key.zero, macKey := Key.ofBytes mac, encKeyValid := false, macKeyValid := true }

/-- Both keys wiped (10_state.md R53, rows ZEROIZE and ZEROIZE_ALL). -/
def State.wipeKeys (s : State) : State :=
  { s with encKey := Key.zero, macKey := Key.zero, encKeyValid := false, macKeyValid := false }

/-! ### The lifecycle of a command -/

/-- ACCEPTANCE of the command word v, as one atomic step (60_exceptions.md R341). -/
def State.accept (s : State) (v : Word) : State :=
  { s with cmdl := v, seq := .busy, isDone := false, result := false, err := .noError, outLen := 0 }

/-- `complete(result, out_len)`, the successful end of the command i (60_exceptions.md R349); AUTH as R41. OUT_LEN is
a 32-bit register (log 14). -/
def State.complete (s : State) (i : Instr) (result : Bool) (outLen : Nat) : State :=
  { s with
    result := result
    outLen := BitVec.ofNat 32 outLen
    err := .noError
    auth := i == .hmacverify && result
    seq := .idle
    isDone := true }

/-- `raise Error(code)`, the failing end of a command: the block's one way of taking an exception
(60_exceptions.md R350, R352). There is no return from it but the host's next command (R352). -/
def State.raiseError (s : State) (e : ErrCode) : State :=
  { s with err := e, result := false, outLen := 0, auth := false, seq := .idle, isDone := true }

/-- One check of a command: whether it fails, and the code it then raises (60_exceptions.md R345). -/
structure Check where
  fails : Bool
  code : ErrCode
  deriving DecidableEq, Repr

/-- The code of the first check that fails (60_exceptions.md R345). -/
def firstError : List Check → Option ErrCode
  | [] => none
  | c :: rest => if c.fails then some c.code else firstError rest

/-- A command whose checks are made in order before its effect: it ends with the first error found, or goes on to
its effect `ok` (60_exceptions.md R345). The effect is delayed, so that evaluation computes nothing for a command
that ends with an error. -/
def State.guarded (s : State) (checks : List Check) (ok : Unit → State) : Host.Outcome State Fault Refusal :=
  match firstError checks with
  | some e => .next (s.raiseError e)
  | none => .next (ok ())

/-- The RANGE check of all regions of a command (60_exceptions.md R345, 20_memory.md R95). -/
def State.rangeCheck (s : State) (rs : List Region) : Check :=
  { fails := rs.any fun r => decide ¬ r.InRange s.cfg.memBytes, code := .range }

/-- The OVERLAP check of a write region against the read regions (60_exceptions.md R345, 20_memory.md R96). -/
def overlapCheck (out : Region) (ins : List Region) : Check :=
  { fails := ins.any fun r => decide (out.Overlaps r), code := .overlap }

/-- The NO_KEY check of a command that uses ENC_KEY (60_exceptions.md R345). -/
def State.encKeyCheck (s : State) : Check := { fails := !s.encKeyValid, code := .noKey }

/-- The NO_KEY check of a command that uses MAC_KEY (60_exceptions.md R345). -/
def State.macKeyCheck (s : State) : Check := { fails := !s.macKeyValid, code := .noKey }

/-! ### Reset -/

/-- The buffer after a soft reset: unchanged while IDLE (70_reset_and_hazards.md R383); while BUSY, the write region
of the abandoned command unspecified (R384). An illegal word has no write region. -/
def State.memAfterSoftReset (s : State) : Memory :=
  match s.seq, decode s.cmdl with
  | .busy, .instr i => s.mem.scramble s.cfg.memBytes (writeRegion i s) s.draws
  | .busy, .illegal _ => s.mem
  | .idle, _ => s.mem

/-- SOFT RESET (10_state.md R35, 70_reset_and_hazards.md R381, R383, R384): every register, flag and key at its reset
value, the buffer as `memAfterSoftReset`. The platform parameters and the events to come are no state of the block. -/
def State.softReset (s : State) : State :=
  { State.reset with
    cfg := s.cfg
    mem := s.memAfterSoftReset
    draws := s.draws + 1
    schedule := s.schedule
    resp := s.resp }

/-- POWER-ON RESET (70_reset_and_hazards.md R380 to R382): every register, flag and key at its reset value, every
buffer byte unspecified by a new draw. -/
def State.powerOnReset (s : State) : State :=
  { State.reset with
    cfg := s.cfg
    mem := Memory.unspecified s.draws
    draws := s.draws + 1
    schedule := s.schedule
    resp := .none }

end Sys2Proof.Machine
end

