-- ==== Sys2Proof/Machine/HostPort.lean ====
section
/-! DEFINITION. The host port (20_memory.md R80 to R90, 10_state.md R32 to R49). -/

namespace Sys2Proof.Machine

/-- The registers in the order of their offsets (10_state.md R32). -/
def allRegs : List Reg :=
  [.id, .ctrl, .status, .cmd, .srcAddr, .srcLen, .auxAddr, .auxLen, .dstAddr, .ivAddr, .iter, .outLen]

/-- The register at a byte offset (10_state.md R32). -/
def regAt (off : Nat) : Option Reg := allRegs.find? fun r => r.offset == off

/-- What a host access reaches. -/
inductive PortTarget where
  | reg (r : Reg)
  | buffer (a : Nat)
  | error (f : Fault)
  deriving DecidableEq, Repr

/-- The target of an access of width w at an offset from BASE (20_memory.md R81 to R85): a bus error comes before
any refusal because BUSY (log 9). -/
def targetOfOffset (memBytes off : Nat) (w : Width) : PortTarget :=
  if off < Config.regFileBytes then
    match w, regAt off with
    | .w32, some r => .reg r
    | _, _ => .error .busErrorRegister
  else if Config.bufBase ≤ off ∧ off < Config.bufBase + memBytes then
    if (off - Config.bufBase) % w.bytes = 0 ∧ off - Config.bufBase + w.bytes ≤ memBytes then
      .buffer (off - Config.bufBase)
    else .error .busErrorBuffer
  else .error .busErrorUnmapped

/-- The target of an access at a host address: only the 32 MiB window at BASE is the block's (20_memory.md R80). -/
def State.target (s : State) (addr : Nat) (w : Width) : PortTarget :=
  if s.cfg.base ≤ addr ∧ addr < s.cfg.base + Config.windowBytes then
    targetOfOffset s.cfg.memBytes (addr - s.cfg.base) w
  else .error .outsideWindow

/-- A register read; none has a side effect (10_state.md R32 to R49, 20_memory.md R89). -/
def State.readReg (s : State) (r : Reg) : Word :=
  match r with
  | .id => Config.idValue
  | .ctrl => s.ctrlWord
  | .status => s.statusWord
  | .cmd => 0
  | .srcAddr => s.srcAddr
  | .srcLen => s.srcLen
  | .auxAddr => s.auxAddr
  | .auxLen => s.auxLen
  | .dstAddr => s.dstAddr
  | .ivAddr => s.ivAddr
  | .iter => s.iter
  | .outLen => s.outLen

/-- A write refused because BUSY: only BUSY_VIOL changes (20_memory.md R90). -/
def State.refuseAccess (s : State) : State := { s with busyViol := true }

/-- A write of v to CTRL, IDLE or BUSY: a soft reset when v[1] = 1, else IRQ_EN <- v[0] (10_state.md R34, R35). -/
def State.writeCtrl (s : State) (v : Word) : State :=
  if v.getLsbD 1 then s.softReset else { s with irqEn := v.getLsbD 0 }

/-- A write to an operand register while IDLE (10_state.md R46, R47); other registers have no operand. -/
def State.setOperand (s : State) (r : Reg) (v : Word) : State :=
  match r with
  | .srcAddr => { s with srcAddr := v }
  | .srcLen => { s with srcLen := v }
  | .auxAddr => { s with auxAddr := v }
  | .auxLen => { s with auxLen := v }
  | .dstAddr => { s with dstAddr := v }
  | .ivAddr => { s with ivAddr := v }
  | .iter => { s with iter := v }
  | .id => s
  | .ctrl => s
  | .status => s
  | .cmd => s
  | .outLen => s

/-- A register write (20_memory.md R89, R90): CTRL and STATUS always, ID and OUT_LEN never, CMD and the operand
registers while IDLE. -/
def State.writeReg (s : State) (r : Reg) (v : Word) : State :=
  match r with
  | .ctrl => s.writeCtrl v
  | .status => s.writeStatus v
  | .id => s
  | .outLen => s
  | .cmd => if s.isBusy then s.refuseAccess else s.accept v
  | .srcAddr => if s.isBusy then s.refuseAccess else s.setOperand .srcAddr v
  | .srcLen => if s.isBusy then s.refuseAccess else s.setOperand .srcLen v
  | .auxAddr => if s.isBusy then s.refuseAccess else s.setOperand .auxAddr v
  | .auxLen => if s.isBusy then s.refuseAccess else s.setOperand .auxLen v
  | .dstAddr => if s.isBusy then s.refuseAccess else s.setOperand .dstAddr v
  | .ivAddr => if s.isBusy then s.refuseAccess else s.setOperand .ivAddr v
  | .iter => if s.isBusy then s.refuseAccess else s.setOperand .iter v

/-- The bytes of a value in buffer order, the least significant first (20_memory.md R86). -/
def datumBytes : Datum → ByteString
  | .byte v => [v]
  | .half v => [v.extractLsb' 0 8, v.extractLsb' 8 8]
  | .word v => [v.extractLsb' 0 8, v.extractLsb' 8 8, v.extractLsb' 16 8, v.extractLsb' 24 8]

/-- The value of width w read at buffer offset a, the byte at a least significant (20_memory.md R86). -/
def Memory.readDatum (m : Memory) (a : Nat) (w : Width) : Datum :=
  match w with
  | .w8 => .byte (m.read a)
  | .w16 => .half (m.read (a + 1) ++ m.read a)
  | .w32 => .word (m.read (a + 3) ++ m.read (a + 2) ++ m.read (a + 1) ++ m.read a)

/-- All bits zero, what a buffer read refused because BUSY returns (20_memory.md R90). -/
def datumZero : Width → Datum
  | .w8 => .byte 0
  | .w16 => .half 0
  | .w32 => .word 0

/-- The word a value carries into a register, which is always 32 bits wide (20_memory.md R84). -/
def datumWord : Datum → Word
  | .byte v => v.setWidth 32
  | .half v => v.setWidth 32
  | .word v => v

/-- A host read (20_memory.md R83 to R90). -/
def hostRead (s : State) (addr : Nat) (w : Width) : Host.Outcome State Fault Refusal :=
  match s.target addr w with
  | .error f => .fault f
  | .reg r => .next { s with resp := .data (.word (s.readReg r)) }
  | .buffer a =>
    if s.isBusy then .next { s.refuseAccess with resp := .data (datumZero w) }
    else .next { s with resp := .data (s.mem.readDatum a w) }

/-- A host write (20_memory.md R83 to R90). -/
def hostWrite (s : State) (addr : Nat) (d : Datum) : Host.Outcome State Fault Refusal :=
  match s.target addr d.width with
  | .error f => .fault f
  | .reg r => .next { s.writeReg r (datumWord d) with resp := .written }
  | .buffer a =>
    if s.isBusy then .next { s.refuseAccess with resp := .written }
    else .next { s.writeMem a (datumBytes d) with resp := .written }

/-- One host access, one atomic step (20_memory.md R91). -/
def hostAccess (a : Access) (s : State) : Host.Outcome State Fault Refusal :=
  match a with
  | .read addr w => hostRead s addr w
  | .write addr d => hostWrite s addr d

end Sys2Proof.Machine
end

