-- ==== Sys2Proof/Machine/Aes.lean ====
section
/-! DEFINITION. The AES-256 block cipher (41_aes_cbc.md R200 to R211), PKCS7 (R212, R213) and CBC (R214, R215). A
state is the 16-byte string of R201: entry (row r, column c) is byte r + 4c. -/

namespace Sys2Proof.Machine

/-- `s[r][c]` of the state (R201); 0 where the string is too short (log 14). -/
def aesCell (s : ByteString) (r c : Nat) : Byte := s.getD (r + 4 * c) 0

/-- The state with entry f r c in row r, column c (R201). -/
def aesState (f : Nat → Nat → Byte) : ByteString := (List.range 16).map fun i => f (i % 4) (i / 4)

/-- `xtime` (R202). -/
def xtime (b : Byte) : Byte := if b.getLsbD 7 then (b <<< 1) ^^^ 0x1B else b <<< 1

/-- `xtime^k` (R202). -/
def xtimePow : Nat → Byte → Byte
  | 0, b => b
  | k + 1, b => xtime (xtimePow k b)

/-- `a • b`, the XOR of xtime^k(a) over the bits k set in b (R202). -/
def gfMul (a b : Byte) : Byte :=
  (List.range 8).foldl (fun acc k => if b.getLsbD k then acc ^^^ xtimePow k a else acc) 0

/-- The S-box table of R203, row x[7:4], column x[3:0]. -/
def sboxRows : List (List Nat) :=
  [[0x63, 0x7c, 0x77, 0x7b, 0xf2, 0x6b, 0x6f, 0xc5, 0x30, 0x01, 0x67, 0x2b, 0xfe, 0xd7, 0xab, 0x76],
   [0xca, 0x82, 0xc9, 0x7d, 0xfa, 0x59, 0x47, 0xf0, 0xad, 0xd4, 0xa2, 0xaf, 0x9c, 0xa4, 0x72, 0xc0],
   [0xb7, 0xfd, 0x93, 0x26, 0x36, 0x3f, 0xf7, 0xcc, 0x34, 0xa5, 0xe5, 0xf1, 0x71, 0xd8, 0x31, 0x15],
   [0x04, 0xc7, 0x23, 0xc3, 0x18, 0x96, 0x05, 0x9a, 0x07, 0x12, 0x80, 0xe2, 0xeb, 0x27, 0xb2, 0x75],
   [0x09, 0x83, 0x2c, 0x1a, 0x1b, 0x6e, 0x5a, 0xa0, 0x52, 0x3b, 0xd6, 0xb3, 0x29, 0xe3, 0x2f, 0x84],
   [0x53, 0xd1, 0x00, 0xed, 0x20, 0xfc, 0xb1, 0x5b, 0x6a, 0xcb, 0xbe, 0x39, 0x4a, 0x4c, 0x58, 0xcf],
   [0xd0, 0xef, 0xaa, 0xfb, 0x43, 0x4d, 0x33, 0x85, 0x45, 0xf9, 0x02, 0x7f, 0x50, 0x3c, 0x9f, 0xa8],
   [0x51, 0xa3, 0x40, 0x8f, 0x92, 0x9d, 0x38, 0xf5, 0xbc, 0xb6, 0xda, 0x21, 0x10, 0xff, 0xf3, 0xd2],
   [0xcd, 0x0c, 0x13, 0xec, 0x5f, 0x97, 0x44, 0x17, 0xc4, 0xa7, 0x7e, 0x3d, 0x64, 0x5d, 0x19, 0x73],
   [0x60, 0x81, 0x4f, 0xdc, 0x22, 0x2a, 0x90, 0x88, 0x46, 0xee, 0xb8, 0x14, 0xde, 0x5e, 0x0b, 0xdb],
   [0xe0, 0x32, 0x3a, 0x0a, 0x49, 0x06, 0x24, 0x5c, 0xc2, 0xd3, 0xac, 0x62, 0x91, 0x95, 0xe4, 0x79],
   [0xe7, 0xc8, 0x37, 0x6d, 0x8d, 0xd5, 0x4e, 0xa9, 0x6c, 0x56, 0xf4, 0xea, 0x65, 0x7a, 0xae, 0x08],
   [0xba, 0x78, 0x25, 0x2e, 0x1c, 0xa6, 0xb4, 0xc6, 0xe8, 0xdd, 0x74, 0x1f, 0x4b, 0xbd, 0x8b, 0x8a],
   [0x70, 0x3e, 0xb5, 0x66, 0x48, 0x03, 0xf6, 0x0e, 0x61, 0x35, 0x57, 0xb9, 0x86, 0xc1, 0x1d, 0x9e],
   [0xe1, 0xf8, 0x98, 0x11, 0x69, 0xd9, 0x8e, 0x94, 0x9b, 0x1e, 0x87, 0xe9, 0xce, 0x55, 0x28, 0xdf],
   [0x8c, 0xa1, 0x89, 0x0d, 0xbf, 0xe6, 0x42, 0x68, 0x41, 0x99, 0x2d, 0x0f, 0xb0, 0x54, 0xbb, 0x16]]

/-- The inverse S-box table of R204, row x[7:4], column x[3:0]. -/
def invSboxRows : List (List Nat) :=
  [[0x52, 0x09, 0x6a, 0xd5, 0x30, 0x36, 0xa5, 0x38, 0xbf, 0x40, 0xa3, 0x9e, 0x81, 0xf3, 0xd7, 0xfb],
   [0x7c, 0xe3, 0x39, 0x82, 0x9b, 0x2f, 0xff, 0x87, 0x34, 0x8e, 0x43, 0x44, 0xc4, 0xde, 0xe9, 0xcb],
   [0x54, 0x7b, 0x94, 0x32, 0xa6, 0xc2, 0x23, 0x3d, 0xee, 0x4c, 0x95, 0x0b, 0x42, 0xfa, 0xc3, 0x4e],
   [0x08, 0x2e, 0xa1, 0x66, 0x28, 0xd9, 0x24, 0xb2, 0x76, 0x5b, 0xa2, 0x49, 0x6d, 0x8b, 0xd1, 0x25],
   [0x72, 0xf8, 0xf6, 0x64, 0x86, 0x68, 0x98, 0x16, 0xd4, 0xa4, 0x5c, 0xcc, 0x5d, 0x65, 0xb6, 0x92],
   [0x6c, 0x70, 0x48, 0x50, 0xfd, 0xed, 0xb9, 0xda, 0x5e, 0x15, 0x46, 0x57, 0xa7, 0x8d, 0x9d, 0x84],
   [0x90, 0xd8, 0xab, 0x00, 0x8c, 0xbc, 0xd3, 0x0a, 0xf7, 0xe4, 0x58, 0x05, 0xb8, 0xb3, 0x45, 0x06],
   [0xd0, 0x2c, 0x1e, 0x8f, 0xca, 0x3f, 0x0f, 0x02, 0xc1, 0xaf, 0xbd, 0x03, 0x01, 0x13, 0x8a, 0x6b],
   [0x3a, 0x91, 0x11, 0x41, 0x4f, 0x67, 0xdc, 0xea, 0x97, 0xf2, 0xcf, 0xce, 0xf0, 0xb4, 0xe6, 0x73],
   [0x96, 0xac, 0x74, 0x22, 0xe7, 0xad, 0x35, 0x85, 0xe2, 0xf9, 0x37, 0xe8, 0x1c, 0x75, 0xdf, 0x6e],
   [0x47, 0xf1, 0x1a, 0x71, 0x1d, 0x29, 0xc5, 0x89, 0x6f, 0xb7, 0x62, 0x0e, 0xaa, 0x18, 0xbe, 0x1b],
   [0xfc, 0x56, 0x3e, 0x4b, 0xc6, 0xd2, 0x79, 0x20, 0x9a, 0xdb, 0xc0, 0xfe, 0x78, 0xcd, 0x5a, 0xf4],
   [0x1f, 0xdd, 0xa8, 0x33, 0x88, 0x07, 0xc7, 0x31, 0xb1, 0x12, 0x10, 0x59, 0x27, 0x80, 0xec, 0x5f],
   [0x60, 0x51, 0x7f, 0xa9, 0x19, 0xb5, 0x4a, 0x0d, 0x2d, 0xe5, 0x7a, 0x9f, 0x93, 0xc9, 0x9c, 0xef],
   [0xa0, 0xe0, 0x3b, 0x4d, 0xae, 0x2a, 0xf5, 0xb0, 0xc8, 0xeb, 0xbb, 0x3c, 0x83, 0x53, 0x99, 0x61],
   [0x17, 0x2b, 0x04, 0x7e, 0xba, 0x77, 0xd6, 0x26, 0xe1, 0x69, 0x14, 0x63, 0x55, 0x21, 0x0c, 0x7d]]

/-- The byte of a table at row x[7:4], column x[3:0] (R203, R204). -/
def tableByte (rows : List (List Nat)) (x : Byte) : Byte :=
  BitVec.ofNat 8 ((rows.getD (x.toNat / 16) []).getD (x.toNat % 16) 0)

/-- `SBOX[x]` (R203). -/
def sbox (x : Byte) : Byte := tableByte sboxRows x

/-- `INV_SBOX[x]` (R204). -/
def invSbox (x : Byte) : Byte := tableByte invSboxRows x

/-- `SubBytes` (R205). -/
def subBytes (s : ByteString) : ByteString := s.map sbox

/-- `InvSubBytes` (R205). -/
def invSubBytes (s : ByteString) : ByteString := s.map invSbox

/-- `ShiftRows`: row r rotates left by r (R205). -/
def shiftRows (s : ByteString) : ByteString := aesState fun r c => aesCell s r ((c + r) % 4)

/-- `InvShiftRows`: row r rotates right by r (R205). -/
def invShiftRows (s : ByteString) : ByteString := aesState fun r c => aesCell s r ((c + 4 - r) % 4)

/-- The coefficients of MixColumns, one row for each row of the result (R205). -/
def mixRows : List (List Byte) := [[0x02, 0x03, 0x01, 0x01], [0x01, 0x02, 0x03, 0x01], [0x01, 0x01, 0x02, 0x03], [0x03, 0x01, 0x01, 0x02]]

/-- The coefficients of InvMixColumns (R205). -/
def invMixRows : List (List Byte) := [[0x0e, 0x0b, 0x0d, 0x09], [0x09, 0x0e, 0x0b, 0x0d], [0x0d, 0x09, 0x0e, 0x0b], [0x0b, 0x0d, 0x09, 0x0e]]

/-- Each column multiplied by a matrix over GF(2^8): entry r is the XOR over j of m[r][j] • s[j][c] (R205). -/
def mixWith (m : List (List Byte)) (s : ByteString) : ByteString :=
  aesState fun r c =>
    gfMul ((m.getD r []).getD 0 0) (aesCell s 0 c) ^^^ gfMul ((m.getD r []).getD 1 0) (aesCell s 1 c)
      ^^^ gfMul ((m.getD r []).getD 2 0) (aesCell s 2 c) ^^^ gfMul ((m.getD r []).getD 3 0) (aesCell s 3 c)

/-- `MixColumns` (R205). -/
def mixColumns (s : ByteString) : ByteString := mixWith mixRows s

/-- `InvMixColumns` (R205). -/
def invMixColumns (s : ByteString) : ByteString := mixWith invMixRows s

/-- `AddRoundKey(rd)` with the key-schedule words w (R205); a missing key byte is 0 (log 14). -/
def addRoundKey (w : List ByteString) (rd : Nat) (s : ByteString) : ByteString :=
  aesState fun r c => aesCell s r c ^^^ (w.getD (4 * rd + c) []).getD r 0

/-- `RotWord` (R209). -/
def rotWord (a : ByteString) : ByteString := a.drop 1 ++ a.take 1

/-- `SubWord` (R209). -/
def subWord (a : ByteString) : ByteString := a.map sbox

/-- `Rcon[j]`: 01 for j = 1, and Rcon[j+1] = xtime(Rcon[j]) (R209). j = 0, which no step uses, gives 01 too (log 14). -/
def rcon (j : Nat) : Byte := xtimePow (j - 1) 0x01

/-- The word t of step i of the key expansion, from w[i-1] (R209). -/
def keyStep (i : Nat) (prev : ByteString) : ByteString :=
  if i % 8 = 0 then xorBytes (subWord (rotWord prev)) [rcon (i / 8), 0x00, 0x00, 0x00]
  else if i % 8 = 4 then subWord prev
  else prev

/-- `n` more key-schedule words from word number i on. The list holds w newest first: entry j is w[i-1-j] (R209). -/
def keyExtend : Nat → Nat → List ByteString → List ByteString
  | 0, _, w => w
  | n + 1, i, w => keyExtend n (i + 1) (xorBytes (w.getD 7 []) (keyStep i (w.getD 0 [])) :: w)

/-- The 60 words w[0] ... w[59] of a 32-byte key (R209). -/
def keySchedule (key : ByteString) : List ByteString :=
  (keyExtend 52 8 ((List.range 8).map fun i => (key.drop (4 * i)).take 4).reverse).reverse

/-- Round rd of the forward cipher, 1 to 13 (R210). -/
def aesRound (w : List ByteString) (rd : Nat) (s : ByteString) : ByteString :=
  addRoundKey w rd (mixColumns (shiftRows (subBytes s)))

/-- Round rd of the inverse cipher, 13 down to 1 (R211). -/
def aesInvRound (w : List ByteString) (rd : Nat) (s : ByteString) : ByteString :=
  invMixColumns (addRoundKey w rd (invSubBytes (invShiftRows s)))

/-- Rounds 1 to n of the forward cipher, in rising order (R210). -/
def aesRounds (w : List ByteString) : Nat → ByteString → ByteString
  | 0, s => s
  | n + 1, s => aesRound w (n + 1) (aesRounds w n s)

/-- Rounds n down to 1 of the inverse cipher (R211). -/
def aesInvRounds (w : List ByteString) : Nat → ByteString → ByteString
  | 0, s => s
  | n + 1, s => aesInvRounds w n (aesInvRound w (n + 1) s)

/-- `AES_E` with an expanded key (R210). -/
def aesEncryptBlock (w : List ByteString) (x : ByteString) : ByteString :=
  addRoundKey w 14 (shiftRows (subBytes (aesRounds w 13 (addRoundKey w 0 x))))

/-- `AES_D` with an expanded key (R211). -/
def aesDecryptBlock (w : List ByteString) (y : ByteString) : ByteString :=
  addRoundKey w 0 (invSubBytes (invShiftRows (aesInvRounds w 13 (addRoundKey w 14 y))))

/-- `AES_E(K, X)` of a 16-byte block (R210). -/
def aesE (key x : ByteString) : ByteString := aesEncryptBlock (keySchedule key) x

/-- `AES_D(K, Y)` of a 16-byte block (R211). -/
def aesD (key y : ByteString) : ByteString := aesDecryptBlock (keySchedule key) y

/-- The padding length p of R212 for a plaintext of n bytes. -/
def padCount (n : Nat) : Nat := 16 - n % 16

/-- `PAD(M)` (R212). -/
def pkcs7Pad (m : ByteString) : ByteString :=
  m ++ List.replicate (padCount m.length) (BitVec.ofNat 8 (padCount m.length))

/-- `len(PAD(M)) = 16·(⌊n / 16⌋ + 1)` for a plaintext of n bytes (R212). -/
def paddedLen (n : Nat) : Nat := 16 * (n / 16 + 1)

/-- The value p that `PAD_CHECK` reads, the last byte (R213); 0 for the empty string (log 14). -/
def padByte (y : ByteString) : Nat := (y.getD (y.length - 1) 0).toNat

/-- `ok` of `PAD_CHECK`: 1 ≤ p ≤ 16 and each of the last p bytes is p (R213). -/
def padOk (y : ByteString) : Bool :=
  decide (1 ≤ padByte y ∧ padByte y ≤ 16)
    && (List.range (padByte y)).all fun k => (y.getD (y.length - 1 - k) 0).toNat == padByte y

/-- CBC encryption of n 16-byte blocks, chained from the block `prev` (R214). A string of other than n
whole blocks is log 14. -/
def cbcEncBlocks (w : List ByteString) : Nat → ByteString → ByteString → ByteString
  | 0, _, _ => []
  | n + 1, prev, x =>
    aesEncryptBlock w (xorBytes (x.take 16) prev)
      ++ cbcEncBlocks w n (aesEncryptBlock w (xorBytes (x.take 16) prev)) (x.drop 16)

/-- CBC decryption of n 16-byte blocks, chained from the block `prev` (R215). A string of other than n
whole blocks is log 14. -/
def cbcDecBlocks (w : List ByteString) : Nat → ByteString → ByteString → ByteString
  | 0, _, _ => []
  | n + 1, prev, c =>
    xorBytes (aesDecryptBlock w (c.take 16)) prev ++ cbcDecBlocks w n (c.take 16) (c.drop 16)

/-- `CBC_ENC(K, IV, M)` (R214). -/
def cbcEnc (key iv m : ByteString) : ByteString :=
  cbcEncBlocks (keySchedule key) ((pkcs7Pad m).length / 16) iv (pkcs7Pad m)

/-- `CBC_DEC_RAW(K, IV, C)` (R215). -/
def cbcDecRaw (key iv c : ByteString) : ByteString :=
  cbcDecBlocks (keySchedule key) (c.length / 16) iv c

end Sys2Proof.Machine
end

