-- ==== Sys2Proof/Machine/AesCbc.lean ====
section
/-! DEFINITION. The cipher family (41_aes_cbc.md R221 to R234). -/

namespace Sys2Proof.Machine

/-- AESENC (R221). -/
def execAesenc (s : State) : Host.Outcome State Fault Refusal :=
  s.guarded
    [s.rangeCheck [s.src, s.ivRegion, s.dst s.aesencLen], overlapCheck (s.dst s.aesencLen) [s.src, s.ivRegion],
      s.encKeyCheck] fun _ =>
    (s.writeMem s.dstAddr.toNat (cbcEnc s.encKey.bytes (s.readRegion s.ivRegion) (s.readRegion s.src))).complete
      .aesenc false s.aesencLen

/-- The NOT_AUTH check of AESDEC. AUTH still has its value at acceptance: nothing but a completion or a reset writes
it (R232, 60_exceptions.md R341). -/
def State.authCheck (s : State) : Check := { fails := !s.auth, code := .notAuth }

/-- The ciphertext length check of AESDEC: empty, or no multiple of 16 (R231). -/
def State.cipherLengthCheck (s : State) : Check :=
  { fails := decide (s.srcLen.toNat = 0 ∨ s.srcLen.toNat % 16 ≠ 0), code := .integrity }

/-- The raw decryption Y of the ciphertext in SRC with the IV in IV_ADDR (R215, R230). -/
def State.rawPlaintext (s : State) : ByteString :=
  cbcDecRaw s.encKey.bytes (s.readRegion s.ivRegion) (s.readRegion s.src)

/-- The end of AESDEC once its checks passed: the plaintext and p zero bytes (R233), or on bad padding zero bytes
over the whole output region and INTEGRITY (R234). -/
def State.finishDecrypt (s : State) : State :=
  if padOk s.rawPlaintext then
    (s.writeMem s.dstAddr.toNat
      (s.rawPlaintext.take (s.srcLen.toNat - padByte s.rawPlaintext) ++ zeros (padByte s.rawPlaintext))).complete
      .aesdec false (s.srcLen.toNat - padByte s.rawPlaintext)
  else (s.writeMem s.dstAddr.toNat (zeros s.srcLen.toNat)).raiseError .integrity

/-- AESDEC (R230). -/
def execAesdec (s : State) : Host.Outcome State Fault Refusal :=
  s.guarded
    [s.rangeCheck [s.src, s.ivRegion, s.dst s.srcLen.toNat],
      overlapCheck (s.dst s.srcLen.toNat) [s.src, s.ivRegion], s.encKeyCheck, s.authCheck, s.cipherLengthCheck] fun _ =>
    s.finishDecrypt

end Sys2Proof.Machine
end

