-- ==== Sys2Proof/Machine/Compare.lean ====
section
/-! DEFINITION. The comparator (43_compare.md R291, R295). -/

namespace Sys2Proof.Machine

/-- The accumulator of CT_EQ: the OR over all bytes of a[i] XOR b[i] (R291). -/
def ctAccumulate (a b : ByteString) : Byte := (xorBytes a b).foldl (· ||| ·) 0

/-- `CT_EQ(a, b)` (R291). -/
def ctEq (a b : ByteString) : Bool := if a.length ≠ b.length then false else ctAccumulate a b == 0

/-- CTCMP (R295). -/
def execCtcmp (s : State) : Host.Outcome State Fault Refusal :=
  s.guarded [s.rangeCheck [s.src, s.aux]] fun _ =>
    s.complete .ctcmp (ctEq (s.readRegion s.src) (s.readRegion s.aux)) 0

end Sys2Proof.Machine
end

