-- ==== Sys2Proof/Machine/Sha1.lean ====
section
/-! DEFINITION. SHA-1 (40_kdf.md R161 to R164). -/

namespace Sys2Proof.Machine

/-- The chaining value, and the working variables a to e, of SHA-1 (R162, R163). -/
structure Sha1Words where
  a : Word
  b : Word
  c : Word
  d : Word
  e : Word
  deriving DecidableEq, Repr

/-- The initial value H0 to H4 (R162). -/
def sha1Initial : Sha1Words :=
  { a := 0x67452301, b := 0xEFCDAB89, c := 0x98BADCFE, d := 0x10325476, e := 0xC3D2E1F0 }

/-- The round constant K_t (R162). A t above 79, which no round uses, has the last constant (log 14). -/
def sha1Constant (t : Nat) : Word :=
  if t < 20 then 0x5A827999 else if t < 40 then 0x6ED9EBA1 else if t < 60 then 0x8F1BBCDC else 0xCA62C1D6

/-- The round function f of round t (R163). -/
def sha1Function (t : Nat) (b c d : Word) : Word :=
  if t < 20 then (b &&& c) ^^^ (~~~b &&& d)
  else if t < 40 then b ^^^ c ^^^ d
  else if t < 60 then (b &&& c) ^^^ (b &&& d) ^^^ (c &&& d)
  else b ^^^ c ^^^ d

/-- `n` more words of the message schedule. The list holds W newest first, so entry j is W[t-1-j] (R163). -/
def sha1Extend : Nat → List Word → List Word
  | 0, w => w
  | n + 1, w =>
    sha1Extend n (((w.getD 2 0 ^^^ w.getD 7 0 ^^^ w.getD 13 0 ^^^ w.getD 15 0).rotateLeft 1) :: w)

/-- The 80 schedule words of a block of 16 words (R163). -/
def sha1Schedule (block : List Word) : List Word := (sha1Extend 64 block.reverse).reverse

/-- Round t with schedule word w (R163). -/
def sha1Round (t : Nat) (w : Word) (s : Sha1Words) : Sha1Words :=
  { a := s.a.rotateLeft 5 + sha1Function t s.b s.c s.d + s.e + sha1Constant t + w
    b := s.a
    c := s.b.rotateLeft 30
    d := s.c
    e := s.d }

/-- The rounds of the schedule words from round t on (R163). -/
def sha1Rounds : Nat → List Word → Sha1Words → Sha1Words
  | _, [], s => s
  | t, w :: ws, s => sha1Rounds (t + 1) ws (sha1Round t w s)

/-- Compression of one block (R163). -/
def sha1Compress (h : Sha1Words) (block : List Word) : Sha1Words :=
  let s := sha1Rounds 0 (sha1Schedule block) h
  { a := h.a + s.a, b := h.b + s.b, c := h.c + s.c, d := h.d + s.d, e := h.e + s.e }

/-- The 20 output bytes of a chaining value (R164). -/
def Sha1Words.bytes (h : Sha1Words) : ByteString :=
  be32 h.a ++ be32 h.b ++ be32 h.c ++ be32 h.d ++ be32 h.e

/-- `SHA1(M)`, 20 bytes (R164). -/
def sha1 (m : ByteString) : ByteString := (hashPadded sha1Compress sha1Initial m).bytes

end Sys2Proof.Machine
end

