-- ==== Sys2Proof/Machine/Sha256.lean ====
section
/-! DEFINITION. SHA-256 (42_hmac_sha256.md R251 to R256). -/

namespace Sys2Proof.Machine

/-- The chaining value, and the working variables a to h, of SHA-256 (R253, R255). -/
structure Sha256Words where
  a : Word
  b : Word
  c : Word
  d : Word
  e : Word
  f : Word
  g : Word
  h : Word
  deriving DecidableEq, Repr

/-- The initial value H0 to H7 (R253). -/
def sha256Initial : Sha256Words :=
  { a := 0x6a09e667, b := 0xbb67ae85, c := 0x3c6ef372, d := 0xa54ff53a,
    e := 0x510e527f, f := 0x9b05688c, g := 0x1f83d9ab, h := 0x5be0cd19 }

/-- Line `r` of the table of R252, its eight words read as one number, the first word the most significant. -/
def sha256ConstantRow : Nat → BitVec 256
  | 0 => 0x428a2f9871374491b5c0fbcfe9b5dba53956c25b59f111f1923f82a4ab1c5ed5
  | 1 => 0xd807aa9812835b01243185be550c7dc372be5d7480deb1fe9bdc06a7c19bf174
  | 2 => 0xe49b69c1efbe47860fc19dc6240ca1cc2de92c6f4a7484aa5cb0a9dc76f988da
  | 3 => 0x983e5152a831c66db00327c8bf597fc7c6e00bf3d5a7914706ca635114292967
  | 4 => 0x27b70a852e1b21384d2c6dfc53380d13650a7354766a0abb81c2c92e92722c85
  | 5 => 0xa2bfe8a1a81a664bc24b8b70c76c51a3d192e819d6990624f40e3585106aa070
  | 6 => 0x19a4c1161e376c082748774c34b0bcb5391c0cb34ed8aa4a5b9cca4f682e6ff3
  | _ => 0x748f82ee78a5636f84c878148cc7020890befffaa4506cebbef9a3f7c67178f2

/-- `K[t]`: word t mod 8 of line t / 8 of the table, which is row-major (R252). A t above 63, which no round uses, reads
the last line (log 14). -/
def sha256Constant (t : Nat) : Word := (sha256ConstantRow (t / 8)).extractLsb' (32 * (7 - t % 8)) 32

/-- The round constants K[0..63] (R252). -/
def sha256Constants : List Word := (List.range 64).map sha256Constant

/-- `Ch` (R254). -/
def sha256Ch (x y z : Word) : Word := (x &&& y) ^^^ (~~~x &&& z)

/-- `Maj` (R254). -/
def sha256Maj (x y z : Word) : Word := (x &&& y) ^^^ (x &&& z) ^^^ (y &&& z)

/-- `Σ0` (R254). -/
def sha256BigSigma0 (x : Word) : Word := x.rotateRight 2 ^^^ x.rotateRight 13 ^^^ x.rotateRight 22

/-- `Σ1` (R254). -/
def sha256BigSigma1 (x : Word) : Word := x.rotateRight 6 ^^^ x.rotateRight 11 ^^^ x.rotateRight 25

/-- `σ0` (R254). -/
def sha256SmallSigma0 (x : Word) : Word := x.rotateRight 7 ^^^ x.rotateRight 18 ^^^ (x >>> 3)

/-- `σ1` (R254). -/
def sha256SmallSigma1 (x : Word) : Word := x.rotateRight 17 ^^^ x.rotateRight 19 ^^^ (x >>> 10)

/-- `n` more words of the message schedule. The list holds W newest first, so entry j is W[t-1-j] (R255). -/
def sha256Extend : Nat → List Word → List Word
  | 0, w => w
  | n + 1, w =>
    sha256Extend n
      ((sha256SmallSigma1 (w.getD 1 0) + w.getD 6 0 + sha256SmallSigma0 (w.getD 14 0) + w.getD 15 0) :: w)

/-- The 64 schedule words of a block of 16 words (R255). -/
def sha256Schedule (block : List Word) : List Word := (sha256Extend 48 block.reverse).reverse

/-- One round with constant k and schedule word w (R255). -/
def sha256Round (k w : Word) (s : Sha256Words) : Sha256Words :=
  let t1 := s.h + sha256BigSigma1 s.e + sha256Ch s.e s.f s.g + k + w
  let t2 := sha256BigSigma0 s.a + sha256Maj s.a s.b s.c
  { a := t1 + t2, b := s.a, c := s.b, d := s.c, e := s.d + t1, f := s.e, g := s.f, h := s.g }

/-- The rounds, one for each constant and schedule word (R255). -/
def sha256Rounds : List Word → List Word → Sha256Words → Sha256Words
  | k :: ks, w :: ws, s => sha256Rounds ks ws (sha256Round k w s)
  | _, _, s => s

/-- Compression of one block (R255). -/
def sha256Compress (h : Sha256Words) (block : List Word) : Sha256Words :=
  let s := sha256Rounds sha256Constants (sha256Schedule block) h
  { a := h.a + s.a, b := h.b + s.b, c := h.c + s.c, d := h.d + s.d,
    e := h.e + s.e, f := h.f + s.f, g := h.g + s.g, h := h.h + s.h }

/-- The 32 output bytes of a chaining value (R256). -/
def Sha256Words.bytes (h : Sha256Words) : ByteString :=
  be32 h.a ++ be32 h.b ++ be32 h.c ++ be32 h.d ++ be32 h.e ++ be32 h.f ++ be32 h.g ++ be32 h.h

/-- `SHA256(M)`, 32 bytes (R256). -/
def sha256 (m : ByteString) : ByteString := (hashPadded sha256Compress sha256Initial m).bytes

end Sys2Proof.Machine
end

