-- ==== Sys2Proof/Machine/Mac.lean ====
section
/-! DEFINITION. HMAC over a hash with 64-byte blocks (40_kdf.md R165), its two uses (R167, 42_hmac_sha256.md R258),
and PBKDF2 (40_kdf.md R168, R169, R176). -/

namespace Sys2Proof.Machine

/-- K0: the key hashed when longer than 64 bytes, then padded with zero bytes to 64 (R165). -/
def hmacKeyBlock (hash : ByteString → ByteString) (key : ByteString) : ByteString :=
  let k1 := if 64 < key.length then hash key else key
  k1 ++ zeros (64 - k1.length)

/-- `HMAC_H(K, m)` (R165). -/
def hmacWith (hash : ByteString → ByteString) (key m : ByteString) : ByteString :=
  let k0 := hmacKeyBlock hash key
  hash (xorBytes k0 (List.replicate 64 0x5C) ++ hash (xorBytes k0 (List.replicate 64 0x36) ++ m))

/-- `PRF(P, x) = HMAC_SHA1(P, x)`, 20 bytes (R167). -/
def hmacSha1 (key m : ByteString) : ByteString := hmacWith sha1 key m

/-- `HMAC_SHA256(K, m)`, 32 bytes (R258). -/
def hmacSha256 (key m : ByteString) : ByteString := hmacWith sha256 key m

/-- `n` further iterations from U and T: each replaces U by PRF(P, U) and T by T ⊕ U (R168). -/
def pbkdf2Iterate (p : ByteString) : Nat → ByteString → ByteString → ByteString
  | 0, _, t => t
  | n + 1, u, t => pbkdf2Iterate p n (hmacSha1 p u) (xorBytes t (hmacSha1 p u))

/-- `T_i` for the block index i, counted from 1 (R168). The model's choice outside the rule's domain, which no command
reaches: a count of 0 gives U_1, as a count of 1 does, and be32 takes an index of 2^32 or more modulo 2^32 (DESIGN
CHOICE, log 14). -/
def pbkdf2Block (p s : ByteString) (c i : Nat) : ByteString :=
  let u := hmacSha1 p (s ++ be32 (BitVec.ofNat 32 i))
  pbkdf2Iterate p (c - 1) u u

/-- `PBKDF2(P, S, c, dkLen)` with PRF HMAC-SHA1: the first dkLen bytes of T_1 || ... || T_l, l = ceil(dkLen / 20)
(R168). -/
def pbkdf2 (p s : ByteString) (c dkLen : Nat) : ByteString :=
  ((List.range ((dkLen + 19) / 20)).flatMap fun i => pbkdf2Block p s c (i + 1)).take dkLen

/-- PBKDF2 over the domain-separated salt, salt || DOMAIN_SUFFIX (R176). -/
def deriveKey (p salt : ByteString) (c dkLen : Nat) : ByteString :=
  pbkdf2 p (salt ++ Config.domainSuffix) c dkLen

end Sys2Proof.Machine
end

