-- ==== Sys2Proof/Machine/HmacSha256.lean ====
section
/-! DEFINITION. The MAC family (42_hmac_sha256.md R258 to R273). -/

namespace Sys2Proof.Machine

/-- The HMAC-SHA256 tag of the data in SRC under MAC_KEY (R258). -/
def State.tag (s : State) : ByteString := hmacSha256 s.macKey.bytes (s.readRegion s.src)

/-- HMAC (R260). -/
def execHmac (s : State) : Host.Outcome State Fault Refusal :=
  s.guarded
    [s.rangeCheck [s.src, s.dst Config.tagBytes], overlapCheck (s.dst Config.tagBytes) [s.src], s.macKeyCheck] fun _ =>
    (s.writeMem s.dstAddr.toNat s.tag).complete .hmac false Config.tagBytes

/-- HMACVERIFY (R270): a tag of another length than 32 is rejected early, with no HMAC computed and no error (R271);
otherwise the outcome of the comparison. The fresh tag goes nowhere (R273). -/
def execHmacverify (s : State) : Host.Outcome State Fault Refusal :=
  s.guarded [s.rangeCheck [s.src, s.aux], s.macKeyCheck] fun _ =>
    if s.auxLen.toNat ≠ Config.tagBytes then s.complete .hmacverify false 0
    else s.complete .hmacverify (ctEq s.tag (s.readRegion s.aux)) 0

end Sys2Proof.Machine
end

