-- ==== Sys2Proof/Machine/Kdf.lean ====
section
/-! DEFINITION. The KDF family (40_kdf.md R175 to R181). -/

namespace Sys2Proof.Machine

/-- The POLICY check of KDF64 and KDF32: ITER < 10000 or a salt shorter than 16 bytes (R175). -/
def State.policyCheck (s : State) : Check :=
  { fails := decide (s.iter.toNat < Config.iterMin ∨ s.auxLen.toNat < Config.saltMin), code := .policy }

/-- The dkLen derived bytes of the passphrase in SRC, the salt in AUX and the count in ITER (R176, R177, R180). -/
def State.derivedKey (s : State) (dkLen : Nat) : ByteString :=
  deriveKey (s.readRegion s.src) (s.readRegion s.aux) s.iter.toNat dkLen

/-- KDF64 (R180). -/
def execKdf64 (s : State) : Host.Outcome State Fault Refusal :=
  s.guarded [s.rangeCheck [s.src, s.aux], s.policyCheck] fun _ =>
    (s.loadBothKeys ((s.derivedKey 64).take 32) ((s.derivedKey 64).drop 32)).complete .kdf64 false 0

/-- KDF32 (R181). -/
def execKdf32 (s : State) : Host.Outcome State Fault Refusal :=
  s.guarded [s.rangeCheck [s.src, s.aux], s.policyCheck] fun _ =>
    (s.loadMacKey (s.derivedKey 32)).complete .kdf32 false 0

end Sys2Proof.Machine
end

