-- ==== Sys2Proof/Machine/KeyManagement.lean ====
section
/-! DEFINITION. The key-management family (44_key_management.md R311 to R325). -/

namespace Sys2Proof.Machine

/-- The LENGTH check of LOADKEYS (R312). -/
def State.sessionLengthCheck (s : State) : Check :=
  { fails := decide (s.srcLen.toNat ≠ Config.sessionKeyBytes), code := .length }

/-- LOADKEYS: both keys from the 64 source bytes, which are then wiped (R311, R313). -/
def execLoadkeys (s : State) : Host.Outcome State Fault Refusal :=
  s.guarded [s.rangeCheck [s.src], s.sessionLengthCheck] fun _ =>
    ((s.loadBothKeys ((s.readRegion s.src).take 32) ((s.readRegion s.src).drop 32)).writeMem
      s.srcAddr.toNat (zeros Config.sessionKeyBytes)).complete .loadkeys false 0

/-- ZEROIZE (R320). -/
def execZeroize (s : State) : Host.Outcome State Fault Refusal :=
  .next (s.wipeKeys.complete .zeroize false 0)

/-- ZEROIZE_ALL (R325). -/
def execZeroizeAll (s : State) : Host.Outcome State Fault Refusal :=
  .next (({ s.wipeKeys with mem := Memory.zeroed }).complete .zeroizeAll false 0)

end Sys2Proof.Machine
end

