-- ==== Sys2Proof/Machine/Dispatch.lean ====
section
/-! DEFINITION. One arm per command, each a direct call of its meaning: the whole effect of the command's completion
(60_exceptions.md R342). -/

namespace Sys2Proof.Machine

def exec (i : Instr) (s : State) : Host.Outcome State Fault Refusal :=
  match i with
  | .kdf64 => Sys2Proof.Machine.execKdf64 s
  | .kdf32 => Sys2Proof.Machine.execKdf32 s
  | .loadkeys => Sys2Proof.Machine.execLoadkeys s
  | .zeroize => Sys2Proof.Machine.execZeroize s
  | .zeroizeAll => Sys2Proof.Machine.execZeroizeAll s
  | .aesenc => Sys2Proof.Machine.execAesenc s
  | .aesdec => Sys2Proof.Machine.execAesdec s
  | .hmac => Sys2Proof.Machine.execHmac s
  | .hmacverify => Sys2Proof.Machine.execHmacverify s
  | .ctcmp => Sys2Proof.Machine.execCtcmp s

end Sys2Proof.Machine
end

