-- ==== Sys2Proof/Machine/Sequencer.lean ====
section
/-! DEFINITION. The sequencer: the completion of the accepted command (60_exceptions.md R342, R343, R346). -/

namespace Sys2Proof.Machine

/-- COMPLETION: the whole command `decode(CMDL)` in one atomic step (R342); an illegal word ends with BAD_CMD
(R346). -/
def completion (s : State) : Host.Outcome State Fault Refusal :=
  match decode s.cmdl with
  | .instr i => exec i s
  | .illegal _ => .next (s.raiseError .badCmd)

/-- The sequencer's turn: the completion while BUSY, nothing while IDLE (10_state.md R31). -/
def sequencerTurn (s : State) : Host.Outcome State Fault Refusal :=
  match s.seq with
  | .busy => completion s
  | .idle => .next s

end Sys2Proof.Machine
end

