-- ==== Sys2Proof/Machine/Step.lean ====
section
/-! DEFINITION. One step of the block: the next event of the schedule (20_memory.md R91, R92, 60_exceptions.md R340).
-/

namespace Sys2Proof.Machine

/-- One atomic step. The next event of the schedule happens; with no event left the sequencer has its turn, so a
command accepted is completed (60_exceptions.md R343) and a block with nothing to do stays as it is. Log 5. -/
def step (s : State) : Host.Outcome State Fault Refusal :=
  match s.schedule with
  | [] => sequencerTurn s
  | .sequencer :: rest => sequencerTurn { s with schedule := rest }
  | .access a :: rest => hostAccess a { s with schedule := rest }
  | .powerOn :: rest => .next (State.powerOnReset { s with schedule := rest })

/-- `s` with the command word of the table's bits accepted (60_exceptions.md R341) and the sequencer's turn next, so
that the very next step completes exactly that command. Log 5. -/
def State.withFetchWord (s : State) (nbits w : Nat) : State :=
  { s.accept (tableWord nbits w) with schedule := .sequencer :: s.schedule }

end Sys2Proof.Machine
end

