-- ==== Sys2Proof/Machine/RunEnd.lean ====
section
/-! DEFINITION. The end of a run of a host program and its observable end state (70_reset_and_hazards.md R388). -/

namespace Sys2Proof.Machine

/-- The host has made its last access: no event to come is one. A power-on reset or a turn of the sequencer may still
come (R388; log 20). -/
def lastAccessMade : List Event → Bool
  | [] => true
  | .access _ :: _ => false
  | .sequencer :: rest => lastAccessMade rest
  | .powerOn :: rest => lastAccessMade rest

/-- A RUN IS OVER: the host has made its last access and the block is IDLE (R388). -/
abbrev RunOver (s : State) : Prop := lastAccessMade s.schedule = true ∧ s.seq = .idle

/-- The run of `events` from s, followed to the first state in which it is over (R388), with a record that `note` keeps
of each event and the state it happens at. A command the last access left BUSY is completed first (60_exceptions.md
R343). None for a run that stops. -/
def followRun {α : Type} (note : α → State → Event → α) : List Event → α → State → Option (α × State)
  | [], a, s =>
    if RunOver { s with schedule := [] } then some (a, { s with schedule := [] })
    else
      match step { s with schedule := [] } with
      | .next t => some (note a s .sequencer, t)
      | .fault _ => none
      | .refused _ => none
  | e :: rest, a, s =>
    if RunOver { s with schedule := e :: rest } then some (a, { s with schedule := e :: rest })
    else
      match step { s with schedule := e :: rest } with
      | .next t => followRun note rest (note a s e) t
      | .fault _ => none
      | .refused _ => none

/-- The state in which the run of a state's own schedule is over (R388). -/
def State.runEnd (s : State) : Option State := (followRun (fun _ _ _ => ()) s.schedule () s).map Prod.snd

/-- THE OBSERVABLE END STATE of a run (R388). -/
structure EndState where
  /-- The register file, each register as the host reads it (10_state.md R32). -/
  registers : List (Reg × Word)
  /-- The buffer, byte 0 first. -/
  buffer : ByteString
  /-- ENC_KEY, for a model only: no host access reads it. -/
  encKey : Key
  /-- MAC_KEY, for a model only: no host access reads it. -/
  macKey : Key
  deriving DecidableEq, Repr

/-- What is observable of a state at the end of a run (R388). -/
def State.endState (s : State) : EndState :=
  { registers := allRegs.map fun r => (r, s.readReg r)
    buffer := s.mem.readBytes 0 s.cfg.memBytes
    encKey := s.encKey
    macKey := s.macKey }

/-- The observable end state of the run of a state's own schedule, none for a run that stops (R388). -/
def State.runOutcome (s : State) : Option EndState := s.runEnd.map State.endState

end Sys2Proof.Machine
end

