-- ==== Sys2Proof/Machine/HostDuties.lean ====
section
/-! DEFINITION. The duties of the host at each command (70_reset_and_hazards.md R387), as properties of a run: the
premises that a claim about a host program takes. The block enforces none of them beyond the refusals of 20_memory.md
R90, and no step depends on what stands here (log 19). -/

namespace Sys2Proof.Machine

/-! ### What a host access does to the block -/

/-- The operand registers (00_scope.md R13). -/
def operandRegs : List Reg := [.srcAddr, .srcLen, .auxAddr, .auxLen, .dstAddr, .ivAddr, .iter]

/-- The operand registers and CMD: the registers a write of which is refused while BUSY (20_memory.md R90). -/
def refusedRegs : List Reg := .cmd :: operandRegs

/-- What a host access reaches (20_memory.md R81 to R85). -/
def Access.target (s : State) : Access → PortTarget
  | .read addr w => s.target addr w
  | .write addr d => s.target addr d.width

/-- The register an event reads at a block, if it is a register read. -/
def State.registerRead (s : State) : Event → Option Reg
  | .access (.read addr w) =>
    match s.target addr w with
    | .reg r => some r
    | .buffer _ => none
    | .error _ => none
  | .access (.write _ _) => none
  | .sequencer => none
  | .powerOn => none

/-- The register an event writes at a block and the value, if it is a register write. -/
def State.registerWrite (s : State) : Event → Option (Reg × Word)
  | .access (.write addr d) =>
    match s.target addr d.width with
    | .reg r => some (r, datumWord d)
    | .buffer _ => none
    | .error _ => none
  | .access (.read _ _) => none
  | .sequencer => none
  | .powerOn => none

/-- The event is a buffer access, read or write. -/
def State.bufferAccess (s : State) : Event → Bool
  | .access a =>
    match Access.target s a with
    | .buffer _ => true
    | .reg _ => false
    | .error _ => false
  | .sequencer => false
  | .powerOn => false

/-- The command word an event hands over for acceptance: the value of a CMD write while IDLE (60_exceptions.md R341).
-/
def State.acceptedWord (s : State) (e : Event) : Option Word :=
  match s.seq, s.registerWrite e with
  | .idle, some (.cmd, v) => some v
  | _, _ => none

/-- The event is an access that the block refuses because BUSY (20_memory.md R90). -/
def State.refuses (s : State) (e : Event) : Bool :=
  s.isBusy && (s.bufferAccess e || (s.registerWrite e).any fun w => refusedRegs.contains w.1)

/-- The event resets the block (70_reset_and_hazards.md R380). -/
def State.resetsAt (s : State) (e : Event) : Bool :=
  e == .powerOn || (s.registerWrite e).any fun w => w.1 == .ctrl && w.2.getLsbD 1

/-- The buffer byte at offset a has a value that the host or a command gave it: it is no unspecified byte of a reset
(70_reset_and_hazards.md R382, R384). -/
def Memory.specified (m : Memory) (a : Nat) : Bool :=
  m.cells.any (fun c => c.1 == a) || (m.fill == .zero && !m.drawn.any fun d => d.1 == a)

/-! ### What the host has done so far -/

/-- The record of a run so far that the duties look back at. -/
structure HostRecord where
  /-- The operand registers written while IDLE since the last reset: they persist across commands (R394). -/
  written : List Reg
  /-- A command has completed and STATUS, with ERR and RESULT, has not been read since. -/
  statusOwed : Bool
  /-- A command has completed and OUT_LEN has not been read since. -/
  outLenOwed : Bool
  /-- The last command accepted since the last reset. -/
  last : Option Decoded
  deriving DecidableEq, Repr

/-- Nothing done yet. -/
def HostRecord.start : HostRecord := { written := [], statusOwed := false, outLenOwed := false, last := none }

/-- The operand register an event writes while IDLE, if it writes one (R394). -/
def State.operandWritten (s : State) (e : Event) : List Reg :=
  match s.seq, s.registerWrite e with
  | .idle, some (r, _) => if operandRegs.contains r then [r] else []
  | _, _ => []

/-- The event is the completion of a command (60_exceptions.md R342). -/
def State.completes (s : State) (e : Event) : Bool := s.isBusy && e == .sequencer

/-- The event reads the register r while IDLE. -/
def State.readsIdle (s : State) (r : Reg) (e : Event) : Bool := !s.isBusy && s.registerRead e == some r

/-- The record after an event e that happens at s: a reset starts it anew; a completion owes the reads of its outcome,
which the reads pay and the next acceptance forfeits. -/
def HostRecord.note (h : HostRecord) (s : State) (e : Event) : HostRecord :=
  if s.resetsAt e then HostRecord.start
  else
    { written := s.operandWritten e ++ h.written
      statusOwed := s.completes e || (h.statusOwed && !s.readsIdle .status e && (s.acceptedWord e).isNone)
      outLenOwed := s.completes e || (h.outLenOwed && !s.readsIdle .outLen e && (s.acceptedWord e).isNone)
      last := ((s.acceptedWord e).map decode).or h.last }

/-! ### The duties at one event -/

/-- Every byte of the regions that i reads has a value (R387, R386 item 4). A byte past the buffer is none: the
command ends with RANGE (20_memory.md R95). -/
def State.readsSpecified (s : State) (i : Instr) : Bool :=
  (readRegions i s).all fun r =>
    (List.range' r.addr (min (r.addr + r.len) s.cfg.memBytes - r.addr)).all fun a => s.mem.specified a

/-- R387, first duty: at its CMD write every operand the command reads has been written while IDLE, and so have the
buffer bytes of its read regions. An illegal word reads none. -/
def operandsDuty (h : HostRecord) (s : State) (e : Event) : Bool :=
  match (s.acceptedWord e).map decode with
  | some (.instr i) => (operandsRead i).all h.written.contains && s.readsSpecified i
  | some (.illegal _) => true
  | none => true

/-- R387, second duty: no CMD, operand or buffer access before BUSY = 0, that is none that R90 refuses (R392). -/
def waitDuty (_ : HostRecord) (s : State) (e : Event) : Bool := !s.refuses e

/-- R387, third duty, for ERR and RESULT: STATUS is read after a completion and before the next CMD write. -/
def statusDuty (h : HostRecord) (s : State) (e : Event) : Bool := (s.acceptedWord e).isNone || !h.statusOwed

/-- R387, third duty, for OUT_LEN: it is read after a completion and before the next CMD write. -/
def outLenDuty (h : HostRecord) (s : State) (e : Event) : Bool := (s.acceptedWord e).isNone || !h.outLenOwed

/-! ### The duties of a run -/

/-- The duty is kept at every event of the run of `events` from s. A run that stops keeps it up to there. -/
def keptAlong (duty : HostRecord → State → Event → Bool) : List Event → HostRecord → State → Bool
  | [], _, _ => true
  | e :: rest, h, s =>
    duty h s e &&
      match step { s with schedule := e :: rest } with
      | .next t => keptAlong duty rest (h.note s e) t
      | .fault _ => true
      | .refused _ => true

/-- The last command of a record is ZEROIZE or ZEROIZE_ALL. -/
def HostRecord.endsWithZeroize (h : HostRecord) : Bool :=
  h.last == some (.instr .zeroize) || h.last == some (.instr .zeroizeAll)

/-- Every byte of the region is zero. -/
def State.wiped (s : State) (r : Region) : Bool := (s.readRegion r).all fun b => b == 0

/-- R387, fourth duty: the run is over, with the host's last command a ZEROIZE or ZEROIZE_ALL. -/
def zeroizeDuty (events : List Event) (h : HostRecord) (s : State) : Bool :=
  (followRun HostRecord.note events h s).any fun e => e.1.endsWithZeroize

/-- R387, fourth duty: the run is over, with every byte of the secrets the host placed in the buffer overwritten with
zeros (44_key_management.md R330). Which regions hold secrets the host alone knows. -/
def wipeDuty (secrets : List Region) (events : List Event) (h : HostRecord) (s : State) : Bool :=
  (followRun HostRecord.note events h s).any fun e => secrets.all e.2.wiped

/-- THE DUTIES OF THE HOST (R387) over one SSK call, the run of the schedule of s, with h what the host has done before
it and `secrets` the regions it places secrets in. A claim about a host program takes those it needs as premises (the
third only where the outcome is needed, 60_exceptions.md R355). -/
structure HostDuties (secrets : List Region) (h : HostRecord) (s : State) : Prop where
  /-- Operands and read regions are written before CMD. -/
  operands : keptAlong operandsDuty s.schedule h s = true
  /-- The host waits for BUSY = 0. -/
  waits : keptAlong waitDuty s.schedule h s = true
  /-- ERR and RESULT are read before the next CMD write. -/
  readsStatus : keptAlong statusDuty s.schedule h s = true
  /-- OUT_LEN is read before the next CMD write. -/
  readsOutLen : keptAlong outLenDuty s.schedule h s = true
  /-- The call ends with ZEROIZE or ZEROIZE_ALL. -/
  zeroizes : zeroizeDuty s.schedule h s = true
  /-- The secrets in the buffer are wiped. -/
  wipes : wipeDuty secrets s.schedule h s = true

end Sys2Proof.Machine
end

