-- ==== Sys2Proof/Machine/HostProgram.lean ====
section
/-! DEFINITION. Host programs in the syntax of 30_encoding.md R138: the events each line stands for. -/

namespace Sys2Proof.Machine

/-- `W <reg>, <value>`, a 32-bit host write (R138). -/
def regWriteEvent (cfg : Platform) (r : Reg) (v : Word) : Event := .access (.write (cfg.base + r.offset) (.word v))

/-- `R <reg>`, a 32-bit host read (R138). -/
def regReadEvent (cfg : Platform) (r : Reg) : Event := .access (.read (cfg.base + r.offset) .w32)

/-- The 8-bit write of `WB` at buffer offset a (R138). -/
def byteWriteEvent (cfg : Platform) (a : Nat) (b : Byte) : Event :=
  .access (.write (cfg.base + Config.bufBase + a) (.byte b))

/-- The 8-bit read of `RB` at buffer offset a (R138). -/
def byteReadEvent (cfg : Platform) (a : Nat) : Event := .access (.read (cfg.base + Config.bufBase + a) .w8)

/-- `WAIT`, on the schedule in which the completion comes before the first poll: the sequencer's turn, then the one
read of STATUS that finds BUSY = 0 (R138, 60_exceptions.md R343; log 5). -/
def waitEvents (cfg : Platform) : List Event := [.sequencer, regReadEvent cfg .status]

/-- The events of a host-program line (R138). -/
def lineEvents (cfg : Platform) : HostLine → List Event
  | .writeReg r v => [regWriteEvent cfg r v]
  | .readReg r => [regReadEvent cfg r]
  | .writeBytes a v => (List.range v.length).map fun k => byteWriteEvent cfg (a + k) (v.getD k 0)
  | .readBytes a n => (List.range n).map fun k => byteReadEvent cfg (a + k)
  | .cmd i => regWriteEvent cfg .cmd (encode i) :: waitEvents cfg
  | .wait => waitEvents cfg
  | .src a n => [regWriteEvent cfg .srcAddr a, regWriteEvent cfg .srcLen n]
  | .aux a n => [regWriteEvent cfg .auxAddr a, regWriteEvent cfg .auxLen n]
  | .dst a => [regWriteEvent cfg .dstAddr a]
  | .iv a => [regWriteEvent cfg .ivAddr a]
  | .iter c => [regWriteEvent cfg .iter c]

/-- The schedule of a host program (R138). -/
def programEvents (cfg : Platform) (lines : List HostLine) : List Event := lines.flatMap (lineEvents cfg)

/-- A state about to run a host program: the program's accesses are its events to come (log 5). -/
def State.withProgram (s : State) (lines : List HostLine) : State := { s with schedule := programEvents s.cfg lines }

end Sys2Proof.Machine
end

