-- ==== Sys2Proof/Safety.lean ====
section
/-! DEFINITION. What counts as a sound state and a safe run: the invariant of the block, the states a number of
steps on, and the frames the claims name. The end of a run (70_reset_and_hazards.md R388) is
Sys2Proof/Machine/RunEnd.lean, the duties of the host (R387) are Sys2Proof/Machine/HostDuties.lean. -/

namespace Sys2Proof.Machine

/-- A key register with its valid flag clear is zero (10_state.md R52). -/
abbrev KeysConsistent (s : State) : Prop :=
  (s.encKeyValid = false → s.encKey = Key.zero) ∧ (s.macKeyValid = false → s.macKey = Key.zero)

/-- While BUSY, DONE, RESULT, ERR and OUT_LEN read 0 (10_state.md R37). -/
abbrev BusyCleared (s : State) : Prop :=
  s.seq = .busy → s.isDone = false ∧ s.result = false ∧ s.err = .noError ∧ s.outLen = 0

/-- An error leaves RESULT, OUT_LEN and AUTH at 0 until the next acceptance (60_exceptions.md R350). -/
abbrev ErrorCleared (s : State) : Prop :=
  s.err ≠ .noError → s.result = false ∧ s.outLen = 0 ∧ s.auth = false

/-- The AUTH latch is set only with a MAC key loaded, and while IDLE only beside RESULT = 1 (10_state.md R41). -/
abbrev AuthConsistent (s : State) : Prop :=
  s.auth = true → s.macKeyValid = true ∧ (s.seq = .idle → s.result = true)

/-- An encryption key is loaded only together with a MAC key (10_state.md R53). -/
abbrev EncWithMac (s : State) : Prop := s.encKeyValid = true → s.macKeyValid = true

/-- The buffer is in canonical form, inside MEM_BYTES, and names only draws already made. -/
abbrev BufferSound (s : State) : Prop :=
  s.mem.wf ∧ s.mem.within s.cfg.memBytes ∧ s.mem.drawnBelow s.draws

/-- THE INVARIANT: the platform parameters are legal, and all the above. -/
structure StateInv (s : State) : Prop where
  platform : s.cfg.wf
  keys : KeysConsistent s
  busy : BusyCleared s
  errors : ErrorCleared s
  latch : AuthConsistent s
  encMac : EncWithMac s
  buffer : BufferSound s
  outLen : s.outLen.toNat ≤ s.cfg.memBytes

/-- No access has been refused because BUSY since the flag was last clear (10_state.md R42): what a state shows of the
second duty of R387, which `HostDuties.waits` states of a run. -/
abbrev NoAccessRefused (s : State) : Prop := s.busyViol = false

/-- The operand registers of t are those of s (70_reset_and_hazards.md R394). -/
abbrev SameOperands (s t : State) : Prop :=
  t.srcAddr = s.srcAddr ∧ t.srcLen = s.srcLen ∧ t.auxAddr = s.auxAddr ∧ t.auxLen = s.auxLen
    ∧ t.dstAddr = s.dstAddr ∧ t.ivAddr = s.ivAddr ∧ t.iter = s.iter

/-- The key registers of t and their flags are those of s. -/
abbrev SameKeys (s t : State) : Prop :=
  t.encKey = s.encKey ∧ t.macKey = s.macKey ∧ t.encKeyValid = s.encKeyValid ∧ t.macKeyValid = s.macKeyValid

/-- CTRL, BUSY_VIOL, CMDL and the model's own fields of t are those of s: what no command touches. -/
abbrev SameControl (s t : State) : Prop :=
  t.cfg = s.cfg ∧ t.cmdl = s.cmdl ∧ t.irqEn = s.irqEn ∧ t.busyViol = s.busyViol ∧ t.draws = s.draws
    ∧ t.schedule = s.schedule ∧ t.resp = s.resp

/-- Every buffer byte of t outside the region reads as in s. -/
abbrev SameBufferOutside (r : Region) (s t : State) : Prop := ∀ a, ¬ r.Has a → t.mem.read a = s.mem.read a

/-- Every buffer byte of t reads as in s. -/
abbrev SameBuffer (s t : State) : Prop := ∀ a, t.mem.read a = s.mem.read a

/-- The record a completion without error leaves: IDLE, DONE, ERR NONE, and RESULT, OUT_LEN and AUTH as given
(60_exceptions.md R349). -/
abbrev EndedWell (result auth : Bool) (outLen : Nat) (t : State) : Prop :=
  t.seq = .idle ∧ t.isDone = true ∧ t.err = .noError ∧ t.result = result ∧ t.auth = auth
    ∧ t.outLen.toNat = outLen

/-- The record a completion with error e leaves (60_exceptions.md R350). -/
abbrev EndedWithError (e : ErrCode) (t : State) : Prop :=
  t.seq = .idle ∧ t.isDone = true ∧ t.err = e ∧ t.result = false ∧ t.auth = false ∧ t.outLen = 0

/-- Whatever i may do on s, it does no more than end with error e (60_exceptions.md R350). -/
abbrev EndsOnlyWithError (i : Instr) (e : ErrCode) (s : State) : Prop :=
  ∃ t, exec i s = .next t ∧ EndedWithError e t ∧ SameKeys s t ∧ SameOperands s t ∧ SameControl s t ∧ t.mem = s.mem

/-- Check 2 of 60_exceptions.md R345 passes: every read and write region of R135 is in range. -/
abbrev RangeOk (i : Instr) (s : State) : Prop :=
  ∀ r ∈ readRegions i s ++ [writeRegion i s], r.InRange s.cfg.memBytes

/-- Check 3 of R345 passes: the write region overlaps no read region; LOADKEYS is exempt (30_encoding.md R135). -/
abbrev OverlapOk (i : Instr) (s : State) : Prop :=
  i = .loadkeys ∨ ∀ r ∈ readRegions i s, ¬ (writeRegion i s).Overlaps r

/-- Check 4 of R345 passes: the key the command uses is valid (30_encoding.md R135). -/
def KeyOk (i : Instr) (s : State) : Prop :=
  match i with
  | .aesenc => s.encKeyValid = true
  | .aesdec => s.encKeyValid = true
  | .hmac => s.macKeyValid = true
  | .hmacverify => s.macKeyValid = true
  | .kdf64 => True
  | .kdf32 => True
  | .loadkeys => True
  | .zeroize => True
  | .zeroizeAll => True
  | .ctcmp => True

/-- Check 5 of R345 passes: AUTH is set for AESDEC. -/
abbrev AuthOk (i : Instr) (s : State) : Prop := i = .aesdec → s.auth = true

/-- Check 6 of R345 passes: the parameter checks. -/
def ParamOk (i : Instr) (s : State) : Prop :=
  match i with
  | .kdf64 => 10000 ≤ s.iter.toNat ∧ 16 ≤ s.auxLen.toNat
  | .kdf32 => 10000 ≤ s.iter.toNat ∧ 16 ≤ s.auxLen.toNat
  | .loadkeys => s.srcLen.toNat = 64
  | .aesdec => s.srcLen.toNat ≠ 0 ∧ s.srcLen.toNat % 16 = 0
  | .zeroize => True
  | .zeroizeAll => True
  | .aesenc => True
  | .hmac => True
  | .hmacverify => True
  | .ctcmp => True

/-- The error of check 6 of R345. -/
def paramError : Instr → ErrCode
  | .kdf64 => .policy
  | .kdf32 => .policy
  | .loadkeys => .length
  | .aesdec => .integrity
  | .zeroize => .noError
  | .zeroizeAll => .noError
  | .aesenc => .noError
  | .hmac => .noError
  | .hmacverify => .noError
  | .ctcmp => .noError

/-- The errors each command can end with (60_exceptions.md R346). -/
def possibleErrors : Instr → List ErrCode
  | .kdf64 => [.range, .policy]
  | .kdf32 => [.range, .policy]
  | .loadkeys => [.range, .length]
  | .zeroize => []
  | .zeroizeAll => []
  | .aesenc => [.range, .overlap, .noKey]
  | .aesdec => [.range, .overlap, .noKey, .notAuth, .integrity]
  | .hmac => [.range, .overlap, .noKey]
  | .hmacverify => [.range, .noKey]
  | .ctcmp => [.range]

/-- The commands that write a key register (10_state.md R53). -/
def writesKeys : Instr → Bool
  | .kdf64 => true
  | .kdf32 => true
  | .loadkeys => true
  | .zeroize => true
  | .zeroizeAll => true
  | .aesenc => false
  | .aesdec => false
  | .hmac => false
  | .hmacverify => false
  | .ctcmp => false

/-- The events that reset the block: power-on, and a host write of CTRL with SRST set (70_reset_and_hazards.md R380). -/
abbrev IsReset (cfg : Platform) (e : Event) : Prop :=
  e = .powerOn ∨ ∃ v : Word, v.getLsbD 1 = true ∧ e = .access (.write (cfg.base + Reg.offset .ctrl) (.word v))

/-- The block answers the access: it is no bus error (20_memory.md R83 to R85). -/
abbrev Answers (s : State) (a : Access) : Prop := ∀ f, hostAccess a s ≠ .fault f

/-- The state n steps on, where no step stops. -/
def afterSteps : Nat → State → Option State
  | 0, s => some s
  | n + 1, s =>
    match step s with
    | .next t => afterSteps n t
    | .fault _ => none
    | .refused _ => none

/-- The host access of a 32-bit write of v to a register. -/
abbrev regWrite (s : State) (r : Reg) (v : Word) : Access := .write (s.cfg.base + r.offset) (.word v)

/-- The host access of a 32-bit read of a register. -/
abbrev regRead (s : State) (r : Reg) : Access := .read (s.cfg.base + r.offset) .w32

/-- The host address of buffer offset a. -/
abbrev bufAddr (s : State) (a : Nat) : Nat := s.cfg.base + Config.bufBase + a

/-- The offset a is a legal one for a buffer access of width w (20_memory.md R85). -/
abbrev BufAccess (s : State) (a : Nat) (w : Width) : Prop := a % w.bytes = 0 ∧ a + w.bytes ≤ s.cfg.memBytes

/-- Every register, flag and key has its reset value (10_state.md R70), but for CMDL, which R70 leaves open. -/
abbrev RegistersReset (t : State) : Prop :=
  t.seq = .idle ∧ t.irqEn = false ∧ t.isDone = false ∧ t.result = false ∧ t.encKeyValid = false
    ∧ t.macKeyValid = false ∧ t.auth = false ∧ t.busyViol = false ∧ t.err = .noError
    ∧ t.srcAddr = 0 ∧ t.srcLen = 0 ∧ t.auxAddr = 0 ∧ t.auxLen = 0 ∧ t.dstAddr = 0 ∧ t.ivAddr = 0
    ∧ t.iter = 0 ∧ t.outLen = 0 ∧ t.encKey.bytes = zeros 32 ∧ t.macKey.bytes = zeros 32

end Sys2Proof.Machine
end

