-- ==== Sys2Proof/Certificates/Slice0/Obligations.lean ====
section
/-! DEFINITION. The statements for the provers. Each docstring says which rule of spec/ it formalises. Unless a
docstring says that a clause is the model's choice, each clause is the rule's. -/

open Sys2Proof Sys2Proof.Machine

/-! ### Encoding (30_encoding.md) -/

/-- R139: the command word of each mnemonic. -/
def Obligations.CommandWordsOfTheMnemonics : Prop :=
  encode .kdf64 = 0x00000001 ∧ encode .kdf32 = 0x00000002 ∧ encode .loadkeys = 0x00000003
    ∧ encode .zeroize = 0x00000004 ∧ encode .zeroizeAll = 0x00000005 ∧ encode .aesenc = 0x00000010
    ∧ encode .aesdec = 0x00000011 ∧ encode .hmac = 0x00000020 ∧ encode .hmacverify = 0x00000021
    ∧ encode .ctcmp = 0x00000030 ∧ ∀ i, encode i = (opcodeOf i).setWidth 32

/-- R131 and R139: decoding the encoded word of a command gives the command. -/
def Obligations.DecodeOfEncode : Prop := ∀ i, decode (encode i) = .instr i

/-- R131: a word decodes to a command exactly when its reserved bits are 0 and its low byte is that command's row of
the opcode map; and only the command's own word does. -/
def Obligations.DecodeReadsExactlyTheTable : Prop :=
  ∀ (v : Word) (i : Instr),
    (decode v = .instr i ↔ v.extractLsb' 8 24 = 0 ∧ v.extractLsb' 0 8 = opcodeOf i)
      ∧ (decode v = .instr i ↔ v = encode i)

/-- R132 and R133: a word is illegal exactly when a reserved bit is set or its opcode is one of those R133 lists. -/
def Obligations.IllegalWordsAreThoseListed : Prop :=
  ∀ v : Word, (∃ w, decode v = .illegal w) ↔
    v.extractLsb' 8 24 ≠ 0 ∨ v.toNat % 256 = 0x00 ∨ (0x06 ≤ v.toNat % 256 ∧ v.toNat % 256 ≤ 0x0F)
      ∨ (0x12 ≤ v.toNat % 256 ∧ v.toNat % 256 ≤ 0x1F) ∨ (0x22 ≤ v.toNat % 256 ∧ v.toNat % 256 ≤ 0x2F)
      ∨ 0x31 ≤ v.toNat % 256

/-- A sanity check of the decoder on words written out from R131 and on the illegal words of the vectors V3.54 to V3.56
of 95_test_vectors.md. -/
def Obligations.SampleWordsDecode : Prop :=
  decode 0x00000001 = .instr .kdf64 ∧ decode 0x00000005 = .instr .zeroizeAll ∧ decode 0x00000011 = .instr .aesdec
    ∧ decode 0x00000021 = .instr .hmacverify ∧ decode 0x00000030 = .instr .ctcmp
    ∧ decode 0x00000000 = .illegal .unassignedOpcode ∧ decode 0x00000110 = .illegal .reservedBits
    ∧ decode 0x80000001 = .illegal .reservedBits

/-! ### The lifecycle of a command (60_exceptions.md) -/

/-- R342: while BUSY the sequencer's turn performs the whole command decoded from CMDL in one step; with nothing else
to come, that turn is the next step. The schedule is the model's own (log 5). -/
def Obligations.StepRunsTheDecodedCommand : Prop :=
  ∀ (s : State) (i : Instr), s.seq = .busy → decode s.cmdl = .instr i →
    (s.schedule = [] → step s = exec i s)
      ∧ ∀ rest, s.schedule = .sequencer :: rest → step s = exec i { s with schedule := rest }

/-- 20_memory.md R91 and R92: a host access next in the schedule is performed as one step, whatever the sequencer
state; an idle block with nothing to come stays as it is. The schedule is the model's own (log 5). -/
def Obligations.StepPerformsTheNextAccess : Prop :=
  ∀ s : State,
    (∀ a rest, s.schedule = .access a :: rest → step s = hostAccess a { s with schedule := rest })
      ∧ (s.seq = .idle → s.schedule = [] → step s = .next s)

/-- R341: a host write of v to CMD while IDLE latches v, goes BUSY, clears DONE, RESULT, ERR and OUT_LEN, and changes
nothing else of the block, whatever v is; while BUSY it is refused. -/
def Obligations.AcceptanceLatchesTheWord : Prop :=
  ∀ (s : State) (v : Word),
    (s.seq = .idle →
      ∃ t, hostAccess (regWrite s .cmd v) s = .next t
        ∧ t.cmdl = v ∧ t.seq = .busy ∧ t.isDone = false ∧ t.result = false ∧ t.err = .noError ∧ t.outLen = 0
        ∧ SameKeys s t ∧ t.auth = s.auth ∧ t.busyViol = s.busyViol ∧ t.irqEn = s.irqEn ∧ SameOperands s t
        ∧ t.mem = s.mem ∧ t.cfg = s.cfg)
      ∧ (s.seq = .busy →
          hostAccess (regWrite s .cmd v) s = .next { s with busyViol := true, resp := .written })

/-- R346 and R350: an illegal command word ends with BAD_CMD and changes nothing else. -/
def Obligations.IllegalWordEndsWithBadCmd : Prop :=
  ∀ (s : State) (w : Illegal), decode s.cmdl = .illegal w →
    ∃ t, completion s = .next t ∧ EndedWithError .badCmd t ∧ SameKeys s t ∧ SameOperands s t ∧ SameControl s t
      ∧ t.mem = s.mem

/-- R343 and 10_state.md R38: a BUSY block always completes, and every completion, with or without error, leaves it
IDLE with DONE set. -/
def Obligations.EveryCompletionEndsIdleAndDone : Prop :=
  ∀ s : State, ∃ t, completion s = .next t ∧ t.seq = .idle ∧ t.isDone = true ∧ t.cmdl = s.cmdl

/-- R345: every command makes its checks in the common order and ends with the first error found, which then is all it
does; with every check passed it ends without error, but for AESDEC, whose bad padding comes last. -/
def Obligations.ChecksAreMadeInTheCommonOrder : Prop :=
  ∀ (i : Instr) (s : State),
    (¬ RangeOk i s → EndsOnlyWithError i .range s)
      ∧ (RangeOk i s → ¬ OverlapOk i s → EndsOnlyWithError i .overlap s)
      ∧ (RangeOk i s → OverlapOk i s → ¬ KeyOk i s → EndsOnlyWithError i .noKey s)
      ∧ (RangeOk i s → OverlapOk i s → KeyOk i s → ¬ AuthOk i s → EndsOnlyWithError i .notAuth s)
      ∧ (RangeOk i s → OverlapOk i s → KeyOk i s → AuthOk i s → ¬ ParamOk i s → EndsOnlyWithError i (paramError i) s)
      ∧ (RangeOk i s → OverlapOk i s → KeyOk i s → AuthOk i s → ParamOk i s →
          ∃ t, exec i s = .next t
            ∧ (t.err = .noError ∨ (i = .aesdec ∧ padOk s.rawPlaintext = false ∧ t.err = .integrity)))

/-- R346: an illegal word ends with BAD_CMD, and no command ends with an error outside its row of the table. -/
def Obligations.ErrorsAreThoseOfTheTable : Prop :=
  ∀ s t : State, completion s = .next t →
    (∀ w, decode s.cmdl = .illegal w → t.err = .badCmd ∧ t.isDone = true ∧ t.auth = false)
      ∧ ∀ i, decode s.cmdl = .instr i → t.err = .noError ∨ t.err ∈ possibleErrors i

/-- R350: a command that ends with an error changes ERR, RESULT, OUT_LEN, AUTH, the sequencer and DONE and nothing
else, except that AESDEC on a padding failure zeroes its output region. -/
def Obligations.AnErrorChangesNothingElse : Prop :=
  ∀ (i : Instr) (s t : State), exec i s = .next t → t.err ≠ .noError →
    EndedWithError t.err t ∧ SameKeys s t ∧ SameOperands s t ∧ SameControl s t
      ∧ (t.mem = s.mem
        ∨ (i = .aesdec ∧ t.err = .integrity ∧ padOk s.rawPlaintext = false
          ∧ (∀ a, (s.dst s.srcLen.toNat).Has a → t.mem.read a = 0)
          ∧ SameBufferOutside (s.dst s.srcLen.toNat) s t))

/-- R349: a command that ends without error leaves the block IDLE with DONE set, and AUTH is 1 exactly for a
HMACVERIFY whose RESULT is 1. -/
def Obligations.CompletionRecordsTheOutcome : Prop :=
  ∀ (i : Instr) (s t : State), exec i s = .next t → t.err = .noError →
    t.seq = .idle ∧ t.isDone = true ∧ t.auth = (i == .hmacverify && t.result)
      ∧ (t.result = true → i = .hmacverify ∨ i = .ctcmp)

/-! ### The KDF family (40_kdf.md) -/

/-- R180: KDF64, whole: its result, and its two errors. -/
def Obligations.Kdf64DerivesBothKeys : Prop :=
  decode 0x00000001 = .instr .kdf64 ∧
  ∀ s : State,
    (s.src.InRange s.cfg.memBytes → s.aux.InRange s.cfg.memBytes → 10000 ≤ s.iter.toNat → 16 ≤ s.auxLen.toNat →
      ∃ t, exec .kdf64 s = .next t
        ∧ t.encKey.bytes ++ t.macKey.bytes
            = pbkdf2 (s.readRegion s.src) (s.readRegion s.aux ++ [0x7C, 0x73, 0x63, 0x73, 0x31, 0x7C]) s.iter.toNat 64
        ∧ t.encKeyValid = true ∧ t.macKeyValid = true ∧ EndedWell false false 0 t
        ∧ SameOperands s t ∧ SameControl s t ∧ t.mem = s.mem)
      ∧ (¬ (s.src.InRange s.cfg.memBytes ∧ s.aux.InRange s.cfg.memBytes) → EndsOnlyWithError .kdf64 .range s)
      ∧ (s.src.InRange s.cfg.memBytes → s.aux.InRange s.cfg.memBytes →
          s.iter.toNat < 10000 ∨ s.auxLen.toNat < 16 → EndsOnlyWithError .kdf64 .policy s)

/-- R181: KDF32, whole: its result, and its two errors. -/
def Obligations.Kdf32DerivesTheSigningKey : Prop :=
  decode 0x00000002 = .instr .kdf32 ∧
  ∀ s : State,
    (s.src.InRange s.cfg.memBytes → s.aux.InRange s.cfg.memBytes → 10000 ≤ s.iter.toNat → 16 ≤ s.auxLen.toNat →
      ∃ t, exec .kdf32 s = .next t
        ∧ t.macKey.bytes
            = pbkdf2 (s.readRegion s.src) (s.readRegion s.aux ++ [0x7C, 0x73, 0x63, 0x73, 0x31, 0x7C]) s.iter.toNat 32
        ∧ t.encKey.bytes = zeros 32 ∧ t.encKeyValid = false ∧ t.macKeyValid = true ∧ EndedWell false false 0 t
        ∧ SameOperands s t ∧ SameControl s t ∧ t.mem = s.mem)
      ∧ (¬ (s.src.InRange s.cfg.memBytes ∧ s.aux.InRange s.cfg.memBytes) → EndsOnlyWithError .kdf32 .range s)
      ∧ (s.src.InRange s.cfg.memBytes → s.aux.InRange s.cfg.memBytes →
          s.iter.toNat < 10000 ∨ s.auxLen.toNat < 16 → EndsOnlyWithError .kdf32 .policy s)

/-- R168 and R169: the blocks T_i by R168's recursion, U_1 = PRF(P, S || be32(i)), U_(j+1) = PRF(P, U_j), T the XOR of
U_1 to U_c for every count c from 1 on; and the two derived lengths in terms of the blocks. For a count of 0, or a block
index of 2^32 or more, which no command has, it speaks of the model's total functions (log 14). -/
def Obligations.DerivedKeyIsMadeOfBlocks : Prop :=
  (∀ (p s : ByteString) (i : Nat), ∃ U T : Nat → ByteString,
    U 1 = hmacSha1 p (s ++ be32 (BitVec.ofNat 32 i)) ∧ (∀ j, 1 ≤ j → U (j + 1) = hmacSha1 p (U j))
      ∧ T 1 = U 1 ∧ (∀ j, 1 ≤ j → T (j + 1) = xorBytes (T j) (U (j + 1)))
      ∧ ∀ c, 1 ≤ c → pbkdf2Block p s c i = T c)
    ∧ ∀ (p s : ByteString) (c : Nat),
        pbkdf2 p s c 64
            = pbkdf2Block p s c 1 ++ pbkdf2Block p s c 2 ++ pbkdf2Block p s c 3 ++ (pbkdf2Block p s c 4).take 4
          ∧ pbkdf2 p s c 32 = pbkdf2Block p s c 1 ++ (pbkdf2Block p s c 2).take 12
          ∧ (pbkdf2 p s c 64).length = 64 ∧ (pbkdf2 p s c 32).length = 32

/-- R170: for the same passphrase, salt and count the 32-byte output is the first 32 bytes of the 64-byte output, and
the MAC_KEY of a KDF32 is the ENC_KEY of a KDF64, in whatever two states the two run. With the KDF64 ended well, the
KDF32 ends well exactly when its own regions are in range (R175, R181). For a count of 0, which no command has, the first clause
speaks of the model's total functions (log 14). -/
def Obligations.ShortDerivationIsAPrefix : Prop :=
  (∀ (p s : ByteString) (c : Nat), pbkdf2 p s c 32 = (pbkdf2 p s c 64).take 32)
    ∧ ∀ s s' t u : State, s'.readRegion s'.src = s.readRegion s.src → s'.readRegion s'.aux = s.readRegion s.aux →
        s'.iter = s.iter → exec .kdf64 s = .next t → exec .kdf32 s' = .next u → t.err = .noError →
        (u.err = .noError ↔ RangeOk .kdf32 s') ∧ (u.err = .noError → u.macKey = t.encKey)

/-- R166: keys that differ only by trailing zero bytes, both at most 64 bytes long, give the same K0 and the same
HMAC; a passphrase longer than 64 bytes stands for its 20-byte SHA-1 hash. -/
def Obligations.TrailingZerosDoNotChangeHmac : Prop :=
  (∀ (key m : ByteString) (z : Nat), key.length + z ≤ 64 →
    hmacKeyBlock sha1 (key ++ zeros z) = hmacKeyBlock sha1 key
      ∧ hmacKeyBlock sha256 (key ++ zeros z) = hmacKeyBlock sha256 key
      ∧ hmacSha1 (key ++ zeros z) m = hmacSha1 key m ∧ hmacSha256 (key ++ zeros z) m = hmacSha256 key m)
    ∧ ∀ key m : ByteString, 64 < key.length →
        (sha1 key).length = 20 ∧ hmacSha1 key m = hmacSha1 (sha1 key) m

/-- R161: the padding of a message has the least k with (len + 1 + k) mod 64 = 56 and whole 64-byte blocks, and ends with
the 64-bit bit length. For a message of 2^61 bytes or more, which no command has, the bit length wraps by the model's
choice (log 14). -/
def Obligations.HashPaddingIsLeast : Prop :=
  ∀ m : ByteString, (m.length + 1 + shaPadZeros m.length) % 64 = 56
    ∧ (∀ k, k < shaPadZeros m.length → (m.length + 1 + k) % 64 ≠ 56) ∧ (shaPad m).length % 64 = 0
    ∧ shaPad m = m ++ [0x80] ++ zeros (shaPadZeros m.length) ++ be64 (BitVec.ofNat 64 (8 * m.length))

/-! ### Key management (44_key_management.md) -/

/-- R311: LOADKEYS, whole: the load with the wipe of the 64 source bytes, and its two errors. -/
def Obligations.LoadkeysLoadsAndWipesTheSource : Prop :=
  decode 0x00000003 = .instr .loadkeys ∧
  ∀ s : State,
    (s.src.InRange s.cfg.memBytes → s.srcLen.toNat = 64 →
      ∃ t, exec .loadkeys s = .next t
        ∧ t.encKey.bytes = (s.readRegion s.src).take 32 ∧ t.macKey.bytes = (s.readRegion s.src).drop 32
        ∧ t.encKeyValid = true ∧ t.macKeyValid = true ∧ EndedWell false false 0 t
        ∧ (∀ a, s.src.Has a → t.mem.read a = 0) ∧ SameBufferOutside s.src s t
        ∧ SameOperands s t ∧ SameControl s t)
      ∧ (¬ s.src.InRange s.cfg.memBytes → EndsOnlyWithError .loadkeys .range s)
      ∧ (s.src.InRange s.cfg.memBytes → s.srcLen.toNat ≠ 64 → EndsOnlyWithError .loadkeys .length s)

/-- R320: ZEROIZE wipes both keys, never fails, and leaves the buffer. -/
def Obligations.ZeroizeWipesBothKeys : Prop :=
  decode 0x00000004 = .instr .zeroize ∧
  ∀ s : State, ∃ t, exec .zeroize s = .next t
    ∧ t.encKey.bytes = zeros 32 ∧ t.macKey.bytes = zeros 32 ∧ t.encKeyValid = false ∧ t.macKeyValid = false
    ∧ EndedWell false false 0 t ∧ t.mem = s.mem ∧ SameOperands s t ∧ SameControl s t

/-- R325: ZEROIZE_ALL wipes both keys and every buffer byte, and never fails. -/
def Obligations.ZeroizeAllWipesTheBuffer : Prop :=
  decode 0x00000005 = .instr .zeroizeAll ∧
  ∀ s : State, ∃ t, exec .zeroizeAll s = .next t
    ∧ t.encKey.bytes = zeros 32 ∧ t.macKey.bytes = zeros 32 ∧ t.encKeyValid = false ∧ t.macKeyValid = false
    ∧ EndedWell false false 0 t ∧ (∀ a, a < s.cfg.memBytes → t.mem.read a = 0)
    ∧ SameOperands s t ∧ SameControl s t

/-! ### The cipher family (41_aes_cbc.md) -/

/-- R203: the S-box is the affine map of the multiplicative inverse, 0 mapping to 0. -/
def Obligations.SboxIsTheAffineMapOfTheInverse : Prop :=
  ∀ x : Byte, ∃ y : Byte, (x = 0 → y = 0) ∧ (x ≠ 0 → gfMul x y = 1)
    ∧ ∀ i, i < 8 → (sbox x).getLsbD i
        = (y.getLsbD i ^^ y.getLsbD ((i + 4) % 8) ^^ y.getLsbD ((i + 5) % 8) ^^ y.getLsbD ((i + 6) % 8)
          ^^ y.getLsbD ((i + 7) % 8) ^^ (0x63 : Byte).getLsbD i)

/-- R204: the inverse S-box undoes the S-box. -/
def Obligations.InverseSboxUndoesSbox : Prop := ∀ x : Byte, invSbox (sbox x) = x

/-- R211: AES_D undoes AES_E for every key and every block. For a key that is not 32 bytes long, which no command has,
it speaks of the model's total function (log 14). -/
def Obligations.AesDecryptionUndoesEncryption : Prop :=
  ∀ key x : ByteString, x.length = 16 → aesD key (aesE key x) = x

/-- R212: the padded plaintext has whole blocks and passes the padding check with the padding length. R213: of the
strings of whole blocks the check accepts exactly those whose last byte p is 1 to 16 and that end in p bytes of value
p. -/
def Obligations.PaddingCheckAcceptsExactlyPaddedStrings : Prop :=
  (∀ m : ByteString, padCount m.length = 16 - m.length % 16 ∧ 1 ≤ padCount m.length ∧ padCount m.length ≤ 16
    ∧ pkcs7Pad m = m ++ List.replicate (padCount m.length) (BitVec.ofNat 8 (padCount m.length))
    ∧ (pkcs7Pad m).length = 16 * (m.length / 16 + 1) ∧ (pkcs7Pad m).take m.length = m
    ∧ padOk (pkcs7Pad m) = true ∧ padByte (pkcs7Pad m) = padCount m.length)
    ∧ ∀ y : ByteString, 16 ≤ y.length → y.length % 16 = 0 →
        y.getLast?.map BitVec.toNat = some (padByte y)
          ∧ (padOk y = true ↔ 1 ≤ padByte y ∧ padByte y ≤ 16
              ∧ y.drop (y.length - padByte y) = List.replicate (padByte y) (BitVec.ofNat 8 (padByte y)))

/-- R215: raw CBC decryption of a CBC encryption gives the padded plaintext. For a key that is not 32 bytes long, which
no command has, it speaks of the model's total functions (log 14). -/
def Obligations.CbcDecryptionUndoesEncryption : Prop :=
  ∀ key iv m : ByteString, iv.length = 16 → cbcDecRaw key iv (cbcEnc key iv m) = pkcs7Pad m

/-- R215: a change d to the IV changes the first plaintext block by exactly d and nothing else. For a key that is not 32
bytes long, which no command has, it speaks of the model's total functions (log 14). -/
def Obligations.IvChangeReachesOnlyTheFirstBlock : Prop :=
  ∀ key iv d c : ByteString, iv.length = 16 → d.length = 16 → c.length % 16 = 0 → c ≠ [] →
    (cbcDecRaw key (xorBytes iv d) c).take 16 = xorBytes ((cbcDecRaw key iv c).take 16) d
      ∧ (cbcDecRaw key (xorBytes iv d) c).drop 16 = (cbcDecRaw key iv c).drop 16

/-- R221: AESENC, whole: its result for every legal MEM_BYTES, and its three errors in order. -/
def Obligations.AesencEncryptsTheSource : Prop :=
  decode 0x00000010 = .instr .aesenc ∧
  ∀ s : State,
    (s.cfg.wf → s.src.InRange s.cfg.memBytes → s.ivRegion.InRange s.cfg.memBytes →
      (s.dst (16 * (s.srcLen.toNat / 16 + 1))).InRange s.cfg.memBytes →
      ¬ (s.dst (16 * (s.srcLen.toNat / 16 + 1))).Overlaps s.src →
      ¬ (s.dst (16 * (s.srcLen.toNat / 16 + 1))).Overlaps s.ivRegion → s.encKeyValid = true →
      ∃ t, exec .aesenc s = .next t
        ∧ t.mem.readBytes s.dstAddr.toNat (16 * (s.srcLen.toNat / 16 + 1))
            = cbcEnc s.encKey.bytes (s.readRegion s.ivRegion) (s.readRegion s.src)
        ∧ SameBufferOutside (s.dst (16 * (s.srcLen.toNat / 16 + 1))) s t
        ∧ EndedWell false false (16 * (s.srcLen.toNat / 16 + 1)) t
        ∧ SameKeys s t ∧ SameOperands s t ∧ SameControl s t)
      ∧ (¬ RangeOk .aesenc s → EndsOnlyWithError .aesenc .range s)
      ∧ (RangeOk .aesenc s → ¬ OverlapOk .aesenc s → EndsOnlyWithError .aesenc .overlap s)
      ∧ (RangeOk .aesenc s → OverlapOk .aesenc s → s.encKeyValid = false → EndsOnlyWithError .aesenc .noKey s)

/-- R230 and R233: an AESDEC whose checks pass and whose padding is right writes the plaintext and p zero bytes, with
OUT_LEN = n - p, and writes nothing else. -/
def Obligations.AesdecDecryptsWhenAuthorised : Prop :=
  ∀ s : State, s.src.InRange s.cfg.memBytes → s.ivRegion.InRange s.cfg.memBytes →
    (s.dst s.srcLen.toNat).InRange s.cfg.memBytes → ¬ (s.dst s.srcLen.toNat).Overlaps s.src →
    ¬ (s.dst s.srcLen.toNat).Overlaps s.ivRegion → s.encKeyValid = true → s.auth = true →
    s.srcLen.toNat ≠ 0 → s.srcLen.toNat % 16 = 0 →
    padOk (cbcDecRaw s.encKey.bytes (s.readRegion s.ivRegion) (s.readRegion s.src)) = true →
    ∃ t, exec .aesdec s = .next t
      ∧ t.mem.readBytes s.dstAddr.toNat s.srcLen.toNat
          = (cbcDecRaw s.encKey.bytes (s.readRegion s.ivRegion) (s.readRegion s.src)).take
              (s.srcLen.toNat - padByte (cbcDecRaw s.encKey.bytes (s.readRegion s.ivRegion) (s.readRegion s.src)))
            ++ zeros (padByte (cbcDecRaw s.encKey.bytes (s.readRegion s.ivRegion) (s.readRegion s.src)))
      ∧ SameBufferOutside (s.dst s.srcLen.toNat) s t
      ∧ EndedWell false false
          (s.srcLen.toNat - padByte (cbcDecRaw s.encKey.bytes (s.readRegion s.ivRegion) (s.readRegion s.src))) t
      ∧ SameKeys s t ∧ SameOperands s t ∧ SameControl s t

/-- R234: on a padding failure AESDEC zeroes the whole output region and ends with INTEGRITY and OUT_LEN 0. -/
def Obligations.BadPaddingZeroesTheOutput : Prop :=
  ∀ s : State, RangeOk .aesdec s → OverlapOk .aesdec s → s.encKeyValid = true → s.auth = true →
    s.srcLen.toNat ≠ 0 → s.srcLen.toNat % 16 = 0 →
    padOk (cbcDecRaw s.encKey.bytes (s.readRegion s.ivRegion) (s.readRegion s.src)) = false →
    ∃ t, exec .aesdec s = .next t ∧ EndedWithError .integrity t
      ∧ t.mem.readBytes s.dstAddr.toNat s.srcLen.toNat = zeros s.srcLen.toNat
      ∧ SameBufferOutside (s.dst s.srcLen.toNat) s t ∧ SameKeys s t ∧ SameOperands s t ∧ SameControl s t

/-- R231: a ciphertext of length 0 or of no multiple of 16 ends AESDEC with INTEGRITY and no buffer write, once the
checks before it passed. -/
def Obligations.CiphertextMustBeWholeBlocks : Prop :=
  ∀ s : State, RangeOk .aesdec s → OverlapOk .aesdec s → s.encKeyValid = true → s.auth = true →
    s.srcLen.toNat = 0 ∨ s.srcLen.toNat % 16 ≠ 0 → EndsOnlyWithError .aesdec .integrity s

/-- R232: with AUTH 0, AESDEC decrypts nothing and writes nothing, whatever its operands, and never ends without
error; with its earlier checks passed the error is NOT_AUTH. -/
def Obligations.AesdecNeedsTheAuthLatch : Prop :=
  ∀ s : State, s.auth = false →
    (∃ t, exec .aesdec s = .next t ∧ t.err ≠ .noError ∧ t.mem = s.mem ∧ SameKeys s t)
      ∧ (RangeOk .aesdec s → OverlapOk .aesdec s → s.encKeyValid = true → EndsOnlyWithError .aesdec .notAuth s)

/-- R221, R230 and R215: what AESENC wrote, an authorised AESDEC with the same key and IV reads back: it ends
without error, its OUT_LEN is the plaintext's length and its output starts with the plaintext. The two states need
share nothing else. -/
def Obligations.AesdecRecoversWhatAesencSealed : Prop :=
  ∀ s t u : State, exec .aesenc s = .next t → t.err = .noError →
    u.encKey = s.encKey → u.encKeyValid = true → u.auth = true →
    u.srcLen.toNat = 16 * (s.srcLen.toNat / 16 + 1) →
    u.readRegion u.src = t.mem.readBytes s.dstAddr.toNat (16 * (s.srcLen.toNat / 16 + 1)) →
    u.readRegion u.ivRegion = s.readRegion s.ivRegion →
    RangeOk .aesdec u → OverlapOk .aesdec u →
    ∃ w, exec .aesdec u = .next w ∧ w.err = .noError ∧ w.outLen = s.srcLen
      ∧ w.mem.readBytes u.dstAddr.toNat s.srcLen.toNat = s.readRegion s.src

/-! ### The MAC family and the comparator (42_hmac_sha256.md, 43_compare.md) -/

/-- R260: HMAC, whole: its result, and its three errors in order. -/
def Obligations.HmacWritesTheTag : Prop :=
  decode 0x00000020 = .instr .hmac ∧
  ∀ s : State,
    (s.src.InRange s.cfg.memBytes → (s.dst 32).InRange s.cfg.memBytes → ¬ (s.dst 32).Overlaps s.src →
      s.macKeyValid = true →
      ∃ t, exec .hmac s = .next t
        ∧ t.mem.readBytes s.dstAddr.toNat 32 = hmacSha256 s.macKey.bytes (s.readRegion s.src)
        ∧ SameBufferOutside (s.dst 32) s t ∧ EndedWell false false 32 t
        ∧ SameKeys s t ∧ SameOperands s t ∧ SameControl s t)
      ∧ (¬ RangeOk .hmac s → EndsOnlyWithError .hmac .range s)
      ∧ (RangeOk .hmac s → ¬ OverlapOk .hmac s → EndsOnlyWithError .hmac .overlap s)
      ∧ (RangeOk .hmac s → OverlapOk .hmac s → s.macKeyValid = false → EndsOnlyWithError .hmac .noKey s)

/-- R270 and R271: HMACVERIFY, whole: RESULT and AUTH are 1 exactly when the expected tag is the 32-byte HMAC of the
data, a mismatch and a tag of another length are no errors, and its two errors come first. -/
def Obligations.HmacverifySetsResultAndAuth : Prop :=
  decode 0x00000021 = .instr .hmacverify ∧
  ∀ s : State,
    (s.src.InRange s.cfg.memBytes → s.aux.InRange s.cfg.memBytes → s.macKeyValid = true →
      ∃ t, exec .hmacverify s = .next t
        ∧ (t.result = true ↔
            s.auxLen.toNat = 32 ∧ s.readRegion s.aux = hmacSha256 s.macKey.bytes (s.readRegion s.src))
        ∧ EndedWell t.result t.result 0 t
        ∧ SameKeys s t ∧ SameOperands s t ∧ SameControl s t ∧ t.mem = s.mem)
      ∧ (¬ RangeOk .hmacverify s → EndsOnlyWithError .hmacverify .range s)
      ∧ (RangeOk .hmacverify s → s.macKeyValid = false → EndsOnlyWithError .hmacverify .noKey s)

/-- R258: with the 32-byte MAC_KEY the HMAC is the construction of R165 over K0 = MAC_KEY || 0^32, and is 32 bytes
long. -/
def Obligations.HmacOfTheBlockKey : Prop :=
  ∀ (k : Key) (m : ByteString),
    hmacSha256 k.bytes m
        = sha256 (xorBytes (k.bytes ++ zeros 32) (List.replicate 64 0x5C)
            ++ sha256 (xorBytes (k.bytes ++ zeros 32) (List.replicate 64 0x36) ++ m))
      ∧ (hmacSha256 k.bytes m).length = 32

/-- R291: CT_EQ is 1 exactly for equal byte strings. -/
def Obligations.ComparatorDecidesEquality : Prop := ∀ a b : ByteString, ctEq a b = true ↔ a = b

/-- R295: CTCMP, whole: RESULT is 1 exactly when the two regions hold the same bytes, AUTH is 0, and its one error. -/
def Obligations.CtcmpComparesTheRegions : Prop :=
  decode 0x00000030 = .instr .ctcmp ∧
  ∀ s : State,
    (s.src.InRange s.cfg.memBytes → s.aux.InRange s.cfg.memBytes →
      ∃ t, exec .ctcmp s = .next t ∧ (t.result = true ↔ s.readRegion s.src = s.readRegion s.aux)
        ∧ EndedWell t.result false 0 t
        ∧ SameKeys s t ∧ SameOperands s t ∧ SameControl s t ∧ t.mem = s.mem)
      ∧ (¬ (s.src.InRange s.cfg.memBytes ∧ s.aux.InRange s.cfg.memBytes) → EndsOnlyWithError .ctcmp .range s)

/-! ### Frames of all commands -/

/-- 30_encoding.md R135, 20_memory.md R98 and 70_reset_and_hazards.md R394: every command leaves the operand registers,
CTRL, BUSY_VIOL and CMDL as they were, and every buffer byte outside its write region. -/
def Obligations.CommandsWriteOnlyTheirRegion : Prop :=
  ∀ (i : Instr) (s t : State), exec i s = .next t →
    SameOperands s t ∧ SameControl s t
      ∧ ∀ a, a < s.cfg.memBytes → ¬ (writeRegion i s).Has a → t.mem.read a = s.mem.read a

/-- 10_state.md R50 and R53: a step changes a key register or a key flag only as the completion, without error, of one
of the five commands of R53, on the sequencer's turn, or as a reset. The schedule is the model's own (log 5). -/
def Obligations.KeysChangeOnlyByTheirWriters : Prop :=
  ∀ s t : State, step s = .next t →
    SameKeys s t
      ∨ (∃ i, s.seq = .busy ∧ decode s.cmdl = .instr i ∧ writesKeys i = true
          ∧ (s.schedule = [] ∨ ∃ rest, s.schedule = .sequencer :: rest)
          ∧ t.seq = .idle ∧ t.isDone = true ∧ t.err = .noError)
      ∨ (∃ e rest, s.schedule = e :: rest ∧ IsReset s.cfg e ∧ t.encKey.bytes = zeros 32 ∧ t.macKey.bytes = zeros 32)

/-- 10_state.md R41: after every completion AUTH is 1 exactly for a HMACVERIFY that ended without error with RESULT 1;
resets clear it; and every step keeps it (acceptance too, so that AESDEC reads the value at its acceptance) but for
completions and resets. -/
def Obligations.AuthLatchIsSetOnlyByAMatchingVerify : Prop :=
  (∀ s t : State, completion s = .next t →
      (t.auth = true ↔ decode s.cmdl = .instr .hmacverify ∧ t.err = .noError ∧ t.result = true))
    ∧ (∀ s : State, s.softReset.auth = false ∧ s.powerOnReset.auth = false)
    ∧ ∀ s t : State, step s = .next t →
        t.auth = s.auth
          ∨ (s.seq = .busy ∧ t.seq = .idle
            ∧ (t.auth = true ↔ decode s.cmdl = .instr .hmacverify ∧ t.err = .noError ∧ t.result = true))
          ∨ (∃ e rest, s.schedule = e :: rest ∧ IsReset s.cfg e ∧ t.auth = false)

/-- 10_state.md R50: no host access reads a key register: on two states that differ only in their keys, it gives the
same fault, or the same answer, the same irq and next states that differ only in their keys. -/
def Obligations.HostAccessNeverShowsAKey : Prop :=
  ∀ (a : Access) (s : State) (k1 k2 : Key),
    (∀ f, hostAccess a s = .fault f ↔ hostAccess a { s with encKey := k1, macKey := k2 } = .fault f)
      ∧ ∀ t, hostAccess a s = .next t →
          ∃ t', hostAccess a { s with encKey := k1, macKey := k2 } = .next t' ∧ t'.resp = t.resp ∧ t'.irq = t.irq
            ∧ { t' with encKey := t.encKey, macKey := t.macKey } = t

/-- 10_state.md R61: CMDL is unobservable while IDLE: two idle states that differ only in CMDL step alike: with the same
fault, or to next states that differ only in CMDL. -/
def Obligations.CommandLatchIsUnobservableWhileIdle : Prop :=
  ∀ (s : State) (v : Word), s.seq = .idle →
    (∀ f, step s = .fault f ↔ step { s with cmdl := v } = .fault f)
      ∧ ∀ t, step s = .next t → ∃ t', step { s with cmdl := v } = .next t' ∧ { t' with cmdl := t.cmdl } = t

/-! ### The host port (10_state.md, 20_memory.md) -/

/-- 10_state.md R33 and R32: the offset of each register, and what a 32-bit read of it gives in any state, with no side
effect (20_memory.md R89). -/
def Obligations.RegisterReadsHaveNoSideEffect : Prop :=
  (Reg.id.offset = 0x000 ∧ Reg.ctrl.offset = 0x004 ∧ Reg.status.offset = 0x008 ∧ Reg.cmd.offset = 0x00C
    ∧ Reg.srcAddr.offset = 0x010 ∧ Reg.srcLen.offset = 0x014 ∧ Reg.auxAddr.offset = 0x018 ∧ Reg.auxLen.offset = 0x01C
    ∧ Reg.dstAddr.offset = 0x020 ∧ Reg.ivAddr.offset = 0x024 ∧ Reg.iter.offset = 0x028 ∧ Reg.outLen.offset = 0x02C)
  ∧ ∀ (s : State) (r : Reg),
    hostAccess (regRead s r) s = .next { s with resp := .data (.word (s.readReg r)) }
      ∧ s.readReg .id = 0x53534B31 ∧ s.readReg .ctrl = s.ctrlWord ∧ s.readReg .status = s.statusWord
      ∧ s.readReg .cmd = 0 ∧ s.readReg .srcAddr = s.srcAddr ∧ s.readReg .srcLen = s.srcLen
      ∧ s.readReg .auxAddr = s.auxAddr ∧ s.readReg .auxLen = s.auxLen ∧ s.readReg .dstAddr = s.dstAddr
      ∧ s.readReg .ivAddr = s.ivAddr ∧ s.readReg .iter = s.iter ∧ s.readReg .outLen = s.outLen

/-- 10_state.md R36: the bits of STATUS; 60_exceptions.md R347: the code of each error in its bits 11:8. -/
def Obligations.StatusBitsAreTheFlags : Prop :=
  (ErrCode.noError.code = 0 ∧ ErrCode.badCmd.code = 1 ∧ ErrCode.range.code = 2 ∧ ErrCode.overlap.code = 3
    ∧ ErrCode.noKey.code = 4 ∧ ErrCode.policy.code = 5 ∧ ErrCode.length.code = 6 ∧ ErrCode.notAuth.code = 7
    ∧ ErrCode.integrity.code = 8)
  ∧ ∀ s : State,
    s.statusWord.getLsbD 0 = (s.seq == .busy) ∧ s.statusWord.getLsbD 1 = s.isDone ∧ s.statusWord.getLsbD 2 = s.result
      ∧ s.statusWord.getLsbD 3 = s.encKeyValid ∧ s.statusWord.getLsbD 4 = s.macKeyValid
      ∧ s.statusWord.getLsbD 5 = s.auth ∧ s.statusWord.getLsbD 6 = s.busyViol ∧ s.statusWord.getLsbD 7 = false
      ∧ s.statusWord.extractLsb' 8 4 = s.err.code ∧ s.statusWord.extractLsb' 12 20 = 0

/-- 10_state.md R44: a write of v to STATUS, IDLE or BUSY, clears DONE by bit 1 and BUSY_VIOL by bit 6 and changes
nothing else. -/
def Obligations.StatusWriteClearsOnlyItsTwoBits : Prop :=
  ∀ (s : State) (v : Word), ∃ t, hostAccess (regWrite s .status v) s = .next t
    ∧ (t.isDone = true ↔ s.isDone = true ∧ v.getLsbD 1 = false)
    ∧ (t.busyViol = true ↔ s.busyViol = true ∧ v.getLsbD 6 = false)
    ∧ { t with isDone := s.isDone, busyViol := s.busyViol, resp := s.resp } = s

/-- 10_state.md R34: a write of v to CTRL, IDLE or BUSY, with v[1] = 0 sets IRQ_EN to v[0] and changes nothing else;
with v[1] = 1 it resets and IRQ_EN ends at 0; CTRL reads IRQ_EN in bit 0 and 0 elsewhere. -/
def Obligations.CtrlWriteEnablesOrResets : Prop :=
  ∀ (s : State) (v : Word),
    (v.getLsbD 1 = false → ∃ t, hostAccess (regWrite s .ctrl v) s = .next t ∧ t.irqEn = v.getLsbD 0
        ∧ { t with irqEn := s.irqEn, resp := s.resp } = s)
      ∧ (v.getLsbD 1 = true → ∃ t, hostAccess (regWrite s .ctrl v) s = .next t ∧ RegistersReset t)
      ∧ (s.readReg .ctrl).toNat = if s.irqEn then 1 else 0

/-- 10_state.md R46 and R47: an operand register written while IDLE holds exactly the value written, no other register
reads differently, and nothing of the block but the operand registers changes. 10_state.md R49 and 20_memory.md R89: a
write to ID or OUT_LEN, IDLE or BUSY, changes nothing and sets no flag. -/
def Obligations.RegisterWritesHoldOrAreIgnored : Prop :=
  (∀ (s : State) (r : Reg) (v : Word), r ∈ operandRegs → s.seq = .idle →
    ∃ t, hostAccess (regWrite s r v) s = .next t ∧ t.readReg r = v
      ∧ (∀ r', r' ≠ r → t.readReg r' = s.readReg r')
      ∧ { t with srcAddr := s.srcAddr, srcLen := s.srcLen, auxAddr := s.auxAddr, auxLen := s.auxLen,
                 dstAddr := s.dstAddr, ivAddr := s.ivAddr, iter := s.iter, resp := s.resp } = s)
    ∧ ∀ (s : State) (v : Word), ∀ r ∈ [Reg.id, Reg.outLen],
        hostAccess (regWrite s r v) s = .next { s with resp := .written }

/-- 20_memory.md R90: accesses while BUSY. A write to CMD or to an operand register, and a legal buffer write, only set
BUSY_VIOL; a legal buffer read returns zeros and sets BUSY_VIOL; register reads and writes to CTRL and STATUS behave as
when IDLE. -/
def Obligations.BusyBlockRefusesAccesses : Prop :=
  ∀ s : State, s.seq = .busy →
    (∀ r ∈ refusedRegs, ∀ v, hostAccess (regWrite s r v) s = .next { s with busyViol := true, resp := .written })
      ∧ (s.cfg.wf → ∀ a d, BufAccess s a d.width →
          hostAccess (.write (bufAddr s a) d) s = .next { s with busyViol := true, resp := .written })
      ∧ (s.cfg.wf → ∀ a w, BufAccess s a w →
          ∃ d, d.width = w ∧ datumWord d = 0
            ∧ hostAccess (.read (bufAddr s a) w) s = .next { s with busyViol := true, resp := .data d })
      ∧ (∀ r, hostAccess (regRead s r) s = .next { s with resp := .data (.word (s.readReg r)) })
      ∧ (∀ v, hostAccess (regWrite s .ctrl v) s = .next { s.writeCtrl v with resp := .written })
      ∧ ∀ v, hostAccess (regWrite s .status v) s = .next { s.writeStatus v with resp := .written }

/-- 20_memory.md R86: the little-endian buffer window. A legal write while IDLE stores bits 8k+7:8k of the value at
a + k and changes nothing else; a legal read returns the value with those bits, and changes nothing. -/
def Obligations.BufferWindowIsLittleEndian : Prop :=
  ∀ (s : State) (a : Nat), s.cfg.wf → s.seq = .idle →
    (∀ d, BufAccess s a d.width →
        ∃ t, hostAccess (.write (bufAddr s a) d) s = .next t
          ∧ (∀ k, k < d.width.bytes → t.mem.read (a + k) = (datumWord d).extractLsb' (8 * k) 8)
          ∧ SameBufferOutside { addr := a, len := d.width.bytes } s t
          ∧ { t with mem := s.mem, resp := s.resp } = s)
      ∧ (∀ w, BufAccess s a w →
          ∃ t d, hostAccess (.read (bufAddr s a) w) s = .next t ∧ t.resp = .data d ∧ d.width = w
            ∧ (∀ k, k < w.bytes → (datumWord d).extractLsb' (8 * k) 8 = s.mem.read (a + k))
            ∧ { t with resp := s.resp } = s)

/-- 20_memory.md R83, R84 and R85: an access at an unmapped offset, a register access of another width or alignment,
and a misaligned buffer access are bus errors: they stop the step, with no next state (treatment fault of
93_implementation_defined.md U7, log 7). That they do so while BUSY too, where R90 would refuse a legal access, is the
model's reading (log 9). -/
def Obligations.IllegalAccessesAreBusErrors : Prop :=
  ∀ (s : State) (off : Nat) (w : Width), s.cfg.wf → off < 0x02000000 →
    ((0x30 ≤ off ∧ off < 0x01000000) ∨ 0x01000000 + s.cfg.memBytes ≤ off →
        hostAccess (.read (s.cfg.base + off) w) s = .fault .busErrorUnmapped
          ∧ ∀ d, hostAccess (.write (s.cfg.base + off) d) s = .fault .busErrorUnmapped)
      ∧ (off < 0x30 → w ≠ .w32 ∨ off % 4 ≠ 0 →
          hostAccess (.read (s.cfg.base + off) w) s = .fault .busErrorRegister
            ∧ ∀ d, d.width = w → hostAccess (.write (s.cfg.base + off) d) s = .fault .busErrorRegister)
      ∧ (0x01000000 ≤ off → off < 0x01000000 + s.cfg.memBytes → off % w.bytes ≠ 0 →
          hostAccess (.read (s.cfg.base + off) w) s = .fault .busErrorBuffer
            ∧ ∀ d, d.width = w → hostAccess (.write (s.cfg.base + off) d) s = .fault .busErrorBuffer)

/-- 10_state.md R63 and 60_exceptions.md R353: irq is the level IRQ_EN AND DONE, so every completion raises it exactly
when enabled, and acceptance and reset lower it. -/
def Obligations.InterruptFollowsDone : Prop :=
  (∀ s : State, s.irq = (s.irqEn && s.isDone))
    ∧ (∀ s t : State, completion s = .next t → t.irq = s.irqEn)
    ∧ ∀ (s : State) (v : Word), (s.accept v).irq = false ∧ s.softReset.irq = false ∧ s.powerOnReset.irq = false

/-! ### Reset (70_reset_and_hazards.md) -/

/-- 10_state.md R70: every register, flag and key of the reset state has the value of the table. That MEM_BYTES, a
parameter of the platform, has its default of 00_scope.md R7 in the reset state is the model's choice (log 1). -/
def Obligations.ResetStateHasTheTableValues : Prop :=
  RegistersReset State.reset ∧ State.reset.irq = false ∧ State.reset.readReg .id = 0x53534B31
    ∧ State.reset.statusWord = 0 ∧ State.reset.ctrlWord = 0 ∧ State.reset.cfg.memBytes = 0x00200000

/-- R381 and R383: a soft reset while IDLE gives every register, flag and key its reset value and leaves the buffer;
a power-on reset gives the same register values from any state. That the power-on is the next event of a schedule
(log 5), and that the rest of the schedule and the field cfg outlive a reset (log 16), are the model's choice. -/
def Obligations.ResetClearsRegistersAndKeys : Prop :=
  (∀ (s : State) (v : Word), v.getLsbD 1 = true → s.seq = .idle →
      ∃ t, hostAccess (regWrite s .ctrl v) s = .next t ∧ RegistersReset t ∧ t.mem = s.mem ∧ t.cfg = s.cfg)
    ∧ ∀ (s : State) (rest : List Event), s.schedule = .powerOn :: rest →
        ∃ t, step s = .next t ∧ RegistersReset t ∧ t.cfg = s.cfg ∧ t.schedule = rest

/-- R384: a soft reset while BUSY abandons the command: DONE stays 0, the keys are zero, and every buffer byte outside
the command's write region keeps its value. Of the bytes inside it nothing is said. -/
def Obligations.ResetAbandonsARunningCommand : Prop :=
  ∀ (s : State) (v : Word), v.getLsbD 1 = true → s.seq = .busy →
    ∃ t, hostAccess (regWrite s .ctrl v) s = .next t ∧ RegistersReset t ∧ t.cfg = s.cfg
      ∧ (∀ i, decode s.cmdl = .instr i →
          ∀ a, a < s.cfg.memBytes → ¬ (writeRegion i s).Has a → t.mem.read a = s.mem.read a)
      ∧ (∀ w, decode s.cmdl = .illegal w → t.mem = s.mem)

/-! ### The invariant -/

/-- The invariant holds at reset. Its clauses are 10_state.md R37, R41, R52, 60_exceptions.md R350 and 00_scope.md R7;
the canonical form of the buffer is the model's own (log 2). -/
def Obligations.InvariantHoldsAtReset : Prop := StateInv State.reset

/-- HEADLINE: every step of every state that meets the invariant leads to a state that meets it: host accesses, all
ten commands, illegal words and both resets (10_state.md R37, R41, R52; the canonical form of the buffer is the
model's own, log 2). -/
def Obligations.EveryStepKeepsTheInvariant : Prop := ∀ s t : State, StateInv s → step s = .next t → StateInv t

/-! ### Progress -/

/-- 60_exceptions.md R343 and R342: a BUSY block whose accesses to come the port answers reaches its completion, or a
reset that comes first, after at most as many steps as the schedule lists; until then only CTRL.IRQ_EN, DONE, BUSY_VIOL
and the answer to the last access may change, and the completion is the next step. The schedule, and that a block with
none left completes, are the model's choice for the fairness of R343 (log 5). -/
def Obligations.BusyBlockReachesItsCompletion : Prop :=
  ∀ s : State, s.seq = .busy → (∀ a, .access a ∈ s.schedule → Answers s a) →
    ∃ n t, n ≤ s.schedule.length ∧ afterSteps n s = some t
      ∧ { t with irqEn := s.irqEn, isDone := s.isDone, busyViol := s.busyViol, schedule := s.schedule, resp := s.resp } = s
      ∧ t.schedule = s.schedule.drop n
      ∧ (((t.schedule = [] ∨ ∃ rest, t.schedule = .sequencer :: rest)
            ∧ ∃ u, step t = .next u ∧ u.seq = .idle ∧ u.isDone = true)
          ∨ ∃ e rest, t.schedule = e :: rest ∧ IsReset s.cfg e ∧ ∃ u, step t = .next u ∧ RegistersReset u)
end

