-- ==== Sys2Proof/Laws/Memory.lean ====
section
/-! SUPPORT. The laws of the buffer: a read after a write, and that every operation keeps the canonical form, the
bounds and the draw numbers. -/

namespace Sys2Proof.Machine

/-! ### Lookups in a list of pairs by address -/

theorem find?_filter_key {β : Type} (l : List (Nat × β)) (p : Nat → Bool) (x : Nat) :
    (l.filter fun c => p c.1).find? (fun c => c.1 == x) = if p x then l.find? (fun c => c.1 == x) else none := by
  induction l with
  | nil => simp
  | cons c rest ih =>
    by_cases hx : c.1 = x
    · subst hx
      by_cases hp : p c.1 <;> simp [hp, ih]
    · by_cases hp : p c.1 <;> simp [hp, hx, ih]

theorem find?_cellsOf_out (known : Option Byte) (v : ByteString) (a x : Nat) (h : ¬ (a ≤ x ∧ x < a + v.length)) :
    (cellsOf known a v).find? (fun c => c.1 == x) = none := by
  induction v generalizing a with
  | nil => simp [cellsOf]
  | cons b rest ih =>
    simp only [List.length_cons] at h
    have hne : ¬ a = x := by omega
    have := ih (a + 1) (by omega)
    unfold cellsOf
    split <;> simp [this, hne]

theorem find?_cellsOf_in (known : Option Byte) (v : ByteString) (a x : Nat) (h : a ≤ x ∧ x < a + v.length) :
    (cellsOf known a v).find? (fun c => c.1 == x)
      = if known = some (v.getD (x - a) 0) then none else some (x, v.getD (x - a) 0) := by
  induction v generalizing a with
  | nil => simp at h; omega
  | cons b rest ih =>
    simp only [List.length_cons] at h
    by_cases hx : a = x
    · subst hx
      have hout := find?_cellsOf_out known rest (a + 1) a (by omega)
      unfold cellsOf
      split
      · rename_i hk
        rw [hout]
        simp [hk]
      · rename_i hk
        simp [hk]
    · have := ih (a + 1) (by omega)
      have hsub : x - a = (x - (a + 1)) + 1 := by omega
      unfold cellsOf
      rw [hsub, List.getD_cons_succ]
      split <;> simp [this, hx]

/-! ### Reads -/

@[simp] theorem Memory.read_zeroed (a : Nat) : Memory.zeroed.read a = 0 := rfl

@[simp] theorem Memory.read_unspecified (k a : Nat) : (Memory.unspecified k).read a = Config.freeByte k a := rfl

/-- A byte read after a write: the written byte inside the region, the old byte outside it. -/
theorem Memory.read_write (m : Memory) (a : Nat) (v : ByteString) (x : Nat) :
    (m.write a v).read x = if a ≤ x ∧ x < a + v.length then v.getD (x - a) 0 else m.read x := by
  have hlo := find?_filter_key m.cells (fun y => decide (y < a)) x
  have hhi := find?_filter_key m.cells (fun y => decide (a + v.length ≤ y)) x
  have dlo := find?_filter_key m.drawn (fun y => decide (y < a)) x
  have dhi := find?_filter_key m.drawn (fun y => decide (a + v.length ≤ y)) x
  by_cases h : a ≤ x ∧ x < a + v.length
  · have h1 : ¬ x < a := by omega
    have h2 : ¬ a + v.length ≤ x := by omega
    simp only [decide_eq_true_eq, h1, h2, if_false] at hlo hhi dlo dhi
    rw [if_pos h]
    unfold Memory.read Memory.write
    simp only [List.find?_append, hlo, hhi, dlo, dhi, find?_cellsOf_in m.fill.known v a x h]
    by_cases hk : m.fill.known = some (v.getD (x - a) 0)
    · rw [if_pos hk]
      simp only [Option.or_none]
      cases hf : m.fill with
      | zero =>
        rw [hf] at hk
        exact Option.some.inj hk
      | drawn k =>
        rw [hf] at hk
        exact absurd hk (by simp [Fill.known])
    · rw [if_neg hk]
      simp
  · rw [if_neg h]
    have hor : x < a ∧ ¬ a + v.length ≤ x ∨ ¬ x < a ∧ a + v.length ≤ x := by omega
    unfold Memory.read Memory.write
    simp only [List.find?_append, hlo, hhi, dlo, dhi, find?_cellsOf_out m.fill.known v a x h]
    rcases hor with ⟨h1, h2⟩ | ⟨h1, h2⟩ <;> simp [h1, h2]

theorem Memory.read_write_inside (m : Memory) (a : Nat) (v : ByteString) (k : Nat) (h : k < v.length) :
    (m.write a v).read (a + k) = v.getD k 0 := by
  rw [Memory.read_write, if_pos (by omega)]
  congr 1
  omega

theorem Memory.read_write_outside (m : Memory) (a : Nat) (v : ByteString) (x : Nat)
    (h : ¬ (a ≤ x ∧ x < a + v.length)) : (m.write a v).read x = m.read x := by
  rw [Memory.read_write, if_neg h]

@[simp] theorem Memory.readBytes_length (m : Memory) (a n : Nat) : (m.readBytes a n).length = n := by
  simp [Memory.readBytes]

@[simp] theorem Memory.readBytes_zero (m : Memory) (a : Nat) : m.readBytes a 0 = [] := rfl

theorem Memory.readBytes_getD (m : Memory) (a n k : Nat) (h : k < n) :
    (m.readBytes a n).getD k 0 = m.read (a + k) := by
  simp [Memory.readBytes, List.getD_eq_getElem?_getD, h]

theorem Memory.readBytes_congr (m m' : Memory) (a n : Nat) (h : ∀ k, k < n → m'.read (a + k) = m.read (a + k)) :
    m'.readBytes a n = m.readBytes a n := by
  unfold Memory.readBytes
  exact List.map_congr_left fun k hk => h k (List.mem_range.mp hk)

/-- The bytes read back from where a string was written are the string. -/
theorem Memory.readBytes_write_same (m : Memory) (a : Nat) (v : ByteString) :
    (m.write a v).readBytes a v.length = v := by
  apply List.ext_getElem (by simp)
  intro k h1 h2
  have := Memory.read_write_inside m a v k h2
  simp_all [Memory.readBytes, List.getD_eq_getElem?_getD]

/-- The bytes of a region that the write does not touch are kept. -/
theorem Memory.readBytes_write_disjoint (m : Memory) (a : Nat) (v : ByteString) (b n : Nat)
    (h : ∀ k, k < n → ¬ (a ≤ b + k ∧ b + k < a + v.length)) : (m.write a v).readBytes b n = m.readBytes b n :=
  Memory.readBytes_congr _ _ _ _ fun k hk => Memory.read_write_outside m a v (b + k) (h k hk)

/-- A byte read after a region became unspecified. -/
theorem Memory.read_scramble (m : Memory) (n : Nat) (r : Region) (k x : Nat) (hx : x < n) :
    (m.scramble n r k).read x = if r.Has x then Config.freeByte k x else m.read x := by
  unfold Memory.scramble
  split
  · rename_i h
    have hin : r.Has x := ⟨by omega, by omega⟩
    rw [if_pos hin, Memory.read_unspecified]
  · simp only
    have hlo := find?_filter_key m.cells (fun y => decide (y < r.addr)) x
    have hhi := find?_filter_key m.cells (fun y => decide (r.addr ≤ y ∧ min (r.addr + r.len) n ≤ y)) x
    have dlo := find?_filter_key m.drawn (fun y => decide (y < r.addr)) x
    have dhi := find?_filter_key m.drawn (fun y => decide (r.addr ≤ y ∧ min (r.addr + r.len) n ≤ y)) x
    have hnew : ((List.range' r.addr (min (r.addr + r.len) n - r.addr)).map fun a => (a, k)).find?
        (fun d => d.1 == x) = if r.Has x then some (x, k) else none := by
      split
      · rename_i h
        have hmem : x ∈ List.range' r.addr (min (r.addr + r.len) n - r.addr) := by
          rw [List.mem_range'_1]; omega
        rw [List.find?_map]
        have : (List.range' r.addr (min (r.addr + r.len) n - r.addr)).find?
            ((fun d : Nat × Nat => d.1 == x) ∘ fun a => (a, k)) = some x := by
          rw [List.find?_eq_some_iff_append]
          refine ⟨by simp, ?_⟩
          obtain ⟨as, bs, hab⟩ := List.append_of_mem hmem
          refine ⟨as, bs, hab, ?_⟩
          intro a ha
          have hnd : (List.range' r.addr (min (r.addr + r.len) n - r.addr)).Nodup := List.nodup_range'
          rw [hab, List.nodup_append] at hnd
          have := hnd.2.2 a ha x (by simp)
          simp [this]
        rw [this]; rfl
      · rename_i h
        rw [List.find?_eq_none]
        intro d hd
        simp only [List.mem_map, List.mem_range'_1] at hd
        obtain ⟨a, ha, rfl⟩ := hd
        simp only [beq_iff_eq]
        intro he
        apply h
        unfold Region.Has
        omega
    unfold Memory.read
    simp only [List.find?_append, hlo, hhi, dlo, dhi, hnew, decide_eq_true_eq]
    by_cases h : r.Has x
    · have h1 : ¬ x < r.addr := by unfold Region.Has at h; omega
      have h2 : ¬ (r.addr ≤ x ∧ min (r.addr + r.len) n ≤ x) := by unfold Region.Has at h; omega
      rw [if_neg h1, if_neg h2, if_neg h1, if_neg h2, if_pos h, if_pos h]
      rfl
    · have hor : x < r.addr ∧ ¬ (r.addr ≤ x ∧ min (r.addr + r.len) n ≤ x)
          ∨ ¬ x < r.addr ∧ (r.addr ≤ x ∧ min (r.addr + r.len) n ≤ x) := by
        unfold Region.Has at h; omega
      rcases hor with ⟨h1, h2⟩ | ⟨h1, h2⟩ <;> simp only [h, h1, h2, if_true, if_false] <;> simp

/-! ### The canonical form -/

theorem cellsOf_mem {known : Option Byte} {v : ByteString} {a : Nat} {c : Host.Cell} (h : c ∈ cellsOf known a v) :
    a ≤ c.1 ∧ c.1 < a + v.length ∧ known ≠ some c.2 := by
  induction v generalizing a with
  | nil => simp [cellsOf] at h
  | cons b rest ih =>
    unfold cellsOf at h
    simp only [List.length_cons]
    split at h
    · have := ih h
      exact ⟨by omega, by omega, this.2.2⟩
    · rename_i hk
      rcases List.mem_cons.mp h with rfl | h
      · exact ⟨Nat.le_refl _, by simp, hk⟩
      · have := ih h
        exact ⟨by omega, by omega, this.2.2⟩

theorem cellsOf_rising (known : Option Byte) (v : ByteString) (a : Nat) :
    ((cellsOf known a v).map Prod.fst).Pairwise (· < ·) := by
  induction v generalizing a with
  | nil => simp [cellsOf]
  | cons b rest ih =>
    unfold cellsOf
    split
    · exact ih (a + 1)
    · simp only [List.map_cons, List.pairwise_cons]
      refine ⟨?_, ih (a + 1)⟩
      intro x hx
      obtain ⟨c, hc, rfl⟩ := List.mem_map.mp hx
      have := cellsOf_mem hc
      omega

theorem rising_filter {β : Type} {l : List (Nat × β)} (h : (l.map Prod.fst).Pairwise (· < ·)) (p : Nat × β → Bool) :
    ((l.filter p).map Prod.fst).Pairwise (· < ·) :=
  h.sublist (List.Sublist.map _ List.filter_sublist)

/-- Three rising lists, each below the next, joined are rising. -/
theorem rising_append {β : Type} {l r : List (Nat × β)} (hl : (l.map Prod.fst).Pairwise (· < ·))
    (hr : (r.map Prod.fst).Pairwise (· < ·)) (h : ∀ c ∈ l, ∀ d ∈ r, c.1 < d.1) :
    ((l ++ r).map Prod.fst).Pairwise (· < ·) := by
  rw [List.map_append, List.pairwise_append]
  refine ⟨hl, hr, ?_⟩
  intro x hx y hy
  obtain ⟨c, hc, rfl⟩ := List.mem_map.mp hx
  obtain ⟨d, hd, rfl⟩ := List.mem_map.mp hy
  exact h c hc d hd

theorem Memory.wf_zeroed : Memory.zeroed.wf := by simp [Memory.wf, Memory.zeroed]

theorem Memory.wf_unspecified (k : Nat) : (Memory.unspecified k).wf := by simp [Memory.wf, Memory.unspecified]

/-- A write keeps the canonical form. -/
theorem Memory.wf_write {m : Memory} (h : m.wf) (a : Nat) (v : ByteString) : (m.write a v).wf := by
  obtain ⟨hc, hd, hdis, hk, hf⟩ := h
  refine ⟨?_, ?_, ?_, ?_, ?_⟩
  · unfold Memory.write
    refine rising_append (rising_append (rising_filter hc _) (cellsOf_rising _ _ _) ?_) (rising_filter hc _) ?_
    · intro c hc' d hd'
      have h1 := (List.mem_filter.mp hc').2
      have h2 := cellsOf_mem hd'
      simp only [decide_eq_true_eq] at h1
      omega
    · intro c hc' d hd'
      have h2 := (List.mem_filter.mp hd').2
      simp only [decide_eq_true_eq] at h2
      rcases List.mem_append.mp hc' with hc' | hc'
      · have h1 := (List.mem_filter.mp hc').2
        simp only [decide_eq_true_eq] at h1
        omega
      · have h1 := cellsOf_mem hc'
        omega
  · unfold Memory.write
    refine rising_append (rising_filter hd _) (rising_filter hd _) ?_
    intro c hc' d hd'
    have h1 := (List.mem_filter.mp hc').2
    have h2 := (List.mem_filter.mp hd').2
    simp only [decide_eq_true_eq] at h1 h2
    omega
  · intro c hc' d hd'
    simp only [Memory.write, List.mem_append, List.mem_filter, decide_eq_true_eq] at hc' hd'
    rcases hc' with (⟨hm, _⟩ | hnew) | ⟨hm, _⟩
    · rcases hd' with ⟨hm', _⟩ | ⟨hm', _⟩ <;> exact hdis c hm d hm'
    · have := cellsOf_mem hnew
      rcases hd' with ⟨_, hx⟩ | ⟨_, hx⟩ <;> omega
    · rcases hd' with ⟨hm', _⟩ | ⟨hm', _⟩ <;> exact hdis c hm d hm'
  · intro c hc'
    simp only [Memory.write, List.mem_append, List.mem_filter] at hc'
    rcases hc' with (⟨hm, _⟩ | hnew) | ⟨hm, _⟩
    · exact hk c hm
    · exact (cellsOf_mem hnew).2.2
    · exact hk c hm
  · intro d hd'
    simp only [Memory.write, List.mem_append, List.mem_filter] at hd'
    rcases hd' with ⟨hm, _⟩ | ⟨hm, _⟩ <;> exact hf d hm

/-- A write inside the buffer keeps every listed address inside it. -/
theorem Memory.within_write {m : Memory} {n : Nat} (h : m.within n) (a : Nat) (v : ByteString)
    (hv : v ≠ [] → a + v.length ≤ n) : (m.write a v).within n := by
  refine ⟨?_, ?_⟩
  · intro c hc
    simp only [Memory.write, List.mem_append, List.mem_filter] at hc
    rcases hc with (⟨hm, _⟩ | hnew) | ⟨hm, _⟩
    · exact h.1 c hm
    · have := cellsOf_mem hnew
      have hne : v ≠ [] := by rintro rfl; simp [cellsOf] at hnew
      have := hv hne
      omega
    · exact h.1 c hm
  · intro d hd
    simp only [Memory.write, List.mem_append, List.mem_filter] at hd
    rcases hd with ⟨hm, _⟩ | ⟨hm, _⟩ <;> exact h.2 d hm

theorem Memory.drawnBelow_write {m : Memory} {n : Nat} (h : m.drawnBelow n) (a : Nat) (v : ByteString) :
    (m.write a v).drawnBelow n := by
  refine ⟨?_, h.2⟩
  intro d hd
  simp only [Memory.write, List.mem_append, List.mem_filter] at hd
  rcases hd with ⟨hm, _⟩ | ⟨hm, _⟩ <;> exact h.1 d hm

theorem range'_pairs_rising (a n k : Nat) :
    (((List.range' a n).map fun x => (x, k)).map Prod.fst).Pairwise (· < ·) := by
  rw [List.map_map]
  have : (Prod.fst ∘ fun x : Nat => (x, k)) = id := rfl
  rw [this, List.map_id]
  exact List.pairwise_lt_range'

/-- A scramble by a fresh draw keeps the canonical form. -/
theorem Memory.wf_scramble {m : Memory} (h : m.wf) (n : Nat) (r : Region) (k : Nat) (hk : m.drawnBelow k) :
    (m.scramble n r k).wf := by
  obtain ⟨hc, hd, hdis, hkn, hf⟩ := h
  unfold Memory.scramble
  split
  · exact Memory.wf_unspecified k
  · refine ⟨?_, ?_, ?_, ?_, ?_⟩
    · refine rising_append (rising_filter hc _) (rising_filter hc _) ?_
      intro c hc' d hd'
      have h1 := (List.mem_filter.mp hc').2
      have h2 := (List.mem_filter.mp hd').2
      simp only [decide_eq_true_eq] at h1 h2
      omega
    · refine rising_append (rising_append (rising_filter hd _) (range'_pairs_rising _ _ _) ?_) (rising_filter hd _) ?_
      · intro c hc' d hd'
        have h1 := (List.mem_filter.mp hc').2
        simp only [List.mem_map, List.mem_range'_1] at hd'
        obtain ⟨x, hx, rfl⟩ := hd'
        simp only [decide_eq_true_eq] at h1 ⊢
        omega
      · intro c hc' d hd'
        have h2 := (List.mem_filter.mp hd').2
        simp only [decide_eq_true_eq] at h2
        rcases List.mem_append.mp hc' with hc' | hc'
        · have h1 := (List.mem_filter.mp hc').2
          simp only [decide_eq_true_eq] at h1
          omega
        · simp only [List.mem_map, List.mem_range'_1] at hc'
          obtain ⟨x, hx, rfl⟩ := hc'
          simp only
          omega
    · intro c hc' d hd'
      simp only [List.mem_append, List.mem_filter, decide_eq_true_eq, List.mem_map, List.mem_range'_1] at hc' hd'
      rcases hd' with (⟨hm', _⟩ | ⟨x, hx, rfl⟩) | ⟨hm', _⟩
      · rcases hc' with ⟨hm, _⟩ | ⟨hm, _⟩ <;> exact hdis c hm d hm'
      · rcases hc' with ⟨_, hb⟩ | ⟨_, hb⟩ <;> (simp only; omega)
      · rcases hc' with ⟨hm, _⟩ | ⟨hm, _⟩ <;> exact hdis c hm d hm'
    · intro c hc'
      simp only [List.mem_append, List.mem_filter] at hc'
      rcases hc' with ⟨hm, _⟩ | ⟨hm, _⟩ <;> exact hkn c hm
    · intro d hd'
      simp only [List.mem_append, List.mem_filter, List.mem_map] at hd'
      rcases hd' with (⟨hm', _⟩ | ⟨x, _, rfl⟩) | ⟨hm', _⟩
      · exact hf d hm'
      · intro he
        have := hk.2 k he
        omega
      · exact hf d hm'

theorem Memory.within_scramble {m : Memory} {n : Nat} (h : m.within n) (r : Region) (k : Nat) :
    (m.scramble n r k).within n := by
  unfold Memory.scramble
  split
  · simp [Memory.within, Memory.unspecified]
  · refine ⟨?_, ?_⟩
    · intro c hc
      simp only [List.mem_append, List.mem_filter] at hc
      rcases hc with ⟨hm, _⟩ | ⟨hm, _⟩ <;> exact h.1 c hm
    · intro d hd
      simp only [List.mem_append, List.mem_filter, List.mem_map, List.mem_range'_1] at hd
      rcases hd with (⟨hm, _⟩ | ⟨x, hx, rfl⟩) | ⟨hm, _⟩
      · exact h.2 d hm
      · simp only; omega
      · exact h.2 d hm

theorem Memory.drawnBelow_scramble {m : Memory} {k : Nat} (h : m.drawnBelow k) (n : Nat) (r : Region) :
    (m.scramble n r k).drawnBelow (k + 1) := by
  unfold Memory.scramble
  split
  · refine ⟨by simp [Memory.unspecified], ?_⟩
    intro j hj
    simp only [Memory.unspecified, Fill.drawn.injEq] at hj
    omega
  · refine ⟨?_, fun j hj => Nat.lt_succ_of_lt (h.2 j hj)⟩
    intro d hd
    simp only [List.mem_append, List.mem_filter, List.mem_map] at hd
    rcases hd with (⟨hm, _⟩ | ⟨x, _, rfl⟩) | ⟨hm, _⟩
    · have := h.1 d hm; omega
    · simp
    · have := h.1 d hm; omega

/-- The buffer at reset is in canonical form, inside MEM_BYTES. -/
theorem reset_mem_wf : State.reset.mem.wf := by simp [Memory.wf, State.reset]

end Sys2Proof.Machine
end

