-- ==== Sys2Proof/Laws/State.lean ====
section
/-! SUPPORT. One lemma per field of State and per update of Machine/Ops.lean, Flags.lean and HostPort.lean, so that no
later proof unfolds a record update. -/

namespace Sys2Proof.Machine

variable (s : State)

/-! ### `accept` -/

@[simp] theorem State.accept_cfg (v : Word) : (s.accept v).cfg = s.cfg := rfl
@[simp] theorem State.accept_seq (v : Word) : (s.accept v).seq = .busy := rfl
@[simp] theorem State.accept_cmdl (v : Word) : (s.accept v).cmdl = v := rfl
@[simp] theorem State.accept_irqEn (v : Word) : (s.accept v).irqEn = s.irqEn := rfl
@[simp] theorem State.accept_isDone (v : Word) : (s.accept v).isDone = false := rfl
@[simp] theorem State.accept_result (v : Word) : (s.accept v).result = false := rfl
@[simp] theorem State.accept_encKeyValid (v : Word) : (s.accept v).encKeyValid = s.encKeyValid := rfl
@[simp] theorem State.accept_macKeyValid (v : Word) : (s.accept v).macKeyValid = s.macKeyValid := rfl
@[simp] theorem State.accept_auth (v : Word) : (s.accept v).auth = s.auth := rfl
@[simp] theorem State.accept_busyViol (v : Word) : (s.accept v).busyViol = s.busyViol := rfl
@[simp] theorem State.accept_err (v : Word) : (s.accept v).err = .noError := rfl
@[simp] theorem State.accept_srcAddr (v : Word) : (s.accept v).srcAddr = s.srcAddr := rfl
@[simp] theorem State.accept_srcLen (v : Word) : (s.accept v).srcLen = s.srcLen := rfl
@[simp] theorem State.accept_auxAddr (v : Word) : (s.accept v).auxAddr = s.auxAddr := rfl
@[simp] theorem State.accept_auxLen (v : Word) : (s.accept v).auxLen = s.auxLen := rfl
@[simp] theorem State.accept_dstAddr (v : Word) : (s.accept v).dstAddr = s.dstAddr := rfl
@[simp] theorem State.accept_ivAddr (v : Word) : (s.accept v).ivAddr = s.ivAddr := rfl
@[simp] theorem State.accept_iter (v : Word) : (s.accept v).iter = s.iter := rfl
@[simp] theorem State.accept_outLen (v : Word) : (s.accept v).outLen = 0 := rfl
@[simp] theorem State.accept_encKey (v : Word) : (s.accept v).encKey = s.encKey := rfl
@[simp] theorem State.accept_macKey (v : Word) : (s.accept v).macKey = s.macKey := rfl
@[simp] theorem State.accept_mem (v : Word) : (s.accept v).mem = s.mem := rfl
@[simp] theorem State.accept_draws (v : Word) : (s.accept v).draws = s.draws := rfl
@[simp] theorem State.accept_schedule (v : Word) : (s.accept v).schedule = s.schedule := rfl
@[simp] theorem State.accept_resp (v : Word) : (s.accept v).resp = s.resp := rfl

/-! ### `complete` -/

@[simp] theorem State.complete_cfg (i : Instr) (r : Bool) (n : Nat) : (s.complete i r n).cfg = s.cfg := rfl
@[simp] theorem State.complete_seq (i : Instr) (r : Bool) (n : Nat) : (s.complete i r n).seq = .idle := rfl
@[simp] theorem State.complete_cmdl (i : Instr) (r : Bool) (n : Nat) : (s.complete i r n).cmdl = s.cmdl := rfl
@[simp] theorem State.complete_irqEn (i : Instr) (r : Bool) (n : Nat) : (s.complete i r n).irqEn = s.irqEn := rfl
@[simp] theorem State.complete_isDone (i : Instr) (r : Bool) (n : Nat) : (s.complete i r n).isDone = true := rfl
@[simp] theorem State.complete_result (i : Instr) (r : Bool) (n : Nat) : (s.complete i r n).result = r := rfl
@[simp] theorem State.complete_encKeyValid (i : Instr) (r : Bool) (n : Nat) : (s.complete i r n).encKeyValid = s.encKeyValid := rfl
@[simp] theorem State.complete_macKeyValid (i : Instr) (r : Bool) (n : Nat) : (s.complete i r n).macKeyValid = s.macKeyValid := rfl
@[simp] theorem State.complete_auth (i : Instr) (r : Bool) (n : Nat) : (s.complete i r n).auth = (i == .hmacverify && r) := rfl
@[simp] theorem State.complete_busyViol (i : Instr) (r : Bool) (n : Nat) : (s.complete i r n).busyViol = s.busyViol := rfl
@[simp] theorem State.complete_err (i : Instr) (r : Bool) (n : Nat) : (s.complete i r n).err = .noError := rfl
@[simp] theorem State.complete_srcAddr (i : Instr) (r : Bool) (n : Nat) : (s.complete i r n).srcAddr = s.srcAddr := rfl
@[simp] theorem State.complete_srcLen (i : Instr) (r : Bool) (n : Nat) : (s.complete i r n).srcLen = s.srcLen := rfl
@[simp] theorem State.complete_auxAddr (i : Instr) (r : Bool) (n : Nat) : (s.complete i r n).auxAddr = s.auxAddr := rfl
@[simp] theorem State.complete_auxLen (i : Instr) (r : Bool) (n : Nat) : (s.complete i r n).auxLen = s.auxLen := rfl
@[simp] theorem State.complete_dstAddr (i : Instr) (r : Bool) (n : Nat) : (s.complete i r n).dstAddr = s.dstAddr := rfl
@[simp] theorem State.complete_ivAddr (i : Instr) (r : Bool) (n : Nat) : (s.complete i r n).ivAddr = s.ivAddr := rfl
@[simp] theorem State.complete_iter (i : Instr) (r : Bool) (n : Nat) : (s.complete i r n).iter = s.iter := rfl
@[simp] theorem State.complete_outLen (i : Instr) (r : Bool) (n : Nat) : (s.complete i r n).outLen = BitVec.ofNat 32 n := rfl
@[simp] theorem State.complete_encKey (i : Instr) (r : Bool) (n : Nat) : (s.complete i r n).encKey = s.encKey := rfl
@[simp] theorem State.complete_macKey (i : Instr) (r : Bool) (n : Nat) : (s.complete i r n).macKey = s.macKey := rfl
@[simp] theorem State.complete_mem (i : Instr) (r : Bool) (n : Nat) : (s.complete i r n).mem = s.mem := rfl
@[simp] theorem State.complete_draws (i : Instr) (r : Bool) (n : Nat) : (s.complete i r n).draws = s.draws := rfl
@[simp] theorem State.complete_schedule (i : Instr) (r : Bool) (n : Nat) : (s.complete i r n).schedule = s.schedule := rfl
@[simp] theorem State.complete_resp (i : Instr) (r : Bool) (n : Nat) : (s.complete i r n).resp = s.resp := rfl

/-! ### `raiseError` -/

@[simp] theorem State.raiseError_cfg (e : ErrCode) : (s.raiseError e).cfg = s.cfg := rfl
@[simp] theorem State.raiseError_seq (e : ErrCode) : (s.raiseError e).seq = .idle := rfl
@[simp] theorem State.raiseError_cmdl (e : ErrCode) : (s.raiseError e).cmdl = s.cmdl := rfl
@[simp] theorem State.raiseError_irqEn (e : ErrCode) : (s.raiseError e).irqEn = s.irqEn := rfl
@[simp] theorem State.raiseError_isDone (e : ErrCode) : (s.raiseError e).isDone = true := rfl
@[simp] theorem State.raiseError_result (e : ErrCode) : (s.raiseError e).result = false := rfl
@[simp] theorem State.raiseError_encKeyValid (e : ErrCode) : (s.raiseError e).encKeyValid = s.encKeyValid := rfl
@[simp] theorem State.raiseError_macKeyValid (e : ErrCode) : (s.raiseError e).macKeyValid = s.macKeyValid := rfl
@[simp] theorem State.raiseError_auth (e : ErrCode) : (s.raiseError e).auth = false := rfl
@[simp] theorem State.raiseError_busyViol (e : ErrCode) : (s.raiseError e).busyViol = s.busyViol := rfl
@[simp] theorem State.raiseError_err (e : ErrCode) : (s.raiseError e).err = e := rfl
@[simp] theorem State.raiseError_srcAddr (e : ErrCode) : (s.raiseError e).srcAddr = s.srcAddr := rfl
@[simp] theorem State.raiseError_srcLen (e : ErrCode) : (s.raiseError e).srcLen = s.srcLen := rfl
@[simp] theorem State.raiseError_auxAddr (e : ErrCode) : (s.raiseError e).auxAddr = s.auxAddr := rfl
@[simp] theorem State.raiseError_auxLen (e : ErrCode) : (s.raiseError e).auxLen = s.auxLen := rfl
@[simp] theorem State.raiseError_dstAddr (e : ErrCode) : (s.raiseError e).dstAddr = s.dstAddr := rfl
@[simp] theorem State.raiseError_ivAddr (e : ErrCode) : (s.raiseError e).ivAddr = s.ivAddr := rfl
@[simp] theorem State.raiseError_iter (e : ErrCode) : (s.raiseError e).iter = s.iter := rfl
@[simp] theorem State.raiseError_outLen (e : ErrCode) : (s.raiseError e).outLen = 0 := rfl
@[simp] theorem State.raiseError_encKey (e : ErrCode) : (s.raiseError e).encKey = s.encKey := rfl
@[simp] theorem State.raiseError_macKey (e : ErrCode) : (s.raiseError e).macKey = s.macKey := rfl
@[simp] theorem State.raiseError_mem (e : ErrCode) : (s.raiseError e).mem = s.mem := rfl
@[simp] theorem State.raiseError_draws (e : ErrCode) : (s.raiseError e).draws = s.draws := rfl
@[simp] theorem State.raiseError_schedule (e : ErrCode) : (s.raiseError e).schedule = s.schedule := rfl
@[simp] theorem State.raiseError_resp (e : ErrCode) : (s.raiseError e).resp = s.resp := rfl

/-! ### `loadBothKeys` -/

@[simp] theorem State.loadBothKeys_cfg (x y : ByteString) : (s.loadBothKeys x y).cfg = s.cfg := rfl
@[simp] theorem State.loadBothKeys_seq (x y : ByteString) : (s.loadBothKeys x y).seq = s.seq := rfl
@[simp] theorem State.loadBothKeys_cmdl (x y : ByteString) : (s.loadBothKeys x y).cmdl = s.cmdl := rfl
@[simp] theorem State.loadBothKeys_irqEn (x y : ByteString) : (s.loadBothKeys x y).irqEn = s.irqEn := rfl
@[simp] theorem State.loadBothKeys_isDone (x y : ByteString) : (s.loadBothKeys x y).isDone = s.isDone := rfl
@[simp] theorem State.loadBothKeys_result (x y : ByteString) : (s.loadBothKeys x y).result = s.result := rfl
@[simp] theorem State.loadBothKeys_encKeyValid (x y : ByteString) : (s.loadBothKeys x y).encKeyValid = true := rfl
@[simp] theorem State.loadBothKeys_macKeyValid (x y : ByteString) : (s.loadBothKeys x y).macKeyValid = true := rfl
@[simp] theorem State.loadBothKeys_auth (x y : ByteString) : (s.loadBothKeys x y).auth = s.auth := rfl
@[simp] theorem State.loadBothKeys_busyViol (x y : ByteString) : (s.loadBothKeys x y).busyViol = s.busyViol := rfl
@[simp] theorem State.loadBothKeys_err (x y : ByteString) : (s.loadBothKeys x y).err = s.err := rfl
@[simp] theorem State.loadBothKeys_srcAddr (x y : ByteString) : (s.loadBothKeys x y).srcAddr = s.srcAddr := rfl
@[simp] theorem State.loadBothKeys_srcLen (x y : ByteString) : (s.loadBothKeys x y).srcLen = s.srcLen := rfl
@[simp] theorem State.loadBothKeys_auxAddr (x y : ByteString) : (s.loadBothKeys x y).auxAddr = s.auxAddr := rfl
@[simp] theorem State.loadBothKeys_auxLen (x y : ByteString) : (s.loadBothKeys x y).auxLen = s.auxLen := rfl
@[simp] theorem State.loadBothKeys_dstAddr (x y : ByteString) : (s.loadBothKeys x y).dstAddr = s.dstAddr := rfl
@[simp] theorem State.loadBothKeys_ivAddr (x y : ByteString) : (s.loadBothKeys x y).ivAddr = s.ivAddr := rfl
@[simp] theorem State.loadBothKeys_iter (x y : ByteString) : (s.loadBothKeys x y).iter = s.iter := rfl
@[simp] theorem State.loadBothKeys_outLen (x y : ByteString) : (s.loadBothKeys x y).outLen = s.outLen := rfl
@[simp] theorem State.loadBothKeys_encKey (x y : ByteString) : (s.loadBothKeys x y).encKey = Key.ofBytes x := rfl
@[simp] theorem State.loadBothKeys_macKey (x y : ByteString) : (s.loadBothKeys x y).macKey = Key.ofBytes y := rfl
@[simp] theorem State.loadBothKeys_mem (x y : ByteString) : (s.loadBothKeys x y).mem = s.mem := rfl
@[simp] theorem State.loadBothKeys_draws (x y : ByteString) : (s.loadBothKeys x y).draws = s.draws := rfl
@[simp] theorem State.loadBothKeys_schedule (x y : ByteString) : (s.loadBothKeys x y).schedule = s.schedule := rfl
@[simp] theorem State.loadBothKeys_resp (x y : ByteString) : (s.loadBothKeys x y).resp = s.resp := rfl

/-! ### `loadMacKey` -/

@[simp] theorem State.loadMacKey_cfg (x : ByteString) : (s.loadMacKey x).cfg = s.cfg := rfl
@[simp] theorem State.loadMacKey_seq (x : ByteString) : (s.loadMacKey x).seq = s.seq := rfl
@[simp] theorem State.loadMacKey_cmdl (x : ByteString) : (s.loadMacKey x).cmdl = s.cmdl := rfl
@[simp] theorem State.loadMacKey_irqEn (x : ByteString) : (s.loadMacKey x).irqEn = s.irqEn := rfl
@[simp] theorem State.loadMacKey_isDone (x : ByteString) : (s.loadMacKey x).isDone = s.isDone := rfl
@[simp] theorem State.loadMacKey_result (x : ByteString) : (s.loadMacKey x).result = s.result := rfl
@[simp] theorem State.loadMacKey_encKeyValid (x : ByteString) : (s.loadMacKey x).encKeyValid = false := rfl
@[simp] theorem State.loadMacKey_macKeyValid (x : ByteString) : (s.loadMacKey x).macKeyValid = true := rfl
@[simp] theorem State.loadMacKey_auth (x : ByteString) : (s.loadMacKey x).auth = s.auth := rfl
@[simp] theorem State.loadMacKey_busyViol (x : ByteString) : (s.loadMacKey x).busyViol = s.busyViol := rfl
@[simp] theorem State.loadMacKey_err (x : ByteString) : (s.loadMacKey x).err = s.err := rfl
@[simp] theorem State.loadMacKey_srcAddr (x : ByteString) : (s.loadMacKey x).srcAddr = s.srcAddr := rfl
@[simp] theorem State.loadMacKey_srcLen (x : ByteString) : (s.loadMacKey x).srcLen = s.srcLen := rfl
@[simp] theorem State.loadMacKey_auxAddr (x : ByteString) : (s.loadMacKey x).auxAddr = s.auxAddr := rfl
@[simp] theorem State.loadMacKey_auxLen (x : ByteString) : (s.loadMacKey x).auxLen = s.auxLen := rfl
@[simp] theorem State.loadMacKey_dstAddr (x : ByteString) : (s.loadMacKey x).dstAddr = s.dstAddr := rfl
@[simp] theorem State.loadMacKey_ivAddr (x : ByteString) : (s.loadMacKey x).ivAddr = s.ivAddr := rfl
@[simp] theorem State.loadMacKey_iter (x : ByteString) : (s.loadMacKey x).iter = s.iter := rfl
@[simp] theorem State.loadMacKey_outLen (x : ByteString) : (s.loadMacKey x).outLen = s.outLen := rfl
@[simp] theorem State.loadMacKey_encKey (x : ByteString) : (s.loadMacKey x).encKey = Key.zero := rfl
@[simp] theorem State.loadMacKey_macKey (x : ByteString) : (s.loadMacKey x).macKey = Key.ofBytes x := rfl
@[simp] theorem State.loadMacKey_mem (x : ByteString) : (s.loadMacKey x).mem = s.mem := rfl
@[simp] theorem State.loadMacKey_draws (x : ByteString) : (s.loadMacKey x).draws = s.draws := rfl
@[simp] theorem State.loadMacKey_schedule (x : ByteString) : (s.loadMacKey x).schedule = s.schedule := rfl
@[simp] theorem State.loadMacKey_resp (x : ByteString) : (s.loadMacKey x).resp = s.resp := rfl

/-! ### `wipeKeys` -/

@[simp] theorem State.wipeKeys_cfg : (s.wipeKeys).cfg = s.cfg := rfl
@[simp] theorem State.wipeKeys_seq : (s.wipeKeys).seq = s.seq := rfl
@[simp] theorem State.wipeKeys_cmdl : (s.wipeKeys).cmdl = s.cmdl := rfl
@[simp] theorem State.wipeKeys_irqEn : (s.wipeKeys).irqEn = s.irqEn := rfl
@[simp] theorem State.wipeKeys_isDone : (s.wipeKeys).isDone = s.isDone := rfl
@[simp] theorem State.wipeKeys_result : (s.wipeKeys).result = s.result := rfl
@[simp] theorem State.wipeKeys_encKeyValid : (s.wipeKeys).encKeyValid = false := rfl
@[simp] theorem State.wipeKeys_macKeyValid : (s.wipeKeys).macKeyValid = false := rfl
@[simp] theorem State.wipeKeys_auth : (s.wipeKeys).auth = s.auth := rfl
@[simp] theorem State.wipeKeys_busyViol : (s.wipeKeys).busyViol = s.busyViol := rfl
@[simp] theorem State.wipeKeys_err : (s.wipeKeys).err = s.err := rfl
@[simp] theorem State.wipeKeys_srcAddr : (s.wipeKeys).srcAddr = s.srcAddr := rfl
@[simp] theorem State.wipeKeys_srcLen : (s.wipeKeys).srcLen = s.srcLen := rfl
@[simp] theorem State.wipeKeys_auxAddr : (s.wipeKeys).auxAddr = s.auxAddr := rfl
@[simp] theorem State.wipeKeys_auxLen : (s.wipeKeys).auxLen = s.auxLen := rfl
@[simp] theorem State.wipeKeys_dstAddr : (s.wipeKeys).dstAddr = s.dstAddr := rfl
@[simp] theorem State.wipeKeys_ivAddr : (s.wipeKeys).ivAddr = s.ivAddr := rfl
@[simp] theorem State.wipeKeys_iter : (s.wipeKeys).iter = s.iter := rfl
@[simp] theorem State.wipeKeys_outLen : (s.wipeKeys).outLen = s.outLen := rfl
@[simp] theorem State.wipeKeys_encKey : (s.wipeKeys).encKey = Key.zero := rfl
@[simp] theorem State.wipeKeys_macKey : (s.wipeKeys).macKey = Key.zero := rfl
@[simp] theorem State.wipeKeys_mem : (s.wipeKeys).mem = s.mem := rfl
@[simp] theorem State.wipeKeys_draws : (s.wipeKeys).draws = s.draws := rfl
@[simp] theorem State.wipeKeys_schedule : (s.wipeKeys).schedule = s.schedule := rfl
@[simp] theorem State.wipeKeys_resp : (s.wipeKeys).resp = s.resp := rfl

/-! ### `writeMem` -/

@[simp] theorem State.writeMem_cfg (a : Nat) (v : ByteString) : (s.writeMem a v).cfg = s.cfg := rfl
@[simp] theorem State.writeMem_seq (a : Nat) (v : ByteString) : (s.writeMem a v).seq = s.seq := rfl
@[simp] theorem State.writeMem_cmdl (a : Nat) (v : ByteString) : (s.writeMem a v).cmdl = s.cmdl := rfl
@[simp] theorem State.writeMem_irqEn (a : Nat) (v : ByteString) : (s.writeMem a v).irqEn = s.irqEn := rfl
@[simp] theorem State.writeMem_isDone (a : Nat) (v : ByteString) : (s.writeMem a v).isDone = s.isDone := rfl
@[simp] theorem State.writeMem_result (a : Nat) (v : ByteString) : (s.writeMem a v).result = s.result := rfl
@[simp] theorem State.writeMem_encKeyValid (a : Nat) (v : ByteString) : (s.writeMem a v).encKeyValid = s.encKeyValid := rfl
@[simp] theorem State.writeMem_macKeyValid (a : Nat) (v : ByteString) : (s.writeMem a v).macKeyValid = s.macKeyValid := rfl
@[simp] theorem State.writeMem_auth (a : Nat) (v : ByteString) : (s.writeMem a v).auth = s.auth := rfl
@[simp] theorem State.writeMem_busyViol (a : Nat) (v : ByteString) : (s.writeMem a v).busyViol = s.busyViol := rfl
@[simp] theorem State.writeMem_err (a : Nat) (v : ByteString) : (s.writeMem a v).err = s.err := rfl
@[simp] theorem State.writeMem_srcAddr (a : Nat) (v : ByteString) : (s.writeMem a v).srcAddr = s.srcAddr := rfl
@[simp] theorem State.writeMem_srcLen (a : Nat) (v : ByteString) : (s.writeMem a v).srcLen = s.srcLen := rfl
@[simp] theorem State.writeMem_auxAddr (a : Nat) (v : ByteString) : (s.writeMem a v).auxAddr = s.auxAddr := rfl
@[simp] theorem State.writeMem_auxLen (a : Nat) (v : ByteString) : (s.writeMem a v).auxLen = s.auxLen := rfl
@[simp] theorem State.writeMem_dstAddr (a : Nat) (v : ByteString) : (s.writeMem a v).dstAddr = s.dstAddr := rfl
@[simp] theorem State.writeMem_ivAddr (a : Nat) (v : ByteString) : (s.writeMem a v).ivAddr = s.ivAddr := rfl
@[simp] theorem State.writeMem_iter (a : Nat) (v : ByteString) : (s.writeMem a v).iter = s.iter := rfl
@[simp] theorem State.writeMem_outLen (a : Nat) (v : ByteString) : (s.writeMem a v).outLen = s.outLen := rfl
@[simp] theorem State.writeMem_encKey (a : Nat) (v : ByteString) : (s.writeMem a v).encKey = s.encKey := rfl
@[simp] theorem State.writeMem_macKey (a : Nat) (v : ByteString) : (s.writeMem a v).macKey = s.macKey := rfl
@[simp] theorem State.writeMem_mem (a : Nat) (v : ByteString) : (s.writeMem a v).mem = s.mem.write a v := rfl
@[simp] theorem State.writeMem_draws (a : Nat) (v : ByteString) : (s.writeMem a v).draws = s.draws := rfl
@[simp] theorem State.writeMem_schedule (a : Nat) (v : ByteString) : (s.writeMem a v).schedule = s.schedule := rfl
@[simp] theorem State.writeMem_resp (a : Nat) (v : ByteString) : (s.writeMem a v).resp = s.resp := rfl

/-! ### `writeStatus` -/

@[simp] theorem State.writeStatus_cfg (v : Word) : (s.writeStatus v).cfg = s.cfg := rfl
@[simp] theorem State.writeStatus_seq (v : Word) : (s.writeStatus v).seq = s.seq := rfl
@[simp] theorem State.writeStatus_cmdl (v : Word) : (s.writeStatus v).cmdl = s.cmdl := rfl
@[simp] theorem State.writeStatus_irqEn (v : Word) : (s.writeStatus v).irqEn = s.irqEn := rfl
@[simp] theorem State.writeStatus_isDone (v : Word) : (s.writeStatus v).isDone = (s.isDone && !v.getLsbD 1) := rfl
@[simp] theorem State.writeStatus_result (v : Word) : (s.writeStatus v).result = s.result := rfl
@[simp] theorem State.writeStatus_encKeyValid (v : Word) : (s.writeStatus v).encKeyValid = s.encKeyValid := rfl
@[simp] theorem State.writeStatus_macKeyValid (v : Word) : (s.writeStatus v).macKeyValid = s.macKeyValid := rfl
@[simp] theorem State.writeStatus_auth (v : Word) : (s.writeStatus v).auth = s.auth := rfl
@[simp] theorem State.writeStatus_busyViol (v : Word) : (s.writeStatus v).busyViol = (s.busyViol && !v.getLsbD 6) := rfl
@[simp] theorem State.writeStatus_err (v : Word) : (s.writeStatus v).err = s.err := rfl
@[simp] theorem State.writeStatus_srcAddr (v : Word) : (s.writeStatus v).srcAddr = s.srcAddr := rfl
@[simp] theorem State.writeStatus_srcLen (v : Word) : (s.writeStatus v).srcLen = s.srcLen := rfl
@[simp] theorem State.writeStatus_auxAddr (v : Word) : (s.writeStatus v).auxAddr = s.auxAddr := rfl
@[simp] theorem State.writeStatus_auxLen (v : Word) : (s.writeStatus v).auxLen = s.auxLen := rfl
@[simp] theorem State.writeStatus_dstAddr (v : Word) : (s.writeStatus v).dstAddr = s.dstAddr := rfl
@[simp] theorem State.writeStatus_ivAddr (v : Word) : (s.writeStatus v).ivAddr = s.ivAddr := rfl
@[simp] theorem State.writeStatus_iter (v : Word) : (s.writeStatus v).iter = s.iter := rfl
@[simp] theorem State.writeStatus_outLen (v : Word) : (s.writeStatus v).outLen = s.outLen := rfl
@[simp] theorem State.writeStatus_encKey (v : Word) : (s.writeStatus v).encKey = s.encKey := rfl
@[simp] theorem State.writeStatus_macKey (v : Word) : (s.writeStatus v).macKey = s.macKey := rfl
@[simp] theorem State.writeStatus_mem (v : Word) : (s.writeStatus v).mem = s.mem := rfl
@[simp] theorem State.writeStatus_draws (v : Word) : (s.writeStatus v).draws = s.draws := rfl
@[simp] theorem State.writeStatus_schedule (v : Word) : (s.writeStatus v).schedule = s.schedule := rfl
@[simp] theorem State.writeStatus_resp (v : Word) : (s.writeStatus v).resp = s.resp := rfl

/-! ### `refuseAccess` -/

@[simp] theorem State.refuseAccess_cfg : (s.refuseAccess).cfg = s.cfg := rfl
@[simp] theorem State.refuseAccess_seq : (s.refuseAccess).seq = s.seq := rfl
@[simp] theorem State.refuseAccess_cmdl : (s.refuseAccess).cmdl = s.cmdl := rfl
@[simp] theorem State.refuseAccess_irqEn : (s.refuseAccess).irqEn = s.irqEn := rfl
@[simp] theorem State.refuseAccess_isDone : (s.refuseAccess).isDone = s.isDone := rfl
@[simp] theorem State.refuseAccess_result : (s.refuseAccess).result = s.result := rfl
@[simp] theorem State.refuseAccess_encKeyValid : (s.refuseAccess).encKeyValid = s.encKeyValid := rfl
@[simp] theorem State.refuseAccess_macKeyValid : (s.refuseAccess).macKeyValid = s.macKeyValid := rfl
@[simp] theorem State.refuseAccess_auth : (s.refuseAccess).auth = s.auth := rfl
@[simp] theorem State.refuseAccess_busyViol : (s.refuseAccess).busyViol = true := rfl
@[simp] theorem State.refuseAccess_err : (s.refuseAccess).err = s.err := rfl
@[simp] theorem State.refuseAccess_srcAddr : (s.refuseAccess).srcAddr = s.srcAddr := rfl
@[simp] theorem State.refuseAccess_srcLen : (s.refuseAccess).srcLen = s.srcLen := rfl
@[simp] theorem State.refuseAccess_auxAddr : (s.refuseAccess).auxAddr = s.auxAddr := rfl
@[simp] theorem State.refuseAccess_auxLen : (s.refuseAccess).auxLen = s.auxLen := rfl
@[simp] theorem State.refuseAccess_dstAddr : (s.refuseAccess).dstAddr = s.dstAddr := rfl
@[simp] theorem State.refuseAccess_ivAddr : (s.refuseAccess).ivAddr = s.ivAddr := rfl
@[simp] theorem State.refuseAccess_iter : (s.refuseAccess).iter = s.iter := rfl
@[simp] theorem State.refuseAccess_outLen : (s.refuseAccess).outLen = s.outLen := rfl
@[simp] theorem State.refuseAccess_encKey : (s.refuseAccess).encKey = s.encKey := rfl
@[simp] theorem State.refuseAccess_macKey : (s.refuseAccess).macKey = s.macKey := rfl
@[simp] theorem State.refuseAccess_mem : (s.refuseAccess).mem = s.mem := rfl
@[simp] theorem State.refuseAccess_draws : (s.refuseAccess).draws = s.draws := rfl
@[simp] theorem State.refuseAccess_schedule : (s.refuseAccess).schedule = s.schedule := rfl
@[simp] theorem State.refuseAccess_resp : (s.refuseAccess).resp = s.resp := rfl

/-! ### `softReset` -/

@[simp] theorem State.softReset_cfg : (s.softReset).cfg = s.cfg := rfl
@[simp] theorem State.softReset_seq : (s.softReset).seq = .idle := rfl
@[simp] theorem State.softReset_cmdl : (s.softReset).cmdl = 0 := rfl
@[simp] theorem State.softReset_irqEn : (s.softReset).irqEn = false := rfl
@[simp] theorem State.softReset_isDone : (s.softReset).isDone = false := rfl
@[simp] theorem State.softReset_result : (s.softReset).result = false := rfl
@[simp] theorem State.softReset_encKeyValid : (s.softReset).encKeyValid = false := rfl
@[simp] theorem State.softReset_macKeyValid : (s.softReset).macKeyValid = false := rfl
@[simp] theorem State.softReset_auth : (s.softReset).auth = false := rfl
@[simp] theorem State.softReset_busyViol : (s.softReset).busyViol = false := rfl
@[simp] theorem State.softReset_err : (s.softReset).err = .noError := rfl
@[simp] theorem State.softReset_srcAddr : (s.softReset).srcAddr = 0 := rfl
@[simp] theorem State.softReset_srcLen : (s.softReset).srcLen = 0 := rfl
@[simp] theorem State.softReset_auxAddr : (s.softReset).auxAddr = 0 := rfl
@[simp] theorem State.softReset_auxLen : (s.softReset).auxLen = 0 := rfl
@[simp] theorem State.softReset_dstAddr : (s.softReset).dstAddr = 0 := rfl
@[simp] theorem State.softReset_ivAddr : (s.softReset).ivAddr = 0 := rfl
@[simp] theorem State.softReset_iter : (s.softReset).iter = 0 := rfl
@[simp] theorem State.softReset_outLen : (s.softReset).outLen = 0 := rfl
@[simp] theorem State.softReset_encKey : (s.softReset).encKey = Key.zero := rfl
@[simp] theorem State.softReset_macKey : (s.softReset).macKey = Key.zero := rfl
@[simp] theorem State.softReset_mem : (s.softReset).mem = s.memAfterSoftReset := rfl
@[simp] theorem State.softReset_draws : (s.softReset).draws = s.draws + 1 := rfl
@[simp] theorem State.softReset_schedule : (s.softReset).schedule = s.schedule := rfl
@[simp] theorem State.softReset_resp : (s.softReset).resp = s.resp := rfl

/-! ### `powerOnReset` -/

@[simp] theorem State.powerOnReset_cfg : (s.powerOnReset).cfg = s.cfg := rfl
@[simp] theorem State.powerOnReset_seq : (s.powerOnReset).seq = .idle := rfl
@[simp] theorem State.powerOnReset_cmdl : (s.powerOnReset).cmdl = 0 := rfl
@[simp] theorem State.powerOnReset_irqEn : (s.powerOnReset).irqEn = false := rfl
@[simp] theorem State.powerOnReset_isDone : (s.powerOnReset).isDone = false := rfl
@[simp] theorem State.powerOnReset_result : (s.powerOnReset).result = false := rfl
@[simp] theorem State.powerOnReset_encKeyValid : (s.powerOnReset).encKeyValid = false := rfl
@[simp] theorem State.powerOnReset_macKeyValid : (s.powerOnReset).macKeyValid = false := rfl
@[simp] theorem State.powerOnReset_auth : (s.powerOnReset).auth = false := rfl
@[simp] theorem State.powerOnReset_busyViol : (s.powerOnReset).busyViol = false := rfl
@[simp] theorem State.powerOnReset_err : (s.powerOnReset).err = .noError := rfl
@[simp] theorem State.powerOnReset_srcAddr : (s.powerOnReset).srcAddr = 0 := rfl
@[simp] theorem State.powerOnReset_srcLen : (s.powerOnReset).srcLen = 0 := rfl
@[simp] theorem State.powerOnReset_auxAddr : (s.powerOnReset).auxAddr = 0 := rfl
@[simp] theorem State.powerOnReset_auxLen : (s.powerOnReset).auxLen = 0 := rfl
@[simp] theorem State.powerOnReset_dstAddr : (s.powerOnReset).dstAddr = 0 := rfl
@[simp] theorem State.powerOnReset_ivAddr : (s.powerOnReset).ivAddr = 0 := rfl
@[simp] theorem State.powerOnReset_iter : (s.powerOnReset).iter = 0 := rfl
@[simp] theorem State.powerOnReset_outLen : (s.powerOnReset).outLen = 0 := rfl
@[simp] theorem State.powerOnReset_encKey : (s.powerOnReset).encKey = Key.zero := rfl
@[simp] theorem State.powerOnReset_macKey : (s.powerOnReset).macKey = Key.zero := rfl
@[simp] theorem State.powerOnReset_mem : (s.powerOnReset).mem = Memory.unspecified s.draws := rfl
@[simp] theorem State.powerOnReset_draws : (s.powerOnReset).draws = s.draws + 1 := rfl
@[simp] theorem State.powerOnReset_schedule : (s.powerOnReset).schedule = s.schedule := rfl
@[simp] theorem State.powerOnReset_resp : (s.powerOnReset).resp = .none := rfl

end Sys2Proof.Machine
end

