-- ==== Sys2Proof/Laws/Ops.lean ====
section
/-! SUPPORT. What each shared operation can do, said once: checks, guarded commands, regions, key registers, reset and
the step. -/

namespace Sys2Proof.Machine

/-! ### Checks -/

@[simp] theorem firstError_nil : firstError [] = none := rfl

@[simp] theorem firstError_cons (c : Check) (rest : List Check) :
    firstError (c :: rest) = if c.fails then some c.code else firstError rest := rfl

/-- No check raises an error exactly when none fails. -/
theorem firstError_eq_none (cs : List Check) : firstError cs = none ↔ ∀ c ∈ cs, c.fails = false := by
  induction cs with
  | nil => simp
  | cons c rest ih =>
    cases hc : c.fails <;> simp [hc, ih]

@[simp] theorem State.rangeCheck_code (s : State) (rs : List Region) : (s.rangeCheck rs).code = .range := rfl

@[simp] theorem overlapCheck_code (o : Region) (rs : List Region) : (overlapCheck o rs).code = .overlap := rfl

@[simp] theorem State.encKeyCheck_code (s : State) : s.encKeyCheck.code = .noKey := rfl

@[simp] theorem State.encKeyCheck_fails (s : State) : s.encKeyCheck.fails = !s.encKeyValid := rfl

@[simp] theorem State.macKeyCheck_code (s : State) : s.macKeyCheck.code = .noKey := rfl

@[simp] theorem State.macKeyCheck_fails (s : State) : s.macKeyCheck.fails = !s.macKeyValid := rfl

/-- The range check fails exactly when a region is out of range. -/
theorem State.rangeCheck_fails (s : State) (rs : List Region) :
    (s.rangeCheck rs).fails = true ↔ ∃ r ∈ rs, ¬ r.InRange s.cfg.memBytes := by
  simp [State.rangeCheck]

/-- The range check passes exactly when every region is in range. -/
theorem State.rangeCheck_passes (s : State) (rs : List Region) :
    (s.rangeCheck rs).fails = false ↔ ∀ r ∈ rs, r.InRange s.cfg.memBytes := by
  rw [← Bool.not_eq_true, State.rangeCheck_fails]
  push Not
  rfl

/-- The overlap check fails exactly when a read region overlaps the write region. -/
theorem overlapCheck_fails (o : Region) (rs : List Region) :
    (overlapCheck o rs).fails = true ↔ ∃ r ∈ rs, o.Overlaps r := by
  simp [overlapCheck]

/-- The overlap check passes exactly when no read region overlaps the write region. -/
theorem overlapCheck_passes (o : Region) (rs : List Region) :
    (overlapCheck o rs).fails = false ↔ ∀ r ∈ rs, ¬ o.Overlaps r := by
  rw [← Bool.not_eq_true, overlapCheck_fails]
  push Not
  rfl

/-! ### Guarded commands -/

/-- A guarded command goes on to its effect when no check fails. -/
theorem State.guarded_ok {s : State} {cs : List Check} {ok : Unit → State} (h : firstError cs = none) :
    s.guarded cs ok = .next (ok ()) := by
  simp [State.guarded, h]

/-- A guarded command ends with the first error. -/
theorem State.guarded_error {s : State} {cs : List Check} {ok : Unit → State} {e : ErrCode}
    (h : firstError cs = some e) : s.guarded cs ok = .next (s.raiseError e) := by
  simp [State.guarded, h]

/-- All a guarded command can do: end with an error of its checks, or its effect. -/
theorem State.guarded_cases {s t : State} {cs : List Check} {ok : Unit → State} (h : s.guarded cs ok = .next t) :
    (∃ e, firstError cs = some e ∧ t = s.raiseError e) ∨ (firstError cs = none ∧ t = ok ()) := by
  unfold State.guarded at h
  split at h
  · rename_i e he
    exact .inl ⟨e, he, (Host.Outcome.next.inj h).symm⟩
  · rename_i hn
    exact .inr ⟨hn, (Host.Outcome.next.inj h).symm⟩

/-- An error is never the code NONE where no check carries it. -/
theorem firstError_mem {cs : List Check} {e : ErrCode} (h : firstError cs = some e) :
    ∃ c ∈ cs, c.fails = true ∧ c.code = e := by
  induction cs with
  | nil => simp at h
  | cons c rest ih =>
    rw [firstError_cons] at h
    split at h
    · rename_i hc
      exact ⟨c, by simp, hc, Option.some.inj h⟩
    · obtain ⟨d, hd, hf⟩ := ih h
      exact ⟨d, by simp [hd], hf⟩

/-! ### Regions and the state's buffer -/

@[simp] theorem State.readRegion_length (s : State) (r : Region) : (s.readRegion r).length = r.len := by
  simp [State.readRegion]

@[simp] theorem State.ivRegion_len (s : State) : s.ivRegion.len = 16 := rfl

@[simp] theorem State.ivRegion_addr (s : State) : s.ivRegion.addr = s.ivAddr.toNat := rfl

@[simp] theorem State.src_len (s : State) : s.src.len = s.srcLen.toNat := rfl

@[simp] theorem State.src_addr (s : State) : s.src.addr = s.srcAddr.toNat := rfl

@[simp] theorem State.aux_len (s : State) : s.aux.len = s.auxLen.toNat := rfl

@[simp] theorem State.aux_addr (s : State) : s.aux.addr = s.auxAddr.toNat := rfl

@[simp] theorem State.dst_len (s : State) (n : Nat) : (s.dst n).len = n := rfl

@[simp] theorem State.dst_addr (s : State) (n : Nat) : (s.dst n).addr = s.dstAddr.toNat := rfl

/-- A byte that a command reads after a write elsewhere is the old one. -/
theorem State.readRegion_writeMem_disjoint (s : State) (a : Nat) (v : ByteString) (r : Region)
    (h : ¬ Region.Overlaps { addr := a, len := v.length } r) : (s.writeMem a v).readRegion r = s.readRegion r := by
  unfold State.readRegion
  rw [State.writeMem_mem]
  apply Memory.readBytes_write_disjoint
  intro k hk hin
  exact h ⟨by simp only; omega, by omega, by simp only; omega, by simp only; omega⟩

/-! ### Key registers -/

@[simp] theorem zeros_length (n : Nat) : (zeros n).length = n := by simp [zeros]

@[simp] theorem Key.bytes_length (k : Key) : k.bytes.length = 32 := by simp [Key.bytes]

/-- A 32-byte string loaded into a key register is what the register holds. -/
theorem Key.bytes_ofBytes (v : ByteString) (h : v.length = 32) : (Key.ofBytes v).bytes = v := by
  simp [Key.bytes, Key.ofBytes, Vector.toList, h]

@[simp] theorem Key.bytes_zero : Key.zero.bytes = zeros 32 := by
  simp [Key.bytes, Key.zero, zeros]

/-! ### Reset -/

/-- Every register after a soft reset is that of the reset state. -/
theorem State.softReset_eq (s : State) :
    s.softReset = { State.reset with cfg := s.cfg, mem := s.memAfterSoftReset, draws := s.draws + 1,
                                     schedule := s.schedule, resp := s.resp } := rfl

/-- The buffer after a soft reset of an idle block is the old one. -/
theorem State.memAfterSoftReset_idle {s : State} (h : s.seq = .idle) : s.memAfterSoftReset = s.mem := by
  simp [State.memAfterSoftReset, h]

/-- The buffer after a soft reset that abandons the command i. -/
theorem State.memAfterSoftReset_busy {s : State} {i : Instr} (h : s.seq = .busy) (hd : decode s.cmdl = .instr i) :
    s.memAfterSoftReset = s.mem.scramble s.cfg.memBytes (writeRegion i s) s.draws := by
  simp [State.memAfterSoftReset, h, hd]

/-- The buffer after a soft reset that abandons an illegal word is the old one. -/
theorem State.memAfterSoftReset_illegal {s : State} {w : Illegal} (hd : decode s.cmdl = .illegal w) :
    s.memAfterSoftReset = s.mem := by
  cases h : s.seq <;> simp [State.memAfterSoftReset, h, hd]

/-- All the buffer can be after a soft reset. -/
theorem State.memAfterSoftReset_cases (s : State) :
    s.memAfterSoftReset = s.mem
      ∨ ∃ i, s.seq = .busy ∧ decode s.cmdl = .instr i
        ∧ s.memAfterSoftReset = s.mem.scramble s.cfg.memBytes (writeRegion i s) s.draws := by
  cases h : s.seq with
  | idle => exact .inl (State.memAfterSoftReset_idle h)
  | busy =>
    cases hd : decode s.cmdl with
    | illegal w => exact .inl (State.memAfterSoftReset_illegal hd)
    | instr i => exact .inr ⟨i, rfl, rfl, State.memAfterSoftReset_busy h hd⟩

/-! ### The step -/

/-- All a completion can be: the command decoded from CMDL, or BAD_CMD. -/
theorem completion_cases {s t : State} (h : completion s = .next t) :
    (∃ i, decode s.cmdl = .instr i ∧ exec i s = .next t)
      ∨ (∃ w, decode s.cmdl = .illegal w ∧ t = s.raiseError .badCmd) := by
  unfold completion at h
  split at h
  · rename_i i hi
    exact .inl ⟨i, hi, h⟩
  · rename_i w hw
    exact .inr ⟨w, hw, (Host.Outcome.next.inj h).symm⟩

/-- All the sequencer's turn can be: a completion while BUSY, nothing while IDLE. -/
theorem sequencerTurn_cases {s t : State} (h : sequencerTurn s = .next t) :
    (s.seq = .busy ∧ completion s = .next t) ∨ (s.seq = .idle ∧ t = s) := by
  unfold sequencerTurn at h
  split at h
  · rename_i hb
    exact .inl ⟨hb, h⟩
  · rename_i hi
    exact .inr ⟨hi, (Host.Outcome.next.inj h).symm⟩

/-- All a host read can do: the response changes, and BUSY_VIOL when the read is refused. -/
theorem hostRead_cases {s t : State} {addr : Nat} {w : Width} (h : hostRead s addr w = .next t) :
    (∃ r, s.target addr w = .reg r ∧ t = { s with resp := .data (.word (s.readReg r)) })
      ∨ (∃ a, s.target addr w = .buffer a ∧ s.isBusy = true
          ∧ t = { s.refuseAccess with resp := .data (datumZero w) })
      ∨ (∃ a, s.target addr w = .buffer a ∧ s.isBusy = false
          ∧ t = { s with resp := .data (s.mem.readDatum a w) }) := by
  unfold hostRead at h
  split at h
  · cases h
  · rename_i r hr
    exact .inl ⟨r, hr, (Host.Outcome.next.inj h).symm⟩
  · rename_i a ha
    split at h
    · rename_i hb
      exact .inr (.inl ⟨a, ha, hb, (Host.Outcome.next.inj h).symm⟩)
    · rename_i hb
      exact .inr (.inr ⟨a, ha, by simpa using hb, (Host.Outcome.next.inj h).symm⟩)

/-- All a host write can do: a register write, a refused or an accepted buffer write. -/
theorem hostWrite_cases {s t : State} {addr : Nat} {d : Datum} (h : hostWrite s addr d = .next t) :
    (∃ r, s.target addr d.width = .reg r ∧ t = { s.writeReg r (datumWord d) with resp := .written })
      ∨ (∃ a, s.target addr d.width = .buffer a ∧ s.isBusy = true ∧ t = { s.refuseAccess with resp := .written })
      ∨ (∃ a, s.target addr d.width = .buffer a ∧ s.isBusy = false
          ∧ t = { s.writeMem a (datumBytes d) with resp := .written }) := by
  unfold hostWrite at h
  split at h
  · cases h
  · rename_i r hr
    exact .inl ⟨r, hr, (Host.Outcome.next.inj h).symm⟩
  · rename_i a ha
    split at h
    · rename_i hb
      exact .inr (.inl ⟨a, ha, hb, (Host.Outcome.next.inj h).symm⟩)
    · rename_i hb
      exact .inr (.inr ⟨a, ha, by simpa using hb, (Host.Outcome.next.inj h).symm⟩)

/-- A write to CTRL with SRST set is a soft reset. -/
theorem State.writeCtrl_reset {s : State} {v : Word} (h : v.getLsbD 1 = true) : s.writeCtrl v = s.softReset := by
  unfold State.writeCtrl
  rw [if_pos h]

/-- A write to CTRL with SRST clear sets IRQ_EN. -/
theorem State.writeCtrl_enable {s : State} {v : Word} (h : v.getLsbD 1 = false) :
    s.writeCtrl v = { s with irqEn := v.getLsbD 0 } := by
  unfold State.writeCtrl
  rw [if_neg (by rw [h]; decide)]

/-- All a register write can do: acceptance, a soft reset, IRQ_EN, the W1C bits, an operand, a refusal, or nothing. -/
theorem writeReg_cases (s : State) (r : Reg) (v : Word) :
    (r = .cmd ∧ s.isBusy = false ∧ s.writeReg r v = s.accept v)
      ∨ (r = .ctrl ∧ v.getLsbD 1 = true ∧ s.writeReg r v = s.softReset)
      ∨ (r = .ctrl ∧ v.getLsbD 1 = false ∧ s.writeReg r v = { s with irqEn := v.getLsbD 0 })
      ∨ (r = .status ∧ s.writeReg r v = s.writeStatus v)
      ∨ (s.isBusy = false ∧ s.writeReg r v = s.setOperand r v)
      ∨ (s.isBusy = true ∧ s.writeReg r v = s.refuseAccess)
      ∨ s.writeReg r v = s := by
  by_cases hc : r = .ctrl
  · subst hc
    cases hv : v.getLsbD 1
    · exact .inr (.inr (.inl ⟨rfl, rfl, State.writeCtrl_enable hv⟩))
    · exact .inr (.inl ⟨rfl, rfl, State.writeCtrl_reset hv⟩)
  · cases r <;> cases hb : s.isBusy <;> simp_all [State.writeReg]

/-- All a step can be, by the next event of the schedule. -/
theorem step_cases {s t : State} (h : step s = .next t) :
    (∃ rest, (s.schedule = [] ∧ rest = [] ∨ s.schedule = .sequencer :: rest)
        ∧ sequencerTurn { s with schedule := rest } = .next t)
      ∨ (∃ a rest, s.schedule = .access a :: rest ∧ hostAccess a { s with schedule := rest } = .next t)
      ∨ (∃ rest, s.schedule = .powerOn :: rest ∧ t = State.powerOnReset { s with schedule := rest }) := by
  unfold step at h
  split at h
  · rename_i hs
    refine .inl ⟨[], .inl ⟨hs, rfl⟩, ?_⟩
    have : { s with schedule := [] } = s := by rw [← hs]
    rw [this]
    exact h
  · rename_i rest hs
    exact .inl ⟨rest, .inr hs, h⟩
  · rename_i a rest hs
    exact .inr (.inl ⟨a, rest, hs, h⟩)
  · rename_i rest hs
    exact .inr (.inr ⟨rest, hs, (Host.Outcome.next.inj h).symm⟩)

end Sys2Proof.Machine
end

