-- ==== Sys2Proof/Laws/Lengths.lean ====
section
/-! SUPPORT. The lengths of what the algorithms give: hashes, tags, derived keys, AES blocks, CBC and PKCS7 strings. -/

namespace Sys2Proof.Machine

/-! ### Byte strings -/

@[simp] theorem be32_length (v : Word) : (be32 v).length = 4 := rfl

@[simp] theorem be64_length (v : BitVec 64) : (be64 v).length = 8 := rfl

@[simp] theorem xorBytes_length (a b : ByteString) : (xorBytes a b).length = min a.length b.length := by
  simp [xorBytes]

/-- The padded message is a whole number of 64-byte blocks. -/
theorem shaPad_length (m : ByteString) : (shaPad m).length = m.length + 1 + shaPadZeros m.length + 8 := by
  simp [shaPad]
  omega

theorem shaPad_length_mod (m : ByteString) : (shaPad m).length % 64 = 0 := by
  rw [shaPad_length]
  unfold shaPadZeros
  omega

/-! ### Hashes, HMAC and PBKDF2 -/

@[simp] theorem sha1_length (m : ByteString) : (sha1 m).length = 20 := by simp [sha1, Sha1Words.bytes]

@[simp] theorem sha256_length (m : ByteString) : (sha256 m).length = 32 := by simp [sha256, Sha256Words.bytes]

@[simp] theorem hmacSha1_length (k m : ByteString) : (hmacSha1 k m).length = 20 := by simp [hmacSha1, hmacWith]

@[simp] theorem hmacSha256_length (k m : ByteString) : (hmacSha256 k m).length = 32 := by
  simp [hmacSha256, hmacWith]

theorem pbkdf2Iterate_length (p : ByteString) (n : Nat) (u t : ByteString) (h : t.length = 20) :
    (pbkdf2Iterate p n u t).length = 20 := by
  induction n generalizing u t with
  | zero => exact h
  | succ n ih => exact ih _ _ (by simp [h])

@[simp] theorem pbkdf2Block_length (p s : ByteString) (c i : Nat) : (pbkdf2Block p s c i).length = 20 :=
  pbkdf2Iterate_length p _ _ _ (by simp)

/-- The derived key has the length asked for. -/
@[simp] theorem pbkdf2_length (p s : ByteString) (c n : Nat) : (pbkdf2 p s c n).length = n := by
  simp only [pbkdf2, List.length_take, List.length_flatMap, pbkdf2Block_length]
  simp
  omega

@[simp] theorem deriveKey_length (p s : ByteString) (c n : Nat) : (deriveKey p s c n).length = n := by
  simp [deriveKey]

@[simp] theorem State.derivedKey_length (s : State) (n : Nat) : (s.derivedKey n).length = n := by
  simp [State.derivedKey]

@[simp] theorem State.tag_length (s : State) : s.tag.length = 32 := by simp [State.tag]

/-! ### AES -/

@[simp] theorem aesState_length (f : Nat → Nat → Byte) : (aesState f).length = 16 := by simp [aesState]

/-- An entry of a state built from its entries. -/
theorem aesCell_aesState (f : Nat → Nat → Byte) (r c : Nat) (hr : r < 4) (hc : c < 4) :
    aesCell (aesState f) r c = f r c := by
  have h1 : (r + 4 * c) % 4 = r := by omega
  have h2 : (r + 4 * c) / 4 = c := by omega
  have h3 : r + 4 * c < 16 := by omega
  simp [aesCell, aesState, List.getD_eq_getElem?_getD, h1, h2, h3]

@[simp] theorem subBytes_length (s : ByteString) : (subBytes s).length = s.length := by simp [subBytes]

@[simp] theorem invSubBytes_length (s : ByteString) : (invSubBytes s).length = s.length := by simp [invSubBytes]

@[simp] theorem shiftRows_length (s : ByteString) : (shiftRows s).length = 16 := by simp [shiftRows]

@[simp] theorem invShiftRows_length (s : ByteString) : (invShiftRows s).length = 16 := by simp [invShiftRows]

@[simp] theorem mixColumns_length (s : ByteString) : (mixColumns s).length = 16 := by
  simp [mixColumns, mixWith]

@[simp] theorem invMixColumns_length (s : ByteString) : (invMixColumns s).length = 16 := by
  simp [invMixColumns, mixWith]

@[simp] theorem addRoundKey_length (w : List ByteString) (rd : Nat) (s : ByteString) :
    (addRoundKey w rd s).length = 16 := by simp [addRoundKey]

@[simp] theorem aesEncryptBlock_length (w : List ByteString) (x : ByteString) :
    (aesEncryptBlock w x).length = 16 := by simp [aesEncryptBlock]

@[simp] theorem aesDecryptBlock_length (w : List ByteString) (y : ByteString) :
    (aesDecryptBlock w y).length = 16 := by simp [aesDecryptBlock]

@[simp] theorem aesE_length (k x : ByteString) : (aesE k x).length = 16 := by simp [aesE]

@[simp] theorem aesD_length (k y : ByteString) : (aesD k y).length = 16 := by simp [aesD]

/-! ### PKCS7 and CBC -/

@[simp] theorem pkcs7Pad_length (m : ByteString) : (pkcs7Pad m).length = paddedLen m.length := by
  simp [pkcs7Pad, padCount, paddedLen]
  omega

@[simp] theorem cbcEncBlocks_length (w : List ByteString) (n : Nat) (prev x : ByteString) :
    (cbcEncBlocks w n prev x).length = 16 * n := by
  induction n generalizing prev x with
  | zero => rfl
  | succ n ih =>
    simp only [cbcEncBlocks, List.length_append, aesEncryptBlock_length, ih]
    omega

theorem cbcDecBlocks_length (w : List ByteString) (n : Nat) (prev c : ByteString) (hp : prev.length = 16)
    (hc : 16 * n ≤ c.length) : (cbcDecBlocks w n prev c).length = 16 * n := by
  induction n generalizing prev c with
  | zero => rfl
  | succ n ih =>
    simp only [cbcDecBlocks, List.length_append, xorBytes_length, aesDecryptBlock_length, hp]
    rw [ih (c.take 16) (c.drop 16) (by simp; omega) (by simp; omega)]
    omega

/-- The ciphertext has the length of the padded plaintext. -/
@[simp] theorem cbcEnc_length (k iv m : ByteString) : (cbcEnc k iv m).length = paddedLen m.length := by
  simp [cbcEnc, paddedLen]

/-- The raw plaintext has the length of a ciphertext of whole blocks. -/
theorem cbcDecRaw_length (k iv c : ByteString) (hiv : iv.length = 16) (hc : c.length % 16 = 0) :
    (cbcDecRaw k iv c).length = c.length := by
  unfold cbcDecRaw
  rw [cbcDecBlocks_length _ _ _ _ hiv (by omega)]
  omega

end Sys2Proof.Machine
end

