-- ==== Sys2Proof/Laws/Exec.lean ====
section
/-! SUPPORT. What a command can do, said once for all ten: it ends with an error of its row, or AESDEC wipes its output
and ends with INTEGRITY, or it succeeds within its frame. -/

namespace Sys2Proof.Machine

/-- The command i succeeds from s to t by way of the state `body`, which holds its key and buffer writes. -/
structure CommandSuccess (i : Instr) (s t body : State) (result : Bool) (outLen : Nat) : Prop where
  ended : t = body.complete i result outLen
  range : RangeOk i s
  operands : SameOperands s body
  control : SameControl s body
  keys : writesKeys i = false → SameKeys s body
  newKeys : writesKeys i = true → KeysConsistent body ∧ EncWithMac body
  buffer : body.mem = s.mem
    ∨ (∃ v : ByteString, v.length = (writeRegion i s).len ∧ body.mem = s.mem.write (writeRegion i s).addr v)
    ∨ (i = .zeroizeAll ∧ body.mem = Memory.zeroed)
  answer : result = true → i = .hmacverify ∨ i = .ctcmp
  verified : i = .hmacverify → s.macKeyValid = true
  outLenLe : outLen ≤ s.cfg.memBytes

/-- All a command can do. -/
def CommandOutcome (i : Instr) (s t : State) : Prop :=
  (∃ e ∈ possibleErrors i, t = s.raiseError e)
    ∨ (i = .aesdec ∧ RangeOk i s ∧ padOk s.rawPlaintext = false
      ∧ t = (s.writeMem s.dstAddr.toNat (zeros s.srcLen.toNat)).raiseError .integrity)
    ∨ ∃ body result outLen, CommandSuccess i s t body result outLen

/-- What passing the range check of a list of regions says. -/
theorem inRange_of_firstError {s : State} {rs : List Region} {cs : List Check}
    (h : firstError (s.rangeCheck rs :: cs) = none) : ∀ r ∈ rs, r.InRange s.cfg.memBytes :=
  (State.rangeCheck_passes s rs).mp ((firstError_eq_none _).mp h _ (by simp))

theorem execKdf64_outcome {s t : State} (h : execKdf64 s = .next t) : CommandOutcome .kdf64 s t := by
  rcases State.guarded_cases h with ⟨e, he, rfl⟩ | ⟨hn, rfl⟩
  · refine .inl ⟨e, ?_, rfl⟩
    simp only [firstError_cons, firstError_nil] at he
    split at he <;> simp_all [possibleErrors, State.policyCheck]
  · refine .inr (.inr ⟨_, _, _, rfl, ?_,
      ⟨rfl, rfl, rfl, rfl, rfl, rfl, rfl⟩, ⟨rfl, rfl, rfl, rfl, rfl, rfl, rfl⟩,
      ?_, ?_, .inl rfl, ?_, ?_, Nat.zero_le _⟩)
    · simpa [RangeOk, readRegions, writeRegion] using inRange_of_firstError hn
    all_goals simp [SameKeys, KeysConsistent, writesKeys, State.loadBothKeys]

theorem execKdf32_outcome {s t : State} (h : execKdf32 s = .next t) : CommandOutcome .kdf32 s t := by
  rcases State.guarded_cases h with ⟨e, he, rfl⟩ | ⟨hn, rfl⟩
  · refine .inl ⟨e, ?_, rfl⟩
    simp only [firstError_cons, firstError_nil] at he
    split at he <;> simp_all [possibleErrors, State.policyCheck]
  · refine .inr (.inr ⟨_, _, _, rfl, ?_,
      ⟨rfl, rfl, rfl, rfl, rfl, rfl, rfl⟩, ⟨rfl, rfl, rfl, rfl, rfl, rfl, rfl⟩,
      ?_, ?_, .inl rfl, ?_, ?_, Nat.zero_le _⟩)
    · simpa [RangeOk, readRegions, writeRegion] using inRange_of_firstError hn
    all_goals simp [SameKeys, KeysConsistent, writesKeys, State.loadMacKey]

theorem execLoadkeys_outcome {s t : State} (h : execLoadkeys s = .next t) : CommandOutcome .loadkeys s t := by
  rcases State.guarded_cases h with ⟨e, he, rfl⟩ | ⟨hn, rfl⟩
  · refine .inl ⟨e, ?_, rfl⟩
    simp only [firstError_cons, firstError_nil] at he
    split at he <;> simp_all [possibleErrors, State.sessionLengthCheck]
  · have hl := (firstError_eq_none _).mp hn s.sessionLengthCheck (by simp)
    simp only [State.sessionLengthCheck, decide_eq_false_iff_not, not_not] at hl
    refine .inr (.inr ⟨_, _, _, rfl, ?_,
        ⟨rfl, rfl, rfl, rfl, rfl, rfl, rfl⟩, ⟨rfl, rfl, rfl, rfl, rfl, rfl, rfl⟩,
        ?_, ?_, .inr (.inl ⟨_, ?_, rfl⟩), ?_, ?_, Nat.zero_le _⟩)
    · simpa [RangeOk, readRegions, writeRegion] using inRange_of_firstError hn
    all_goals simp [SameKeys, KeysConsistent, writesKeys, State.loadBothKeys, writeRegion, hl]

theorem execZeroize_outcome {s t : State} (h : execZeroize s = .next t) : CommandOutcome .zeroize s t := by
  cases h
  refine .inr (.inr ⟨_, _, _, rfl, ?_,
      ⟨rfl, rfl, rfl, rfl, rfl, rfl, rfl⟩, ⟨rfl, rfl, rfl, rfl, rfl, rfl, rfl⟩,
      ?_, ?_, .inl rfl, ?_, ?_, Nat.zero_le _⟩)
  all_goals simp [RangeOk, readRegions, writeRegion, KeysConsistent, writesKeys, State.wipeKeys]

theorem execZeroizeAll_outcome {s t : State} (h : execZeroizeAll s = .next t) : CommandOutcome .zeroizeAll s t := by
  cases h
  refine .inr (.inr ⟨_, _, _, rfl, ?_,
      ⟨rfl, rfl, rfl, rfl, rfl, rfl, rfl⟩, ⟨rfl, rfl, rfl, rfl, rfl, rfl, rfl⟩,
      ?_, ?_, .inr (.inr ⟨rfl, rfl⟩), ?_, ?_, Nat.zero_le _⟩)
  all_goals simp [RangeOk, readRegions, writeRegion, KeysConsistent, writesKeys, State.wipeKeys]

theorem execAesenc_outcome {s t : State} (h : execAesenc s = .next t) : CommandOutcome .aesenc s t := by
  rcases State.guarded_cases h with ⟨e, he, rfl⟩ | ⟨hn, rfl⟩
  · refine .inl ⟨e, ?_, rfl⟩
    simp only [firstError_cons, firstError_nil] at he
    (repeat' split at he) <;> simp_all [possibleErrors]
  · have hr := inRange_of_firstError hn
    have ho : s.dstAddr.toNat + s.aesencLen ≤ s.cfg.memBytes := hr (s.dst s.aesencLen) (by simp)
    refine .inr (.inr ⟨_, _, _, rfl, ?_,
        ⟨rfl, rfl, rfl, rfl, rfl, rfl, rfl⟩, ⟨rfl, rfl, rfl, rfl, rfl, rfl, rfl⟩,
        ?_, ?_, .inr (.inl ⟨_, ?_, rfl⟩), ?_, ?_, by omega⟩)
    · simpa [RangeOk, readRegions, writeRegion] using hr
    all_goals simp [SameKeys, KeysConsistent, writesKeys, writeRegion, paddedLen, State.aesencLen]

/-- The raw plaintext is as long as a ciphertext that passed the length check. -/
theorem State.rawPlaintext_length {s : State} (h : s.srcLen.toNat % 16 = 0) :
    s.rawPlaintext.length = s.srcLen.toNat := by
  unfold State.rawPlaintext
  rw [cbcDecRaw_length _ _ _ (by simp) (by simpa using h)]
  simp

theorem execAesdec_outcome {s t : State} (h : execAesdec s = .next t) : CommandOutcome .aesdec s t := by
  rcases State.guarded_cases h with ⟨e, he, rfl⟩ | ⟨hn, rfl⟩
  · refine .inl ⟨e, ?_, rfl⟩
    simp only [firstError_cons, firstError_nil] at he
    (repeat' split at he) <;> simp_all [possibleErrors, State.authCheck, State.cipherLengthCheck]
  · have hr := inRange_of_firstError hn
    have ho : s.dstAddr.toNat + s.srcLen.toNat ≤ s.cfg.memBytes := hr (s.dst s.srcLen.toNat) (by simp)
    have hrange : RangeOk .aesdec s := by simpa [RangeOk, readRegions, writeRegion] using hr
    have hc := (firstError_eq_none _).mp hn s.cipherLengthCheck (by simp)
    simp only [State.cipherLengthCheck, decide_eq_false_iff_not, not_or, not_not] at hc
    have hl := State.rawPlaintext_length hc.2
    cases hp : padOk s.rawPlaintext with
    | false =>
      refine .inr (.inl ⟨rfl, hrange, hp, ?_⟩)
      simp [State.finishDecrypt, hp]
    | true =>
      have hpad := hp
      simp only [padOk, Bool.and_eq_true, decide_eq_true_eq] at hpad
      have hf : s.finishDecrypt = _ := if_pos hp
      rw [hf]
      refine .inr (.inr ⟨_, _, _, rfl, hrange,
          ⟨rfl, rfl, rfl, rfl, rfl, rfl, rfl⟩, ⟨rfl, rfl, rfl, rfl, rfl, rfl, rfl⟩, ?_, ?_,
        .inr (.inl ⟨_, ?_, rfl⟩), ?_, ?_, by omega⟩)
      all_goals simp [SameKeys, KeysConsistent, writesKeys, writeRegion, hl]
      exact Nat.sub_add_cancel (by omega)

theorem execHmac_outcome {s t : State} (h : execHmac s = .next t) : CommandOutcome .hmac s t := by
  rcases State.guarded_cases h with ⟨e, he, rfl⟩ | ⟨hn, rfl⟩
  · refine .inl ⟨e, ?_, rfl⟩
    simp only [firstError_cons, firstError_nil] at he
    (repeat' split at he) <;> simp_all [possibleErrors]
  · have hr := inRange_of_firstError hn
    have ho : s.dstAddr.toNat + Config.tagBytes ≤ s.cfg.memBytes := hr (s.dst 32) (by simp)
    refine .inr (.inr ⟨_, _, _, rfl, ?_,
        ⟨rfl, rfl, rfl, rfl, rfl, rfl, rfl⟩, ⟨rfl, rfl, rfl, rfl, rfl, rfl, rfl⟩,
        ?_, ?_, .inr (.inl ⟨_, ?_, rfl⟩), ?_, ?_, by omega⟩)
    · simpa [RangeOk, readRegions, writeRegion] using hr
    all_goals simp [SameKeys, KeysConsistent, writesKeys, writeRegion]

theorem execHmacverify_outcome {s t : State} (h : execHmacverify s = .next t) : CommandOutcome .hmacverify s t := by
  rcases State.guarded_cases h with ⟨e, he, rfl⟩ | ⟨hn, rfl⟩
  · refine .inl ⟨e, ?_, rfl⟩
    simp only [firstError_cons, firstError_nil] at he
    (repeat' split at he) <;> simp_all [possibleErrors]
  · have hk := (firstError_eq_none _).mp hn s.macKeyCheck (by simp)
    have hrange : RangeOk .hmacverify s := by
      simpa [RangeOk, readRegions, writeRegion] using inRange_of_firstError hn
    split
    all_goals
      refine .inr (.inr ⟨_, _, _, rfl, hrange,
          ⟨rfl, rfl, rfl, rfl, rfl, rfl, rfl⟩, ⟨rfl, rfl, rfl, rfl, rfl, rfl, rfl⟩,
          ?_, ?_, .inl rfl, ?_, ?_, Nat.zero_le _⟩)
      all_goals simp_all [SameKeys, writesKeys]

theorem execCtcmp_outcome {s t : State} (h : execCtcmp s = .next t) : CommandOutcome .ctcmp s t := by
  rcases State.guarded_cases h with ⟨e, he, rfl⟩ | ⟨hn, rfl⟩
  · refine .inl ⟨e, ?_, rfl⟩
    simp only [firstError_cons, firstError_nil] at he
    (repeat' split at he) <;> simp_all [possibleErrors]
  · refine .inr (.inr ⟨_, _, _, rfl, ?_,
      ⟨rfl, rfl, rfl, rfl, rfl, rfl, rfl⟩, ⟨rfl, rfl, rfl, rfl, rfl, rfl, rfl⟩,
      ?_, ?_, .inl rfl, ?_, ?_, Nat.zero_le _⟩)
    · simpa [RangeOk, readRegions, writeRegion] using inRange_of_firstError hn
    all_goals simp [SameKeys, KeysConsistent, writesKeys]

/-- All any command can do, by its dispatch. -/
theorem exec_outcome {i : Instr} {s t : State} (h : exec i s = .next t) : CommandOutcome i s t := by
  cases i
  · exact execKdf64_outcome h
  · exact execKdf32_outcome h
  · exact execLoadkeys_outcome h
  · exact execZeroize_outcome h
  · exact execZeroizeAll_outcome h
  · exact execAesenc_outcome h
  · exact execAesdec_outcome h
  · exact execHmac_outcome h
  · exact execHmacverify_outcome h
  · exact execCtcmp_outcome h

end Sys2Proof.Machine
end

