-- ==== Sys2Proof/Laws/HostPort.lean ====
section
/-! SUPPORT. Where a host access goes: the target of each register offset, of each legal buffer access, and of the
illegal ones. -/

namespace Sys2Proof.Machine

/-- The offset of every register is a register's. -/
theorem regAt_offset (r : Reg) : regAt r.offset = some r := by cases r <;> rfl

theorem reg_offset_lt (r : Reg) : r.offset < 0x30 := by cases r <;> decide

/-- An offset that is a register's is that register's offset. -/
theorem offset_of_regAt {off : Nat} {r : Reg} (h : regAt off = some r) : off = r.offset := by
  have := List.find?_some h
  simpa using (beq_iff_eq.mp this).symm

/-- A 32-bit access at a register's address reaches the register. -/
theorem State.target_reg (s : State) (r : Reg) : s.target (s.cfg.base + r.offset) .w32 = .reg r := by
  have hlt := reg_offset_lt r
  unfold State.target Config.windowBytes
  rw [if_pos (by omega), Nat.add_sub_cancel_left]
  unfold targetOfOffset Config.regFileBytes
  rw [if_pos hlt, regAt_offset]

/-- Only a 32-bit access at its address reaches a register. -/
theorem State.target_reg_inv {s : State} {addr : Nat} {w : Width} {r : Reg} (h : s.target addr w = .reg r) :
    addr = s.cfg.base + r.offset ∧ w = .w32 := by
  unfold State.target at h
  split at h
  · rename_i hin
    unfold targetOfOffset at h
    split at h
    · split at h
      · rename_i r' hr
        cases h
        have := offset_of_regAt hr
        exact ⟨by omega, rfl⟩
      · cases h
    · split at h
      · split at h <;> cases h
      · cases h
  · cases h

/-- A legal access of the buffer window reaches the buffer. -/
theorem State.target_buffer {s : State} (hc : s.cfg.wf) {a : Nat} {w : Width} (h : BufAccess s a w) :
    s.target (bufAddr s a) w = .buffer a := by
  obtain ⟨hal, hle⟩ := h
  have hw : 1 ≤ w.bytes := by cases w <;> decide
  have hmax := hc.2.2.1
  unfold State.target bufAddr Config.windowBytes Config.bufBase
  rw [if_pos (by omega)]
  unfold targetOfOffset Config.regFileBytes Config.bufBase
  have he : s.cfg.base + 0x01000000 + a - s.cfg.base = 0x01000000 + a := by omega
  have he' : 0x01000000 + a - 0x01000000 = a := by omega
  rw [he, if_neg (by omega), if_pos (by omega), he', if_pos ⟨hal, hle⟩]

/-- An access that reaches the buffer is aligned and inside it. -/
theorem State.target_buffer_inv {s : State} {addr : Nat} {w : Width} {a : Nat} (h : s.target addr w = .buffer a) :
    BufAccess s a w := by
  unfold State.target at h
  split at h
  · unfold targetOfOffset at h
    split at h
    · split at h <;> cases h
    · split at h
      · split at h
        · rename_i hb
          rw [← PortTarget.buffer.inj h]
          exact hb
        · cases h
      · cases h
  · cases h

@[simp] theorem datumBytes_length (d : Datum) : (datumBytes d).length = d.width.bytes := by
  cases d <;> simp [datumBytes, Datum.width, Width.bytes]

/-- The registers and the buffer are found by the platform parameters alone. -/
theorem State.target_congr {s t : State} (h : t.cfg = s.cfg) (addr : Nat) (w : Width) :
    t.target addr w = s.target addr w := by
  unfold State.target
  rw [h]

end Sys2Proof.Machine
end

