-- ==== Sys2Proof/Laws/RunEnd.lean ====
section
/-! SUPPORT. The end of a run: an induction over a run to its end, that the run is over there, that it is a state the
steps reach, and what the observable end state leaves out. -/

namespace Sys2Proof.Machine

/-- A completion leaves the block IDLE. -/
theorem completion_idle {s t : State} (hc : completion s = .next t) : t.seq = .idle := by
  rcases completion_cases hc with ⟨i, -, he⟩ | ⟨w, -, rfl⟩
  · rcases exec_outcome he with ⟨e, _, rfl⟩ | ⟨_, _, _, rfl⟩ | ⟨b, r, n, hs⟩
    · rfl
    · rfl
    · rw [hs.ended]
      rfl
  · rfl

/-- A completion leaves the events to come. -/
theorem completion_schedule {s t : State} (hc : completion s = .next t) : t.schedule = s.schedule := by
  rcases completion_cases hc with ⟨i, -, he⟩ | ⟨w, -, rfl⟩
  · rcases exec_outcome he with ⟨e, _, rfl⟩ | ⟨_, _, _, rfl⟩ | ⟨b, r, n, hs⟩
    · rfl
    · rfl
    · rw [hs.ended]
      exact hs.control.2.2.2.2.2.1
  · rfl

/-- The sequencer's turn leaves the block IDLE. -/
theorem sequencerTurn_idle {s t : State} (h : sequencerTurn s = .next t) : t.seq = .idle := by
  rcases sequencerTurn_cases h with ⟨-, hc⟩ | ⟨hs, rfl⟩
  · exact completion_idle hc
  · exact hs

/-- INDUCTION OVER A RUN TO ITS END: where P of the events to come, the record and the state is kept by each step, and
P gives Q once the run is over or at its last completion, Q holds at the end. -/
theorem followRun_induct {α : Type} {note : α → State → Event → α} {P : List Event → α → State → Prop}
    {Q : α → State → Prop}
    (hstep : ∀ {e rest a s t}, P (e :: rest) a s → step { s with schedule := e :: rest } = .next t →
      P rest (note a s e) t)
    (hlast : ∀ {a s t}, P [] a s → sequencerTurn { s with schedule := [] } = .next t → Q (note a s .sequencer) t)
    (hover : ∀ {events a s}, P events a s → RunOver { s with schedule := events } → Q a { s with schedule := events })
    {events : List Event} {a b : α} {s t : State} (hp : P events a s) (h : followRun note events a s = some (b, t)) :
    Q b t := by
  induction events generalizing a s with
  | nil =>
    unfold followRun at h
    split at h
    · rename_i ho
      cases h
      exact hover hp ho
    · split at h
      · rename_i u hu
        cases h
        exact hlast hp hu
      · cases h
      · cases h
  | cons e rest ih =>
    unfold followRun at h
    split at h
    · rename_i ho
      cases h
      exact hover hp ho
    · split at h
      · rename_i u hu
        exact ih (hstep hp hu) h
      · cases h
      · cases h

/-- Where a run ends, it is over (70_reset_and_hazards.md R388). -/
theorem runOver_of_followRun {α : Type} {note : α → State → Event → α} {events : List Event} {a b : α} {s t : State}
    (h : followRun note events a s = some (b, t)) : RunOver t := by
  refine followRun_induct (P := fun _ _ _ => True) (Q := fun _ t => RunOver t) (fun _ _ => trivial) ?_
    (fun _ ho => ho) trivial h
  intro a s t _ ht
  refine ⟨?_, sequencerTurn_idle ht⟩
  rcases sequencerTurn_cases ht with ⟨-, hc⟩ | ⟨-, rfl⟩
  · rw [completion_schedule hc]
    rfl
  · rfl

/-- A run that is over already ends where it is: no event to come, a power-on reset not excepted, is part of it
(70_reset_and_hazards.md R388). -/
theorem followRun_of_over {α : Type} (note : α → State → Event → α) (a : α) {s : State} (h : RunOver s) :
    followRun note s.schedule a s = some (a, s) := by
  have hs : { s with schedule := s.schedule } = s := rfl
  cases hl : s.schedule <;> unfold followRun <;> rw [← hl, hs, if_pos h]

/-- A register write leaves the events to come. -/
@[simp] theorem State.writeReg_schedule (s : State) (r : Reg) (v : Word) : (s.writeReg r v).schedule = s.schedule := by
  rcases writeReg_cases s r v with ⟨_, _, h⟩ | ⟨_, _, h⟩ | ⟨_, _, h⟩ | ⟨_, h⟩ | ⟨_, h⟩ | ⟨_, h⟩ | h <;> rw [h]
  case inr.inr.inr.inr.inl => cases r <;> rfl
  all_goals rfl

/-- A host access leaves the events to come. -/
theorem hostAccess_schedule {s t : State} {a : Access} (h : hostAccess a s = .next t) : t.schedule = s.schedule := by
  cases a with
  | read addr w => rcases hostRead_cases h with ⟨_, _, rfl⟩ | ⟨_, _, _, rfl⟩ | ⟨_, _, _, rfl⟩ <;> rfl
  | write addr d =>
    rcases hostWrite_cases h with ⟨_, _, rfl⟩ | ⟨_, _, _, rfl⟩ | ⟨_, _, _, rfl⟩
    · exact State.writeReg_schedule _ _ _
    · rfl
    · rfl

/-- A step takes the next event off the schedule and leaves the rest. -/
theorem step_schedule {s t : State} (h : step s = .next t) : t.schedule = s.schedule.tail := by
  have turn {u : State} (hu : sequencerTurn u = .next t) : t.schedule = u.schedule := by
    rcases sequencerTurn_cases hu with ⟨-, hc⟩ | ⟨-, rfl⟩
    · exact completion_schedule hc
    · rfl
  rcases step_cases h with ⟨rest, hs, hu⟩ | ⟨a, rest, hs, hu⟩ | ⟨rest, hs, rfl⟩
  · rw [turn hu]
    rcases hs with ⟨hs, rfl⟩ | hs <;> rw [hs] <;> rfl
  · rw [hostAccess_schedule hu, hs]
    rfl
  · rw [hs]
    rfl

/-- The end of a run is a state the steps reach. -/
theorem runEnd_reached {s t : State} (h : s.runEnd = some t) : ∃ n, afterSteps n s = some t := by
  have key (events : List Event) (s : State) (hl : s.schedule = events) (u : Unit)
      (h : followRun (fun _ _ _ => ()) events () s = some (u, t)) : ∃ n, afterSteps n s = some t := by
    induction events generalizing s with
    | nil =>
      have hs : { s with schedule := [] } = s := by rw [← hl]
      unfold followRun at h
      rw [hs] at h
      split at h
      · cases h
        exact ⟨0, rfl⟩
      · split at h
        · rename_i v hv
          cases h
          exact ⟨1, by simp [afterSteps, hv]⟩
        · cases h
        · cases h
    | cons e rest ih =>
      have hs : { s with schedule := e :: rest } = s := by rw [← hl]
      unfold followRun at h
      rw [hs] at h
      split at h
      · cases h
        exact ⟨0, rfl⟩
      · split at h
        · rename_i v hv
          obtain ⟨n, hn⟩ := ih v (by rw [step_schedule hv, hl]; rfl) h
          exact ⟨n + 1, by simp [afterSteps, hv, hn]⟩
        · cases h
        · cases h
  unfold State.runEnd at h
  cases hf : followRun (fun _ _ _ => ()) s.schedule () s with
  | none => simp [hf] at h
  | some e =>
    obtain ⟨u, v⟩ := e
    simp only [hf, Option.map_some, Option.some.injEq] at h
    exact key s.schedule s rfl u (by rw [hf, h])

/-- Keeping a record changes nothing of a run's end. -/
theorem followRun_state {α : Type} (note : α → State → Event → α) (events : List Event) (a : α) (s : State) :
    (followRun note events a s).map Prod.snd = (followRun (fun _ _ _ => ()) events () s).map Prod.snd := by
  induction events generalizing a s with
  | nil =>
    unfold followRun
    split
    · rfl
    · split <;> rfl
  | cons e rest ih =>
    unfold followRun
    split
    · rfl
    · split
      · exact ih _ _
      · rfl
      · rfl

/-- What is observable at the end says what every register reads as, and nothing of what is no register, key or buffer
byte. -/
theorem State.endState_registers {s t : State} (h : s.endState = t.endState) (r : Reg) : s.readReg r = t.readReg r := by
  have hr := congrArg EndState.registers h
  simp only [State.endState, List.map_inj_left, Prod.mk.injEq, true_and] at hr
  exact hr r (by cases r <;> decide)

@[simp] theorem State.endState_schedule (s : State) (l : List Event) :
    ({ s with schedule := l } : State).endState = s.endState := rfl

@[simp] theorem State.endState_resp (s : State) (p : Response) : ({ s with resp := p } : State).endState = s.endState :=
  rfl

@[simp] theorem State.endState_cmdl (s : State) (v : Word) : ({ s with cmdl := v } : State).endState = s.endState := rfl

end Sys2Proof.Machine
end

