-- ==== Sys2Proof/Laws/HostDuties.lean ====
section
/-! SUPPORT. What the duties of the host give a run: no access is refused, and at the end both keys are wiped. -/

namespace Sys2Proof.Machine

/-- A block that is not BUSY is IDLE. -/
theorem State.seq_idle_of_isBusy {s : State} (h : s.isBusy = false) : s.seq = .idle := by
  cases hs : s.seq <;> simp_all [State.isBusy]

/-- All one host access can do, in the terms of the duties. -/
theorem hostAccess_cases {s t : State} {a : Access} (h : hostAccess a s = .next t) :
    (∃ r, s.registerRead (.access a) = some r ∧ s.registerWrite (.access a) = none ∧ s.bufferAccess (.access a) = false
        ∧ t = { s with resp := .data (.word (s.readReg r)) })
      ∨ (∃ r v, s.registerWrite (.access a) = some (r, v) ∧ s.bufferAccess (.access a) = false
          ∧ t = { s.writeReg r v with resp := .written })
      ∨ (s.registerRead (.access a) = none ∧ s.registerWrite (.access a) = none ∧ s.bufferAccess (.access a) = true
          ∧ ((s.seq = .busy ∧ ∃ p, t = { s with busyViol := true, resp := p })
            ∨ (s.seq = .idle ∧ ∃ m p, t = { s with mem := m, resp := p }))) := by
  cases a with
  | read addr w =>
    simp only [State.registerRead, State.registerWrite, State.bufferAccess, Access.target]
    rcases hostRead_cases h with ⟨r, ht, rfl⟩ | ⟨_, ht, hb, rfl⟩ | ⟨_, ht, hb, rfl⟩ <;> simp only [ht]
    · exact .inl ⟨r, rfl, trivial, trivial, rfl⟩
    · exact .inr (.inr ⟨trivial, trivial, trivial, .inl ⟨beq_iff_eq.mp hb, _, rfl⟩⟩)
    · exact .inr (.inr ⟨trivial, trivial, trivial, .inr ⟨State.seq_idle_of_isBusy hb, _, _, rfl⟩⟩)
  | write addr d =>
    simp only [State.registerRead, State.registerWrite, State.bufferAccess, Access.target]
    rcases hostWrite_cases h with ⟨r, ht, rfl⟩ | ⟨_, ht, hb, rfl⟩ | ⟨_, ht, hb, rfl⟩ <;> simp only [ht]
    · exact .inr (.inl ⟨r, _, rfl, trivial, rfl⟩)
    · exact .inr (.inr ⟨trivial, trivial, trivial, .inl ⟨beq_iff_eq.mp hb, _, rfl⟩⟩)
    · exact .inr (.inr ⟨trivial, trivial, trivial, .inr ⟨State.seq_idle_of_isBusy hb, _, _, rfl⟩⟩)

/-- All a step does when the next event is a host access. -/
theorem step_access_cases {s t : State} {a : Access} {rest : List Event}
    (h : step { s with schedule := .access a :: rest } = .next t) :
    (∃ r, s.registerRead (.access a) = some r ∧ s.registerWrite (.access a) = none ∧ s.bufferAccess (.access a) = false
        ∧ t = { s with schedule := rest, resp := .data (.word (s.readReg r)) })
      ∨ (∃ r v, s.registerWrite (.access a) = some (r, v) ∧ s.bufferAccess (.access a) = false
          ∧ t = { ({ s with schedule := rest } : State).writeReg r v with resp := .written })
      ∨ (s.registerRead (.access a) = none ∧ s.registerWrite (.access a) = none ∧ s.bufferAccess (.access a) = true
          ∧ ((s.seq = .busy ∧ ∃ p, t = { s with schedule := rest, busyViol := true, resp := p })
            ∨ (s.seq = .idle ∧ ∃ m p, t = { s with schedule := rest, mem := m, resp := p }))) :=
  hostAccess_cases (s := { s with schedule := rest }) h

/-! ### Waiting -/

/-- No completion changes BUSY_VIOL. -/
theorem completion_busyViol {s t : State} (h : completion s = .next t) : t.busyViol = s.busyViol := by
  rcases completion_cases h with ⟨i, -, he⟩ | ⟨w, -, rfl⟩
  · rcases exec_outcome he with ⟨e, _, rfl⟩ | ⟨_, _, _, rfl⟩ | ⟨b, r, n, hs⟩
    · rfl
    · rfl
    · rw [hs.ended]
      exact hs.control.2.2.2.1
  · rfl

/-- Nor does the sequencer's turn. -/
theorem sequencerTurn_busyViol {s t : State} (h : sequencerTurn s = .next t) : t.busyViol = s.busyViol := by
  rcases sequencerTurn_cases h with ⟨-, hc⟩ | ⟨-, rfl⟩
  · exact completion_busyViol hc
  · rfl

/-- A register write that is not refused sets no BUSY_VIOL. -/
theorem State.writeReg_busyViol {s : State} (r : Reg) (v : Word) (hr : ¬ (s.seq = .busy ∧ r ∈ refusedRegs))
    (hv : s.busyViol = false) : (s.writeReg r v).busyViol = false := by
  have hb : r ∈ refusedRegs → s.isBusy = false := fun hm => by
    cases hs : s.seq with
    | idle => simp [State.isBusy, hs]
    | busy => exact absurd ⟨hs, hm⟩ hr
  cases r <;> simp_all [State.writeReg, State.writeCtrl, State.writeStatus, State.setOperand, refusedRegs, operandRegs]
  split <;> simp

/-- An event that the block does not refuse sets no BUSY_VIOL. -/
theorem step_busyViol {s t : State} {e : Event} {rest : List Event} (hr : s.refuses e = false)
    (h : step { s with schedule := e :: rest } = .next t) (hv : s.busyViol = false) : t.busyViol = false := by
  cases e with
  | sequencer =>
    have h' : sequencerTurn { s with schedule := rest } = .next t := h
    exact (sequencerTurn_busyViol h').trans hv
  | powerOn =>
    cases h
    rfl
  | access a =>
    rcases step_access_cases h with ⟨r, -, -, -, rfl⟩ | ⟨r, v, hw, -, rfl⟩ | ⟨-, -, hb, ⟨hs, -⟩ | ⟨-, m, p, rfl⟩⟩
    · exact hv
    · refine State.writeReg_busyViol (s := { s with schedule := rest }) r v (fun hb => ?_) hv
      have hs : s.seq = .busy := hb.1
      simp [State.refuses, State.isBusy, hs, hw, hb.2] at hr
    · simp [State.refuses, State.isBusy, hs, hb] at hr
    · exact hv

/-- A run in which the host waits ends with no access refused (70_reset_and_hazards.md R387, R392). -/
theorem noAccessRefused_of_waits {events : List Event} {h h' : HostRecord} {s t : State}
    (hd : keptAlong waitDuty events h s = true) (he : followRun HostRecord.note events h s = some (h', t))
    (hv : NoAccessRefused s) : NoAccessRefused t := by
  refine followRun_induct (P := fun events h s => keptAlong waitDuty events h s = true ∧ NoAccessRefused s)
    (Q := fun _ t => NoAccessRefused t) ?_ (fun hp ht => (sequencerTurn_busyViol ht).trans hp.2) (fun hp _ => hp.2)
    ⟨hd, hv⟩ he
  intro e rest h s t hp ht
  have hk := hp.1
  unfold keptAlong at hk
  simp only [ht, Bool.and_eq_true, waitDuty, Bool.not_eq_true'] at hk
  exact ⟨hk.2, step_busyViol hk.1 ht hp.2⟩

/-! ### The end of a call -/

/-- The last command a record holds, after one more event. -/
theorem HostRecord.note_last (h : HostRecord) (s : State) (e : Event) :
    (h.note s e).last
      = if s.resetsAt e then none else ((s.acceptedWord e).map decode).or h.last := by
  unfold HostRecord.note
  split <;> rfl

/-- An access that writes no register leaves the last command. -/
theorem HostRecord.note_last_of_no_write (h : HostRecord) {s : State} {a : Access}
    (hw : s.registerWrite (.access a) = none) : (h.note s (.access a)).last = h.last := by
  rw [HostRecord.note_last]
  unfold State.resetsAt State.acceptedWord
  rw [hw]
  cases s.seq <;> rfl

/-- The last command after a register write: none after a soft reset, the word accepted where CMD is written while
IDLE, else the one before. -/
theorem HostRecord.note_last_of_write (h : HostRecord) {s : State} {a : Access} {r : Reg} {v : Word}
    (hw : s.registerWrite (.access a) = some (r, v)) :
    (h.note s (.access a)).last
      = if r = .ctrl ∧ v.getLsbD 1 = true then none else if r = .cmd ∧ s.seq = .idle then some (decode v) else h.last := by
  rw [HostRecord.note_last]
  unfold State.resetsAt State.acceptedWord
  rw [hw]
  cases hs : s.seq <;> cases r <;> simp

/-- What the record knows of the block: the command under way while BUSY; while IDLE, that the keys are wiped where the
last command was ZEROIZE or ZEROIZE_ALL. -/
def HostRecord.Knows (h : HostRecord) (s : State) : Prop :=
  (s.seq = .busy → h.last = some (decode s.cmdl))
    ∧ (s.seq = .idle → h.endsWithZeroize = true → s.encKey = Key.zero ∧ s.macKey = Key.zero)

/-- Nothing done yet at an idle block. -/
theorem HostRecord.knows_start {s : State} (hs : s.seq = .idle) : HostRecord.start.Knows s :=
  ⟨fun hb => absurd (hs.symm.trans hb) (by decide), fun _ hz => absurd hz (by decide)⟩

theorem HostRecord.endsWithZeroize_iff (h : HostRecord) :
    h.endsWithZeroize = true ↔ h.last = some (.instr .zeroize) ∨ h.last = some (.instr .zeroizeAll) := by
  simp [HostRecord.endsWithZeroize]

/-- A completion leaves the block IDLE, with the keys wiped where its command was ZEROIZE or ZEROIZE_ALL. -/
theorem completion_knows {h : HostRecord} {s t : State} (hc : completion s = .next t)
    (hl : h.last = some (decode s.cmdl)) : h.Knows t := by
  have hi := completion_idle hc
  refine ⟨fun hb => absurd (hi.symm.trans hb) (by decide), fun _ hz => ?_⟩
  rw [HostRecord.endsWithZeroize_iff, hl] at hz
  unfold completion at hc
  rcases hz with hz | hz <;> rw [Option.some.inj hz] at hc <;> cases hc <;> exact ⟨rfl, rfl⟩

/-- A register write that neither resets nor accepts leaves the sequencer, the command and the keys. -/
theorem State.writeReg_keeps {s : State} (r : Reg) (v : Word) (hr : ¬ (r = .ctrl ∧ v.getLsbD 1 = true))
    (hc : ¬ (r = .cmd ∧ s.seq = .idle)) :
    (s.writeReg r v).seq = s.seq ∧ (s.writeReg r v).cmdl = s.cmdl ∧ (s.writeReg r v).encKey = s.encKey
      ∧ (s.writeReg r v).macKey = s.macKey := by
  cases hs : s.seq <;> cases r <;>
    simp_all [State.writeReg, State.writeCtrl, State.writeStatus, State.isBusy, State.refuseAccess, State.setOperand]

/-- Every event keeps what the record knows. -/
theorem HostRecord.knows_note {h : HostRecord} {s t : State} {e : Event} {rest : List Event} (hk : h.Knows s)
    (ht : step { s with schedule := e :: rest } = .next t) : (h.note s e).Knows t := by
  have hlast := h.note_last s e
  cases e with
  | sequencer =>
    have hn : (h.note s .sequencer).last = h.last := by
      rw [hlast]
      cases hs : s.seq <;> simp [State.resetsAt, State.registerWrite, State.acceptedWord]
    have ht' : sequencerTurn { s with schedule := rest } = .next t := ht
    rcases sequencerTurn_cases ht' with ⟨hs, hc⟩ | ⟨-, rfl⟩
    · exact completion_knows hc (hn.trans (hk.1 hs))
    · refine ⟨fun hb => hn.trans (hk.1 hb), fun hi hz => hk.2 hi ?_⟩
      rwa [HostRecord.endsWithZeroize_iff, hn, ← HostRecord.endsWithZeroize_iff] at hz
  | powerOn =>
    cases ht
    exact HostRecord.knows_start rfl
  | access a =>
    have same (u : State) (hn : (h.note s (.access a)).last = h.last) (h1 : u.seq = s.seq) (h2 : u.cmdl = s.cmdl)
        (h3 : u.encKey = s.encKey) (h4 : u.macKey = s.macKey) : (h.note s (.access a)).Knows u := by
      refine ⟨fun hb => ?_, fun hi hz => ?_⟩
      · rw [hn, h2]
        exact hk.1 (h1 ▸ hb)
      · rw [h3, h4]
        rw [HostRecord.endsWithZeroize_iff, hn, ← HostRecord.endsWithZeroize_iff] at hz
        exact hk.2 (h1 ▸ hi) hz
    rcases step_access_cases ht with ⟨r, -, hw, -, rfl⟩ | ⟨r, v, hw, -, rfl⟩ | ⟨-, hw, -, ⟨-, p, rfl⟩ | ⟨-, m, p, rfl⟩⟩
    · exact same _ (h.note_last_of_no_write hw) rfl rfl rfl rfl
    · by_cases hr : r = .ctrl ∧ v.getLsbD 1 = true
      · obtain ⟨rfl, hv⟩ := hr
        have hn : h.note s (.access a) = HostRecord.start := if_pos (by simp [State.resetsAt, hw, hv])
        rw [hn]
        refine HostRecord.knows_start ?_
        simp [State.writeReg, State.writeCtrl, hv]
      · have hl := h.note_last_of_write hw
        rw [if_neg hr] at hl
        clear ht
        split at hl
        · rename_i hc
          obtain ⟨rfl, hs⟩ := hc
          refine ⟨fun _ => ?_, fun hi => ?_⟩
          · rw [hl]
            simp [State.writeReg, State.isBusy, hs]
          · simp [State.writeReg, State.isBusy, hs] at hi
        · obtain ⟨h1, h2, h3, h4⟩ := State.writeReg_keeps (s := { s with schedule := rest }) r v hr ‹_›
          exact same _ hl h1 h2 h3 h4
    · exact same _ (h.note_last_of_no_write hw) rfl rfl rfl rfl
    · exact same _ (h.note_last_of_no_write hw) rfl rfl rfl rfl

/-- A run in which the host ends its call with ZEROIZE or ZEROIZE_ALL ends with both keys wiped
(70_reset_and_hazards.md R387, 44_key_management.md R330). -/
theorem keys_wiped_of_zeroizes {events : List Event} {h : HostRecord} {s : State} (hk : h.Knows s)
    (hd : zeroizeDuty events h s = true) :
    ∃ h' t, followRun HostRecord.note events h s = some (h', t) ∧ RunOver t ∧ t.encKey = Key.zero
      ∧ t.macKey = Key.zero := by
  unfold zeroizeDuty at hd
  cases he : followRun HostRecord.note events h s with
  | none => simp [he] at hd
  | some e =>
    have hknows : e.1.Knows e.2 :=
      followRun_induct (P := fun _ h s => h.Knows s) (Q := HostRecord.Knows)
        (fun hp ht => HostRecord.knows_note hp ht)
        (fun {a s t} hp ht => HostRecord.knows_note (e := .sequencer) (rest := []) hp ht) (fun hp _ => hp) hk he
    have hover := runOver_of_followRun he
    refine ⟨e.1, e.2, rfl, hover, hknows.2 hover.2 ?_⟩
    simpa [he] using hd

/-! ### What a claim about a host program takes from the duties -/

/-- The run of an idle block whose host keeps its duties ends, with both keys wiped, every secret region zero and no access
refused (70_reset_and_hazards.md R387). -/
theorem HostDuties.ends_clean {secrets : List Region} {s : State} (hd : HostDuties secrets HostRecord.start s)
    (hs : s.seq = .idle) (hv : NoAccessRefused s) :
    ∃ t, s.runEnd = some t ∧ RunOver t ∧ t.encKey = Key.zero ∧ t.macKey = Key.zero ∧ NoAccessRefused t
      ∧ ∀ r ∈ secrets, ∀ b ∈ t.readRegion r, b = 0 := by
  obtain ⟨h, t, he, ho, hk1, hk2⟩ := keys_wiped_of_zeroizes (HostRecord.knows_start hs) hd.zeroizes
  refine ⟨t, ?_, ho, hk1, hk2, noAccessRefused_of_waits hd.waits he hv, ?_⟩
  · rw [State.runEnd, ← followRun_state HostRecord.note s.schedule HostRecord.start s, he]
    rfl
  simpa [wipeDuty, he, State.wiped] using hd.wipes

/-! ### The bytes that have a value -/

/-- ZEROIZE_ALL gives every byte a value (44_key_management.md R325). -/
@[simp] theorem Memory.specified_zeroed (a : Nat) : Memory.zeroed.specified a = true := rfl

/-- No byte has a value after power-on (70_reset_and_hazards.md R382). -/
@[simp] theorem Memory.specified_unspecified (k a : Nat) : (Memory.unspecified k).specified a = false := rfl

/-- A byte that is written has a value. -/
theorem Memory.specified_write (m : Memory) (a : Nat) (v : ByteString) {x : Nat} (h1 : a ≤ x) (h2 : x < a + v.length) :
    (m.write a v).specified x = true := by
  have hc (b : Nat) (w : ByteString) (hb : b ≤ x) (hx : x < b + w.length) :
      m.fill = .zero ∨ ∃ c ∈ cellsOf m.fill.known b w, c.1 = x := by
    cases hf : m.fill with
    | zero => exact .inl rfl
    | drawn k =>
      right
      induction w generalizing b with
      | nil => simp at hx; omega
      | cons y w ih =>
        simp only [cellsOf, Fill.known, reduceCtorEq, if_false, List.mem_cons, exists_eq_or_imp]
        simp only [Fill.known] at ih
        rcases Nat.eq_or_lt_of_le hb with rfl | hlt
        · exact .inl rfl
        · exact .inr (ih (b + 1) hlt (by simp at hx; omega))
  rcases hc a v h1 h2 with hf | ⟨c, hm, hx⟩
  · simp only [Memory.specified, Memory.write, hf, Bool.or_eq_true]
    right
    simp only [beq_self_eq_true, Bool.true_and, Bool.not_eq_true', List.any_eq_false, List.mem_append, List.mem_filter,
      decide_eq_true_eq, beq_iff_eq]
    rintro d (⟨_, hd⟩ | ⟨_, hd⟩) <;> omega
  · simp only [Memory.specified, Memory.write, Bool.or_eq_true]
    left
    simp only [List.any_eq_true, List.mem_append, beq_iff_eq]
    exact ⟨c, .inl (.inr hm), hx⟩

end Sys2Proof.Machine
end

