-- ==== Sys2Proof/Laws/PerInstr.lean ====
section
/-! SUPPORT. The family of statements about the syntax of each command: its encoded word is a legal command word. -/

namespace Sys2Proof.Laws

namespace EncodedWordLegal

/-- The command word of i has its reserved bits clear and an assigned opcode (30_encoding.md R132, R133). -/
def Statement (i : Instr) : Prop := (CommandWord.ofWord (encode i)).wf = true

theorem kdf64 : Statement .kdf64 := by unfold Statement; decide

theorem kdf32 : Statement .kdf32 := by unfold Statement; decide

theorem loadkeys : Statement .loadkeys := by unfold Statement; decide

theorem zeroize : Statement .zeroize := by unfold Statement; decide

theorem zeroizeAll : Statement .zeroizeAll := by unfold Statement; decide

theorem aesenc : Statement .aesenc := by unfold Statement; decide

theorem aesdec : Statement .aesdec := by unfold Statement; decide

theorem hmac : Statement .hmac := by unfold Statement; decide

theorem hmacverify : Statement .hmacverify := by unfold Statement; decide

theorem ctcmp : Statement .ctcmp := by unfold Statement; decide

end EncodedWordLegal

end Sys2Proof.Laws
end

