-- ==== Sys2Proof/Tests/Slice0.lean ====
section
/-! SUPPORT. Tests: well-formedness, decoding, the vectors of 95_test_vectors.md, and a witness for the hypotheses of
each obligation that has any. Every expected value is the spec's. -/

namespace Sys2Proof.Tests

open Sys2Proof.Machine

/-! ### Helpers -/

/-- The n bytes of a number, the most significant first: a hex string of 95_test_vectors.md. -/
def hex (n v : Nat) : ByteString := (List.range n).map fun k => BitVec.ofNat 8 (v >>> (8 * (n - 1 - k)))

/-- The n bytes b, b+1, b+2, ... -/
def count (b n : Nat) : ByteString := (List.range n).map fun k => BitVec.ofNat 8 (b + k)

/-- The state after an outcome, the state before it where the step stopped. -/
def after (s : State) (o : Host.Outcome State Fault Refusal) : State :=
  match o with
  | .next t => t
  | .fault _ => s
  | .refused _ => s

/-- A block after ZEROIZE_ALL: no keys, every buffer byte 0x00. -/
def quiet : State := { State.reset with mem := Memory.zeroed }

/-- A quiet block with ENC_KEY = MAC_KEY = 00..1f and AUTH as given. -/
def keyed (auth : Bool) : State :=
  { quiet with
    encKey := Key.ofBytes (count 0 32), macKey := Key.ofBytes (count 0 32)
    encKeyValid := true, macKeyValid := true, auth := auth }

/-- The state with SRC, AUX and DST set. -/
def withRegions (s : State) (sa sl aa al da : Nat) : State :=
  { s with
    srcAddr := BitVec.ofNat 32 sa, srcLen := BitVec.ofNat 32 sl, auxAddr := BitVec.ofNat 32 aa
    auxLen := BitVec.ofNat 32 al, dstAddr := BitVec.ofNat 32 da }

/-- A keyed block with n bytes of source at 0x200, the IV 00..0f at 0x100 and its output at 0x300. -/
def cipher (auth : Bool) (n : Nat) (src : ByteString) : State :=
  { (withRegions ((keyed auth).writeMem 0x100 (count 0 16)) 0x200 n 0 0 0x300).writeMem 0x200 src with
    ivAddr := 0x100 }

/-- The operands of a KDF: an empty passphrase, a salt of n bytes at 0, an iteration count. -/
def kdf (n c : Nat) : State := { withRegions quiet 0 0 0 n 0 with iter := BitVec.ofNat 32 c }

/-- A quiet block BUSY with a command word. -/
def busyWith (v : Word) : State := quiet.accept v

/-- A state with one event to come. -/
def atEvent (s : State) (e : Event) : State := { s with schedule := [e] }

/-- The record of an ended command: STATUS and OUT_LEN. -/
def record (s : State) : Word × Word := (s.statusWord, s.outLen)

/-! ### Well-formedness: each check refuses an ill-formed term -/

theorem test_reserved_bit_refused : ({ rsvd := 1, opcode := 0x10 } : CommandWord).reservedClear = false := by decide

theorem test_unassigned_opcode_refused : ({ rsvd := 0, opcode := 0x06 } : CommandWord).opcodeAssigned = false := by
  decide

theorem test_ill_formed_words_refused :
    ({ rsvd := 1, opcode := 0x10 } : CommandWord).wf = false ∧ ({ rsvd := 0, opcode := 0x00 } : CommandWord).wf = false
      ∧ ({ rsvd := 0, opcode := 0x30 } : CommandWord).wf = true := by decide

theorem test_platform_size_multiple_of_16 : ¬ ({ memBytes := 72, base := 0 } : Platform).wf := by decide

theorem test_platform_size_at_least_64 : ¬ ({ memBytes := 48, base := 0 } : Platform).wf := by decide

theorem test_platform_size_at_most_16_mib : ¬ ({ memBytes := 0x01000010, base := 0 } : Platform).wf := by decide

theorem test_platform_base_aligned : ¬ ({ memBytes := 64, base := 0x01000000 } : Platform).wf := by decide

theorem test_platform_bounds_legal :
    ({ memBytes := 64, base := 0x02000000 } : Platform).wf ∧ ({ memBytes := 0x01000000, base := 0 } : Platform).wf
      ∧ Platform.atDefault.wf := by decide

/-! ### Decoding: words written out from 30_encoding.md R130, R131 (RSVD in bits 31:8, OPCODE in bits 7:0) -/

theorem test_decode_kdf64 : decode 0b00000000000000000000000000000001 = .instr .kdf64 := by decide

theorem test_decode_kdf32 : decode 0b00000000000000000000000000000010 = .instr .kdf32 := by decide

theorem test_decode_loadkeys : decode 0b00000000000000000000000000000011 = .instr .loadkeys := by decide

theorem test_decode_zeroize : decode 0b00000000000000000000000000000100 = .instr .zeroize := by decide

theorem test_decode_zeroizeAll : decode 0b00000000000000000000000000000101 = .instr .zeroizeAll := by decide

theorem test_decode_aesenc : decode 0b00000000000000000000000000010000 = .instr .aesenc := by decide

theorem test_decode_aesdec : decode 0b00000000000000000000000000010001 = .instr .aesdec := by decide

theorem test_decode_hmac : decode 0b00000000000000000000000000100000 = .instr .hmac := by decide

theorem test_decode_hmacverify : decode 0b00000000000000000000000000100001 = .instr .hmacverify := by decide

theorem test_decode_ctcmp : decode 0b00000000000000000000000000110000 = .instr .ctcmp := by decide

/-- V3.54 to V3.56: illegal words. -/
theorem test_illegal_words :
    decode 0x00000000 = .illegal .unassignedOpcode ∧ decode 0x00000006 = .illegal .unassignedOpcode
      ∧ decode 0x00000012 = .illegal .unassignedOpcode ∧ decode 0x00000022 = .illegal .unassignedOpcode
      ∧ decode 0x00000031 = .illegal .unassignedOpcode ∧ decode 0x000000FF = .illegal .unassignedOpcode
      ∧ decode 0x00000110 = .illegal .reservedBits ∧ decode 0x80000001 = .illegal .reservedBits := by decide

theorem test_table_words :
    decodeTableWord 32 0x01 = some .kdf64 ∧ decodeTableWord 32 0x21 = some .hmacverify
      ∧ decodeTableWord 32 0x110 = none ∧ decodeTableWord 8 0x110 = some .aesenc := by decide

/-- From reset the step runs the placed command: with every operand register 0, ZEROIZE completes (STATUS 0x2) and
KDF64 ends with POLICY (V3.9a). -/
theorem test_fetched_word_runs :
    record (after State.reset (step (State.reset.withFetchWord 32 0x04))) = (0x00000002, 0)
      ∧ record (after State.reset (step (State.reset.withFetchWord 32 0x01))) = (0x00000502, 0) := by decide

/-! ### The algorithms -/

/-- S1.1. -/
theorem test_sha1_abc : sha1 [0x61, 0x62, 0x63] = hex 20 0xa9993e364706816aba3e25717850c26c9cd0d89d := by
  decide +kernel

/-- The first line of the table of 42_hmac_sha256.md R252, and its last entry. -/
theorem test_sha256_constants :
    sha256Constants.length = 64
      ∧ sha256Constants.take 8 = [0x428a2f98, 0x71374491, 0xb5c0fbcf, 0xe9b5dba5, 0x3956c25b, 0x59f111f1, 0x923f82a4, 0xab1c5ed5]
      ∧ sha256Constants.getLast? = some 0xc67178f2 := by decide +kernel

/-- S2.1. -/
theorem test_sha256_abc :
    sha256 [0x61, 0x62, 0x63] = hex 32 0xba7816bf8f01cfea414140de5dae2223b00361a396177a9cb410ff61f20015ad := by
  decide +kernel

/-- S4.1. -/
theorem test_pbkdf2_one_iteration :
    pbkdf2 [0x70, 0x61, 0x73, 0x73, 0x77, 0x6f, 0x72, 0x64] [0x73, 0x61, 0x6c, 0x74] 1 20
      = hex 20 0x0c60c80f961f0e71f3a9b524af6012062fe037a6 := by decide +kernel

/-- S4.2. -/
theorem test_pbkdf2_two_iterations :
    pbkdf2 [0x70, 0x61, 0x73, 0x73, 0x77, 0x6f, 0x72, 0x64] [0x73, 0x61, 0x6c, 0x74] 2 20
      = hex 20 0xea6c014dc72d6f8ccd1ed92ace1d41f0d8de8957 := by decide +kernel

/-- S5.1. -/
theorem test_aes_block :
    aesE (count 0 32) (hex 16 0x00112233445566778899aabbccddeeff) = hex 16 0x8ea2b7ca516745bfeafc49904b496089
      ∧ aesD (count 0 32) (hex 16 0x8ea2b7ca516745bfeafc49904b496089)
          = hex 16 0x00112233445566778899aabbccddeeff := by decide +kernel

/-! ### One step of each command -/

/-- V3.7: ITER 9999. -/
theorem test_kdf64_policy : record (after quiet (exec .kdf64 (kdf 16 9999))) = (0x00000502, 0) := by decide

/-- V3.9b: the range check comes first. -/
theorem test_kdf64_range :
    record (after quiet (exec .kdf64 { kdf 15 9999 with srcAddr := 0xFFFFFFF0, srcLen := 0x20 })) = (0x00000202, 0) := by
  decide

/-- V3.8, of KDF32: AUX_LEN 15 from valid keys. -/
theorem test_kdf32_policy :
    record (after quiet (exec .kdf32 { withRegions (keyed false) 0 8 0x100 15 0 with iter := 10000 }))
      = (0x0000051A, 0) := by decide

/-- V3.48. -/
theorem test_loadkeys_loads :
    (fun t : State => (t.encKey.bytes, t.macKey.bytes, t.mem, record t))
        (after quiet (exec .loadkeys (withRegions (quiet.writeMem 0 (count 0 64)) 0 64 0 0 0)))
      = (count 0 32, count 0x20 32, Memory.zeroed, (0x0000001A, 0)) := by decide +kernel

/-- V3.49 and V3.51. -/
theorem test_loadkeys_errors :
    record (after quiet (exec .loadkeys (withRegions quiet 0 63 0 0 0))) = (0x00000602, 0)
      ∧ record (after quiet (exec .loadkeys (withRegions quiet 0x001FFFF0 64 0 0 0))) = (0x00000202, 0) := by decide

/-- V3.52. -/
theorem test_zeroize :
    (fun t : State => (t.encKey, t.macKey, record t)) (after quiet (exec .zeroize (keyed true)))
      = (Key.zero, Key.zero, (0x00000002, 0)) := by decide

/-- V3.53. -/
theorem test_zeroizeAll :
    (fun t : State => (t.encKey, t.mem, record t)) (after quiet (exec .zeroizeAll (cipher true 3 [1, 2, 3])))
      = (Key.zero, Memory.zeroed, (0x00000002, 0)) := by decide +kernel

/-- V3.20: one byte "A". -/
theorem test_aesenc_one_byte :
    (fun t : State => (t.mem.readBytes 0x300 16, record t)) (after quiet (exec .aesenc (cipher false 1 [0x41])))
      = (hex 16 0xf8648e1cc922b4ac8366dbc111fc9fd7, (0x0000001A, 16)) := by decide +kernel

/-- V3.26b and V3.26g. -/
theorem test_aesenc_errors :
    record (after quiet (exec .aesenc { cipher false 16 [] with dstAddr := 0x20F })) = (0x0000031A, 0)
      ∧ record (after quiet (exec .aesenc { cipher false 16 [] with encKeyValid := false })) = (0x00000412, 0) := by
  decide +kernel

/-- V3.25e: the IV changed so that the raw plaintext ends in 10 01. -/
theorem test_aesdec_good_padding :
    (fun t : State => (t.mem.readBytes 0x300 16, record t))
        (after quiet (exec .aesdec
          ((cipher true 16 (hex 16 0xe9c3ef8ab23453e6f0749cd636e7a88e)).writeMem 0x10F [0x1E])))
      = (List.replicate 15 0x10 ++ [0x00], (0x0000001A, 15)) := by decide +kernel

/-- V3.25b: bad padding over an output region that held EE×16. -/
theorem test_aesdec_bad_padding :
    (fun t : State => (t.mem.readBytes 0x300 16, record t))
        (after quiet (exec .aesdec
          (((cipher true 16 (hex 16 0xe9c3ef8ab23453e6f0749cd636e7a88e)).writeMem 0x10F [0x1F]).writeMem 0x300
            (List.replicate 16 0xEE))))
      = (zeros 16, (0x0000081A, 0)) := by decide +kernel

/-- V3.28, and V3.35 (OVERLAP). -/
theorem test_hmac :
    (fun t : State => (t.mem.readBytes 0x300 32, record t)) (after quiet (exec .hmac (cipher false 3 [0x61, 0x62, 0x63])))
        = (hex 32 0xf0133729c4163dede81e21cd47839256da58171238c8a0d874397c73b14e1e47, (0x0000001A, 32))
      ∧ record (after quiet (exec .hmac (withRegions (keyed false) 0 8 0 0 0))) = (0x0000031A, 0) := by decide +kernel

/-- V3.27's tag is verified: RESULT and AUTH are set, as in V3.30. -/
theorem test_hmacverify_match :
    record (after quiet (exec .hmacverify
        (withRegions ((keyed false).writeMem 0x400
          (hex 32 0xd38b42096d80f45f826b44a9d5607de72496a415d3f4a1a8c88e3bb9da8dc1cb)) 0 0 0x400 32 0)))
      = (0x0000003E, 0) := by decide +kernel

/-- V3.31 and V3.33: a tag of 31 bytes clears AUTH and is no error; without a key, NO_KEY. -/
theorem test_hmacverify_length_and_key :
    record (after quiet (exec .hmacverify (withRegions (keyed true) 0 0 0x400 31 0))) = (0x0000001A, 0)
      ∧ record (after quiet (exec .hmacverify (withRegions quiet 0 0 0x400 32 0))) = (0x00000402, 0) := by decide

/-- V3.38 and V3.42. -/
theorem test_ctcmp :
    record (after quiet (exec .ctcmp
        (withRegions ((quiet.writeMem 0 [0x61, 0x62, 0x63]).writeMem 8 [0x61, 0x62, 0x63]) 0 3 8 3 0)))
        = (0x00000006, 0)
      ∧ record (after quiet (exec .ctcmp (withRegions (quiet.writeMem 0 [1, 1]) 0 2 8 2 0))) = (0x00000002, 0) := by
  decide

/-- V3.46 and V3.47: an empty region at and after the end of the buffer. -/
theorem test_ctcmp_bounds :
    record (after quiet (exec .ctcmp (withRegions quiet 0x00200000 0 0x00200000 0 0))) = (0x00000006, 0)
      ∧ record (after quiet (exec .ctcmp (withRegions quiet 0x00200001 0 0 0 0))) = (0x00000202, 0) := by decide

/-- V3.54 and V3.55 from both keys valid and AUTH set (BAD_CMD), and V3.26f (NOT_AUTH). -/
theorem test_bad_command_and_not_auth :
    record (after quiet (completion ((keyed true).accept 0x06))) = (0x0000011A, 0)
      ∧ record (after quiet (completion ((keyed true).accept 0x110))) = (0x0000011A, 0)
      ∧ record (after quiet (completion ((cipher false 16 []).accept 0x11))) = (0x0000071A, 0) := by decide +kernel

/-! ### The host port, BUSY and reset -/

/-- V3.58 to V3.60. -/
theorem test_buffer_window :
    (fun t : State => (t.mem.readBytes 0 4, (after t (hostRead t 0x01000000 .w16)).resp,
        (after t (hostRead t 0x01000002 .w8)).resp)) (after quiet (hostWrite quiet 0x01000000 (.word 0x64636261)))
      = ([0x61, 0x62, 0x63, 0x64], .data (.half 0x6261), .data (.byte 0x63)) := by decide

/-- V3.61 to V3.66. -/
theorem test_bus_errors :
    hostRead quiet 0x01000001 .w16 = .fault .busErrorBuffer ∧ hostRead quiet 0x01000002 .w32 = .fault .busErrorBuffer
      ∧ hostRead quiet 0x004 .w16 = .fault .busErrorRegister ∧ hostRead quiet 0x006 .w32 = .fault .busErrorRegister
      ∧ hostRead quiet 0x030 .w32 = .fault .busErrorUnmapped
      ∧ hostRead quiet 0x01200000 .w8 = .fault .busErrorUnmapped := ⟨rfl, rfl, rfl, rfl, rfl, rfl⟩

/-- V3.67 and V3.68. -/
theorem test_id_register :
    hostRead quiet 0 .w32 = .next { quiet with resp := .data (.word 0x53534B31) }
      ∧ hostWrite quiet 0 (.word 7) = .next { quiet with resp := .written }
      ∧ hostWrite quiet 0x02C (.word 7) = .next { quiet with resp := .written } := ⟨rfl, rfl, rfl⟩

/-- V3.70 to V3.72. -/
theorem test_busy :
    (busyWith 1).statusWord = 0x00000001
      ∧ (fun t : State => (t.srcAddr, t.statusWord)) (after quiet (hostWrite (busyWith 1) 0x010 (.word 0x500)))
          = (0, 0x00000041)
      ∧ (fun t : State => (t.resp, t.busyViol)) (after quiet (hostRead (busyWith 1) 0x01000000 .w32))
          = (.data (.word 0), true) := by decide

/-- V3.74 and V3.75. -/
theorem test_status_write :
    ({ keyed false with isDone := true, busyViol := true } : State).statusWord = 0x0000005A
      ∧ (({ keyed false with isDone := true, busyViol := true } : State).writeStatus 0x42).statusWord
          = 0x00000018 := by decide

/-- V3.76 to V3.78: IRQ_EN with a ZEROIZE. -/
theorem test_irq :
    ({ quiet with irqEn := true } : State).irq = false
      ∧ (after quiet (completion { busyWith 4 with irqEn := true })).irq = true
      ∧ ((after quiet (completion { busyWith 4 with irqEn := true })).writeStatus 2).irq = false := by decide

/-- V3.79 and V3.80: a soft reset while IDLE keeps the buffer; while BUSY with HMAC its write region is unspecified
and the byte after it is kept. -/
theorem test_soft_reset :
    (after quiet (hostWrite (cipher true 3 [1, 2, 3]) 0x004 (.word 3))).statusWord = 0
      ∧ (after quiet (hostWrite (cipher true 3 [1, 2, 3]) 0x004 (.word 3))).mem = (cipher true 3 [1, 2, 3]).mem
      ∧ ((withRegions quiet 0 0 0 0 0x10).accept 0x20).softReset.mem.drawn = (List.range' 0x10 32).map (fun a => (a, 1))
      ∧ ((withRegions quiet 0 0 0 0 0x10).accept 0x20).softReset.mem.read 0x30 = 0 := by decide +kernel

/-- A host program of R138 as the schedule of its accesses: ZEROIZE_ALL with its WAIT is three events. -/
theorem test_program_line : lineEvents Platform.atDefault (.cmd .zeroizeAll)
    = [.access (.write 0x00C (.word 5)), .sequencer, .access (.read 0x008 .w32)] := by decide

/-! ### The duties of the host (70_reset_and_hazards.md R387) -/

/-- One call by a host that keeps its duties: both operands of a comparison are written, one of them is wiped after it,
and every outcome is read. -/
def dutifulCall : List HostLine :=
  [.cmd .zeroizeAll, .readReg .outLen, .writeBytes 0 [0x61, 0x62, 0x63], .src 0 3, .aux 8 3, .cmd .ctcmp, .readReg .outLen,
    .writeBytes 0 [0, 0, 0], .cmd .zeroize]

/-- The host that wrote "abc" at 0 keeps every duty, from the reset state on. -/
theorem test_duties_kept : HostDuties [{ addr := 0, len := 3 }] HostRecord.start (State.reset.withProgram dutifulCall) :=
  ⟨by decide +kernel, by decide +kernel, by decide +kernel, by decide +kernel, by decide +kernel, by decide +kernel⟩

/-- One host for each duty it breaks: AUX never written; a read region of bytes that reset left unspecified; an operand
written while BUSY; a STATUS and an OUT_LEN not read; no ZEROIZE; a secret left in the buffer. -/
theorem test_duties_broken :
    let run (lines : List HostLine) : List Event := programEvents Platform.atDefault lines
    keptAlong operandsDuty (run [.cmd .zeroizeAll, .src 0 3, .cmd .ctcmp]) HostRecord.start State.reset = false
      ∧ keptAlong operandsDuty (run [.src 0 3, .aux 8 3, .cmd .ctcmp]) HostRecord.start State.reset = false
      ∧ keptAlong waitDuty (run [.writeReg .cmd 4, .writeReg .srcAddr 0]) HostRecord.start State.reset = false
      ∧ keptAlong statusDuty [regWriteEvent Platform.atDefault .cmd 4, .sequencer, regWriteEvent Platform.atDefault .cmd 4]
          HostRecord.start State.reset = false
      ∧ keptAlong outLenDuty (run [.cmd .zeroize, .cmd .zeroize]) HostRecord.start State.reset = false
      ∧ zeroizeDuty (run [.cmd .ctcmp]) HostRecord.start State.reset = false
      ∧ wipeDuty [{ addr := 0, len := 3 }] (run [.writeBytes 0 [1, 2, 3], .cmd .zeroize]) HostRecord.start State.reset
          = false := by decide +kernel

/-! ### The end of a run (70_reset_and_hazards.md R388) -/

/-- A keyed block of the least size whose host writes a command word and makes no other access; `rest` comes after. -/
def lastWrites (v : Word) (rest : List Event) : State :=
  { keyed false with
    cfg := { memBytes := 64, base := 0 }, schedule := regWriteEvent Platform.atDefault .cmd v :: rest }

/-- The run of a CMD write is over after the completion, listed or not, and before a power-on reset that comes later. -/
theorem test_run_ends_at_completion :
    ((lastWrites 4 []).runEnd.map fun t => (t.isDone, t.seq, t.schedule)) = some (true, .idle, [])
      ∧ ((lastWrites 4 [.sequencer, .sequencer, .powerOn]).runEnd.map fun t => (t.isDone, t.seq, t.schedule))
          = some (true, .idle, [.sequencer, .powerOn])
      ∧ ¬ RunOver (lastWrites 4 [.sequencer]) ∧ ¬ RunOver ((lastWrites 4 []).accept 4)
      ∧ RunOver { keyed false with schedule := [.sequencer, .powerOn] } := by decide +kernel

/-- Its end state: DONE in STATUS, ID, the buffer of 64 zero bytes, the keys wiped; a bus error has no end state. -/
theorem test_end_state :
    ((lastWrites 4 [.sequencer, .powerOn]).runOutcome.map fun e =>
        (e.registers.take 3, e.buffer, e.encKey.bytes, e.macKey.bytes))
        = some ([(.id, 0x53534B31), (.ctrl, 0), (.status, 0x00000002)], zeros 64, zeros 32, zeros 32)
      ∧ (atEvent quiet (.access (.read 0x030 .w32))).runOutcome = none := by decide +kernel

/-! ### Witnesses: states and operands that meet the hypotheses of the obligations -/

/-- What AESENC of three bytes leaves. -/
def sealed : State := after quiet (exec .aesenc (cipher false 3 [1, 2, 3]))

/-- The state an authorised AESDEC of `sealed` starts from. -/
def toOpen : State := { withRegions sealed 0x300 16 0 0 0x400 with auth := true }

theorem witness_StepRunsTheDecodedCommand :
    (busyWith 4).seq = .busy ∧ decode (busyWith 4).cmdl = .instr .zeroize ∧ (busyWith 4).schedule = []
      ∧ (atEvent (busyWith 4) .sequencer).seq = .busy ∧ decode (atEvent (busyWith 4) .sequencer).cmdl = .instr .zeroize
      ∧ (atEvent (busyWith 4) .sequencer).schedule = .sequencer :: [] := by decide

theorem witness_StepPerformsTheNextAccess :
    (atEvent quiet (.access (regRead quiet .id))).schedule = .access (regRead quiet .id) :: []
      ∧ quiet.seq = .idle ∧ quiet.schedule = [] := by decide

theorem witness_AcceptanceLatchesTheWord : quiet.seq = .idle ∧ (busyWith 1).seq = .busy := by decide

theorem witness_IllegalWordEndsWithBadCmd :
    decode (busyWith 0).cmdl = .illegal .unassignedOpcode
      ∧ decode (busyWith 0x110).cmdl = .illegal .reservedBits := by decide

/-- One state for each clause: a range at its first failing length and an overlap by one byte; -/
theorem witness_ChecksAreMadeInTheCommonOrder_region :
    ¬ RangeOk .ctcmp (withRegions quiet 0x00200001 0 0 0 0)
      ∧ RangeOk .aesenc { cipher false 16 [] with dstAddr := 0x20F }
      ∧ ¬ OverlapOk .aesenc { cipher false 16 [] with dstAddr := 0x20F } := by decide +kernel

/-- no key, and no AUTH; -/
theorem witness_ChecksAreMadeInTheCommonOrder_key :
    (RangeOk .hmac (withRegions quiet 0 8 0 0 8) ∧ OverlapOk .hmac (withRegions quiet 0 8 0 0 8)
        ∧ ¬ KeyOk .hmac (withRegions quiet 0 8 0 0 8))
      ∧ RangeOk .aesdec (cipher false 16 []) ∧ OverlapOk .aesdec (cipher false 16 [])
      ∧ KeyOk .aesdec (cipher false 16 []) ∧ ¬ AuthOk .aesdec (cipher false 16 []) := by
  refine ⟨⟨?_, ?_, ?_⟩, ?_, ?_, rfl, ?_⟩ <;> first | decide +kernel | exact Bool.false_ne_true

/-- a count one short, and every check passed. -/
theorem witness_ChecksAreMadeInTheCommonOrder_parameter :
    (RangeOk .kdf64 (kdf 16 9999) ∧ OverlapOk .kdf64 (kdf 16 9999) ∧ KeyOk .kdf64 (kdf 16 9999)
        ∧ AuthOk .kdf64 (kdf 16 9999) ∧ ¬ ParamOk .kdf64 (kdf 16 9999))
      ∧ RangeOk .aesdec (cipher true 16 []) ∧ OverlapOk .aesdec (cipher true 16 [])
      ∧ KeyOk .aesdec (cipher true 16 []) ∧ AuthOk .aesdec (cipher true 16 [])
      ∧ ParamOk .aesdec (cipher true 16 []) := by
  refine ⟨⟨?_, ?_, trivial, ?_, fun h => ?_⟩, ?_, ?_, rfl, ?_, ?_, ?_⟩ <;>
    first | decide +kernel | exact absurd h.1 (by decide)

theorem witness_ErrorsAreThoseOfTheTable :
    (∃ t, completion ((kdf 15 10000).accept 1) = .next t ∧ t.err = .policy)
      ∧ decode ((kdf 15 10000).accept 1).cmdl = .instr .kdf64
      ∧ (∃ t, completion (busyWith 0) = .next t) ∧ decode (busyWith 0).cmdl = .illegal .unassignedOpcode :=
  ⟨⟨_, rfl, rfl⟩, by decide, ⟨_, rfl⟩, by decide⟩

/-- An error with the buffer untouched, and the padding failure. -/
theorem witness_AnErrorChangesNothingElse :
    (∃ t, exec .loadkeys (withRegions quiet 0 63 0 0 0) = .next t ∧ t.err = .length)
      ∧ (after quiet (exec .aesdec (cipher true 16 []))).err = .integrity := ⟨⟨_, rfl, rfl⟩, by decide +kernel⟩

theorem witness_CompletionRecordsTheOutcome :
    (∃ t, exec .zeroize quiet = .next t ∧ t.err = .noError)
      ∧ ∃ t, exec .ctcmp quiet = .next t ∧ t.err = .noError ∧ t.result = true := ⟨⟨_, rfl, rfl⟩, ⟨_, rfl, rfl, rfl⟩⟩

/-- The least legal count and salt, a count and a salt one short, and a salt that runs past the buffer by a byte. -/
theorem witness_Kdf64DerivesBothKeys :
    ((kdf 16 10000).src.InRange (kdf 16 10000).cfg.memBytes ∧ (kdf 16 10000).aux.InRange (kdf 16 10000).cfg.memBytes
        ∧ 10000 ≤ (kdf 16 10000).iter.toNat ∧ 16 ≤ (kdf 16 10000).auxLen.toNat)
      ∧ ((kdf 16 9999).aux.InRange (kdf 16 9999).cfg.memBytes ∧ (kdf 16 9999).iter.toNat < 10000)
      ∧ ((kdf 15 10000).aux.InRange (kdf 15 10000).cfg.memBytes ∧ (kdf 15 10000).auxLen.toNat < 16)
      ∧ ¬ (kdf 0x00200001 10000).aux.InRange (kdf 0x00200001 10000).cfg.memBytes := by decide

theorem witness_Kdf32DerivesTheSigningKey :
    ((kdf 16 10000).src.InRange (kdf 16 10000).cfg.memBytes ∧ (kdf 16 10000).aux.InRange (kdf 16 10000).cfg.memBytes
        ∧ 10000 ≤ (kdf 16 10000).iter.toNat ∧ 16 ≤ (kdf 16 10000).auxLen.toNat)
      ∧ (kdf 16 9999).iter.toNat < 10000 ∧ (kdf 15 10000).auxLen.toNat < 16
      ∧ ¬ (kdf 0x00200001 10000).aux.InRange (kdf 0x00200001 10000).cfg.memBytes := by decide

/-- The same passphrase, salt (sixteen zero bytes) and count at other places of the buffer; and a KDF32 out of range. -/
theorem witness_ShortDerivationIsAPrefix :
    let s := kdf 16 10000
    let s' : State := { withRegions quiet 0x80 0 0x40 16 0 with iter := 10000 }
    let r : State := { withRegions quiet 0x00200001 0 0x40 16 0 with iter := 10000 }
    (s'.readRegion s'.src = s.readRegion s.src ∧ s'.readRegion s'.aux = s.readRegion s.aux ∧ s'.iter = s.iter
        ∧ RangeOk .kdf32 s')
      ∧ (r.readRegion r.src = s.readRegion s.src ∧ ¬ RangeOk .kdf32 r)
      ∧ ∃ t u, exec .kdf64 s = .next t ∧ exec .kdf32 s' = .next u ∧ t.err = .noError ∧ u.err = .noError :=
  ⟨by decide +kernel, by decide +kernel, _, _, rfl, rfl, rfl, rfl⟩

theorem witness_TrailingZerosDoNotChangeHmac : (count 0 32).length + 32 ≤ 64 ∧ 64 < (count 0 65).length := by decide

theorem witness_LoadkeysLoadsAndWipesTheSource :
    ((withRegions quiet 0x001FFFC0 64 0 0 0).src.InRange 0x00200000 ∧ (withRegions quiet 0x001FFFC0 64 0 0 0).srcLen.toNat = 64)
      ∧ ¬ (withRegions quiet 0x001FFFC1 64 0 0 0).src.InRange 0x00200000
      ∧ ((withRegions quiet 0 65 0 0 0).src.InRange 0x00200000 ∧ (withRegions quiet 0 65 0 0 0).srcLen.toNat ≠ 64) := by
  decide

theorem witness_AesDecryptionUndoesEncryption : (count 0 16).length = 16 := by decide

/-- The raw plaintexts of V3.25b to V3.25f: pad byte 00, pad byte 0x11, a wrong byte 14, p = 1, a wrong byte 0. -/
theorem witness_PaddingCheckAcceptsExactlyPaddedStrings :
    let ten := List.replicate 15 (0x10 : Byte)
    (16 ≤ (ten ++ [0x10]).length ∧ (ten ++ [0x10]).length % 16 = 0)
      ∧ padOk (ten ++ [0x00]) = false ∧ padOk (ten ++ [0x11]) = false ∧ padOk (ten.take 14 ++ [0x01, 0x10]) = false
      ∧ padOk (ten ++ [0x01]) = true ∧ padOk ([0x11] ++ ten) = false := by decide +kernel

theorem witness_CbcDecryptionUndoesEncryption : (count 0 16).length = 16 := by decide

theorem witness_IvChangeReachesOnlyTheFirstBlock :
    (count 0 16).length = 16 ∧ (List.replicate 16 (1 : Byte)).length = 16 ∧ (count 0 32).length % 16 = 0
      ∧ count 0 32 ≠ [] := by decide

/-- The result clause with the output against the end of its source, and the three errors. -/
theorem witness_AesencEncryptsTheSource :
    ((cipher false 16 []).cfg.wf ∧ RangeOk .aesenc { cipher false 16 [] with dstAddr := 0x210 }
        ∧ ¬ (({ cipher false 16 [] with dstAddr := 0x210 } : State).dst 32).Overlaps (cipher false 16 []).src
        ∧ ¬ (({ cipher false 16 [] with dstAddr := 0x210 } : State).dst 32).Overlaps (cipher false 16 []).ivRegion
        ∧ (cipher false 16 []).encKeyValid = true)
      ∧ ¬ RangeOk .aesenc { cipher false 16 [] with dstAddr := 0x001FFFE1 }
      ∧ (RangeOk .aesenc { cipher false 16 [] with dstAddr := 0x20F }
          ∧ ¬ OverlapOk .aesenc { cipher false 16 [] with dstAddr := 0x20F })
      ∧ (RangeOk .aesenc { cipher false 16 [] with encKeyValid := false }
          ∧ OverlapOk .aesenc { cipher false 16 [] with encKeyValid := false }) := by decide +kernel

/-- V3.19's ciphertext with its IV. -/
theorem witness_AesdecDecryptsWhenAuthorised :
    let s := cipher true 16 (hex 16 0xe9c3ef8ab23453e6f0749cd636e7a88e)
    RangeOk .aesdec s ∧ ¬ (s.dst s.srcLen.toNat).Overlaps s.src ∧ ¬ (s.dst s.srcLen.toNat).Overlaps s.ivRegion
      ∧ s.encKeyValid = true ∧ s.auth = true ∧ s.srcLen.toNat ≠ 0 ∧ s.srcLen.toNat % 16 = 0
      ∧ padOk (cbcDecRaw s.encKey.bytes (s.readRegion s.ivRegion) (s.readRegion s.src)) = true := by decide +kernel

theorem witness_BadPaddingZeroesTheOutput :
    let s := cipher true 16 []
    RangeOk .aesdec s ∧ OverlapOk .aesdec s ∧ s.encKeyValid = true ∧ s.auth = true ∧ s.srcLen.toNat ≠ 0
      ∧ s.srcLen.toNat % 16 = 0
      ∧ padOk (cbcDecRaw s.encKey.bytes (s.readRegion s.ivRegion) (s.readRegion s.src)) = false := by decide +kernel

/-- V3.25g and V3.25h. -/
theorem witness_CiphertextMustBeWholeBlocks :
    (RangeOk .aesdec (cipher true 15 []) ∧ OverlapOk .aesdec (cipher true 15 []) ∧ (cipher true 15 []).encKeyValid = true
        ∧ (cipher true 15 []).auth = true ∧ (cipher true 15 []).srcLen.toNat % 16 ≠ 0)
      ∧ (RangeOk .aesdec (cipher true 0 []) ∧ OverlapOk .aesdec (cipher true 0 [])
          ∧ (cipher true 0 []).srcLen.toNat = 0) := by decide +kernel

theorem witness_AesdecNeedsTheAuthLatch :
    (cipher false 16 []).auth = false ∧ RangeOk .aesdec (cipher false 16 []) ∧ OverlapOk .aesdec (cipher false 16 [])
      ∧ (cipher false 16 []).encKeyValid = true := by decide +kernel

theorem witness_AesdecRecoversWhatAesencSealed :
    (∃ t, exec .aesenc (cipher false 3 [1, 2, 3]) = .next t ∧ t.err = .noError)
      ∧ toOpen.encKey = (cipher false 3 [1, 2, 3]).encKey ∧ toOpen.encKeyValid = true ∧ toOpen.auth = true
      ∧ toOpen.srcLen.toNat = 16 * ((cipher false 3 [1, 2, 3]).srcLen.toNat / 16 + 1)
      ∧ toOpen.readRegion toOpen.src = sealed.mem.readBytes 0x300 16
      ∧ toOpen.readRegion toOpen.ivRegion
          = (cipher false 3 [1, 2, 3]).readRegion (cipher false 3 [1, 2, 3]).ivRegion
      ∧ RangeOk .aesdec toOpen ∧ OverlapOk .aesdec toOpen :=
  ⟨⟨_, rfl, rfl⟩, by decide +kernel⟩

/-- The result clause with the tag against the end of its source and of the buffer, and the three errors. -/
theorem witness_HmacWritesTheTag :
    ((withRegions (keyed false) 0x001FFFD8 8 0 0 0x001FFFE0).src.InRange 0x00200000
        ∧ ((withRegions (keyed false) 0x001FFFD8 8 0 0 0x001FFFE0).dst 32).InRange 0x00200000
        ∧ ¬ ((withRegions (keyed false) 0x001FFFD8 8 0 0 0x001FFFE0).dst 32).Overlaps
            (withRegions (keyed false) 0x001FFFD8 8 0 0 0x001FFFE0).src
        ∧ (withRegions (keyed false) 0x001FFFD8 8 0 0 0x001FFFE0).macKeyValid = true)
      ∧ ¬ RangeOk .hmac (withRegions (keyed false) 0 8 0 0 0x001FFFE1)
      ∧ (RangeOk .hmac (withRegions (keyed false) 0 8 0 0 7) ∧ ¬ OverlapOk .hmac (withRegions (keyed false) 0 8 0 0 7))
      ∧ (RangeOk .hmac (withRegions quiet 0 8 0 0 8) ∧ OverlapOk .hmac (withRegions quiet 0 8 0 0 8)
          ∧ (withRegions quiet 0 8 0 0 8).macKeyValid = false) := by decide +kernel

theorem witness_HmacverifySetsResultAndAuth :
    ((withRegions (keyed false) 0 0 0x001FFFE0 32 0).src.InRange 0x00200000
        ∧ (withRegions (keyed false) 0 0 0x001FFFE0 32 0).aux.InRange 0x00200000
        ∧ (withRegions (keyed false) 0 0 0x001FFFE0 32 0).macKeyValid = true)
      ∧ ¬ RangeOk .hmacverify (withRegions (keyed false) 0 0 0x001FFFE1 32 0)
      ∧ (RangeOk .hmacverify (withRegions quiet 0 0 0 32 0)
          ∧ (withRegions quiet 0 0 0 32 0).macKeyValid = false) := by decide +kernel

theorem witness_CtcmpComparesTheRegions :
    ((withRegions quiet 0x00200000 0 0x001FFFF0 16 0).src.InRange 0x00200000
        ∧ (withRegions quiet 0x00200000 0 0x001FFFF0 16 0).aux.InRange 0x00200000)
      ∧ ¬ (withRegions quiet 0x00200001 0 0 0 0).src.InRange 0x00200000 := by decide

theorem witness_CommandsWriteOnlyTheirRegion :
    (∃ t, exec .hmac (withRegions (keyed false) 0 8 0 0 8) = .next t)
      ∧ ¬ (writeRegion .hmac (withRegions (keyed false) 0 8 0 0 8)).Has 7
      ∧ ¬ (writeRegion .hmac (withRegions (keyed false) 0 8 0 0 8)).Has 40 := ⟨⟨_, rfl⟩, by decide +kernel⟩

/-- A step that loads keys, one that resets, and one that keeps them. -/
theorem witness_KeysChangeOnlyByTheirWriters :
    (∃ t, step ((withRegions quiet 0 64 0 0 0).accept 3) = .next t) ∧ (∃ t, step (atEvent (keyed true) .powerOn) = .next t)
      ∧ ∃ t, step (atEvent quiet (.access (regRead quiet .id))) = .next t := ⟨⟨_, rfl⟩, ⟨_, rfl⟩, ⟨_, rfl⟩⟩

/-- V3.30's case: the step that sets AUTH. -/
theorem witness_AuthLatchIsSetOnlyByAMatchingVerify :
    let s := (withRegions ((keyed false).writeMem 0x400
      (hex 32 0xd38b42096d80f45f826b44a9d5607de72496a415d3f4a1a8c88e3bb9da8dc1cb)) 0 0 0x400 32 0).accept 0x21
    (∃ t, completion s = .next t) ∧ (∃ t, step s = .next t) ∧ s.auth = false ∧ (after s (step s)).auth = true :=
  ⟨⟨_, rfl⟩, ⟨_, rfl⟩, by decide +kernel, by decide +kernel⟩

theorem witness_HostAccessNeverShowsAKey :
    hostAccess (.read 0x030 .w32) (keyed true) = .fault .busErrorUnmapped
      ∧ ∃ t, hostAccess (regRead quiet .status) (keyed true) = .next t := ⟨rfl, ⟨_, rfl⟩⟩

/-- A step with a next state, and one that faults. -/
theorem witness_CommandLatchIsUnobservableWhileIdle :
    ((atEvent quiet (.access (regRead quiet .cmd))).seq = .idle
        ∧ ∃ t, step (atEvent quiet (.access (regRead quiet .cmd))) = .next t)
      ∧ (atEvent quiet (.access (.read 0x030 .w32))).seq = .idle
      ∧ step (atEvent quiet (.access (.read 0x030 .w32))) = .fault .busErrorUnmapped := ⟨⟨rfl, _, rfl⟩, rfl, rfl⟩

theorem witness_CtrlWriteEnablesOrResets :
    (0x00000001 : Word).getLsbD 1 = false ∧ (0x00000003 : Word).getLsbD 1 = true := by decide

theorem witness_RegisterWritesHoldOrAreIgnored :
    Reg.srcAddr ∈ operandRegs ∧ Reg.iter ∈ operandRegs ∧ quiet.seq = .idle ∧ Reg.id ∈ [Reg.id, Reg.outLen] := by decide

/-- The last byte, half-word and word of the buffer, while BUSY. -/
theorem witness_BusyBlockRefusesAccesses :
    (busyWith 1).seq = .busy ∧ Reg.cmd ∈ refusedRegs ∧ (busyWith 1).cfg.wf ∧ BufAccess (busyWith 1) 0x001FFFFF .w8
      ∧ BufAccess (busyWith 1) 0x001FFFFE (Datum.half 5).width ∧ BufAccess (busyWith 1) 0x001FFFFC .w32 := by decide

theorem witness_BufferWindowIsLittleEndian :
    quiet.cfg.wf ∧ quiet.seq = .idle ∧ BufAccess quiet 0 (Datum.word 5).width ∧ BufAccess quiet 0x001FFFFF .w8 := by
  decide

/-- The first and last offsets of each range. -/
theorem witness_IllegalAccessesAreBusErrors :
    quiet.cfg.wf ∧ 0x01FFFFFF < 0x02000000 ∧ (0x30 ≤ 0x30 ∧ 0x00FFFFFF < 0x01000000)
      ∧ 0x01000000 + quiet.cfg.memBytes ≤ 0x01200000 ∧ (0x2F < 0x30 ∧ 0x2F % 4 ≠ 0) ∧ Width.w8 ≠ .w32
      ∧ (0x01000001 < 0x01000000 + quiet.cfg.memBytes ∧ 0x01000001 % Width.w16.bytes ≠ 0) := by decide

theorem witness_InterruptFollowsDone : ∃ t, completion (busyWith 4) = .next t := ⟨_, rfl⟩

theorem witness_ResetClearsRegistersAndKeys :
    (0x00000002 : Word).getLsbD 1 = true ∧ quiet.seq = .idle
      ∧ (atEvent (keyed true) .powerOn).schedule = .powerOn :: [] := by decide

/-- The bytes beside HMAC's output region at 0x10 are outside it. -/
theorem witness_ResetAbandonsARunningCommand :
    let s := (withRegions quiet 0 0 0 0 0x10).accept 0x20
    s.seq = .busy ∧ decode s.cmdl = .instr .hmac ∧ ¬ (writeRegion .hmac s).Has 0x0F ∧ ¬ (writeRegion .hmac s).Has 0x30
      ∧ decode (busyWith 0).cmdl = .illegal .unassignedOpcode := by decide

/-- A state with keys that meets the invariant, and a step of it. -/
theorem witness_EveryStepKeepsTheInvariant :
    StateInv ((withRegions quiet 0 64 0 0 0).accept 3)
      ∧ ∃ t, step ((withRegions quiet 0 64 0 0 0).accept 3) = .next t :=
  ⟨⟨by decide, by decide, by decide, by decide, by decide, by decide,
    ⟨by decide, by decide, by decide, fun k h => by cases h⟩, by decide⟩, ⟨_, rfl⟩⟩

/-- A ZEROIZE under way whose host reads STATUS, is refused a write and resets: the completion comes first in the one
schedule, the reset in the other. -/
theorem witness_BusyBlockReachesItsCompletion :
    let s : State := { busyWith 4 with
      schedule := [regReadEvent Platform.atDefault .status, regWriteEvent Platform.atDefault .srcAddr 5, .sequencer] }
    let r : State := { busyWith 4 with
      schedule := [regReadEvent Platform.atDefault .status, regWriteEvent Platform.atDefault .ctrl 2, .sequencer] }
    s.seq = .busy ∧ (∀ a, .access a ∈ s.schedule → Answers s a)
      ∧ r.seq = .busy ∧ (∀ a, .access a ∈ r.schedule → Answers r a) := by
  refine ⟨rfl, ?_, rfl, ?_⟩ <;>
  · intro a ha
    simp only [List.mem_cons, List.not_mem_nil, or_false, reduceCtorEq, regReadEvent, regWriteEvent, Event.access.injEq] at ha
    rcases ha with rfl | rfl <;> intro f h <;> cases h

end Sys2Proof.Tests
end

section
/-! SUPPORT. Proofs of the statements about the state (10_state.md): the invariant, who writes the keys and the AUTH
latch, what the host can tell apart, the register file, irq and the reset state. -/

namespace Sys2Proof.Machine

/-! ### The two endings of a completion -/

/-- No command ends with the code NONE as its error. -/
theorem noError_notMem_possibleErrors (i : Instr) : ErrCode.noError ∉ possibleErrors i := by
  cases i <;> decide

/-- The buffer m is that of s, or that of s after one write inside MEM_BYTES. -/
def WrittenInRange (s : State) (m : Memory) : Prop :=
  m = s.mem ∨ ∃ a v, a + v.length ≤ s.cfg.memBytes ∧ m = s.mem.write a v

/-- All a completion can be, by its ending: the failing end of 60_exceptions.md R350, after at most one write of the
buffer, or the success of the decoded command. -/
theorem completion_endings {s t : State} (h : completion s = .next t) :
    (∃ e m, e ≠ .noError ∧ WrittenInRange s m ∧ t = ({ s with mem := m } : State).raiseError e)
      ∨ ∃ i body result outLen, decode s.cmdl = .instr i ∧ CommandSuccess i s t body result outLen := by
  rcases completion_cases h with ⟨i, hi, he⟩ | ⟨_, -, rfl⟩
  · rcases exec_outcome he with ⟨e, hmem, rfl⟩ | ⟨rfl, hrange, -, rfl⟩ | ⟨body, result, outLen, hs⟩
    · refine .inl ⟨e, s.mem, ?_, .inl rfl, rfl⟩
      rintro rfl
      exact noError_notMem_possibleErrors i hmem
    · have hout : s.dstAddr.toNat + s.srcLen.toNat ≤ s.cfg.memBytes :=
        hrange (s.dst s.srcLen.toNat) (by simp [writeRegion])
      exact .inl ⟨.integrity, _, by decide, .inr ⟨_, _, by simpa using hout, rfl⟩, rfl⟩
    · exact .inr ⟨i, body, result, outLen, hi, hs⟩
  · exact .inl ⟨.badCmd, s.mem, by decide, .inl rfl, rfl⟩

/-- Every completion ends with DONE set. -/
theorem completion_isDone {s t : State} (h : completion s = .next t) : t.isDone = true := by
  rcases completion_endings h with ⟨e, m, -, -, rfl⟩ | ⟨i, body, result, outLen, -, hs⟩
  · rfl
  · rw [hs.ended, State.complete_isDone]

/-- No completion changes IRQ_EN. -/
theorem completion_irqEn {s t : State} (h : completion s = .next t) : t.irqEn = s.irqEn := by
  rcases completion_endings h with ⟨e, m, -, -, rfl⟩ | ⟨i, body, result, outLen, -, hs⟩
  · rfl
  · obtain ⟨-, -, hirq, -⟩ := hs.control
    rw [hs.ended, State.complete_irqEn, hirq]

/-- A completion that changes the keys is the success of a command that writes them (10_state.md R53). -/
theorem completion_keys {s t : State} (h : completion s = .next t) :
    SameKeys s t ∨ ∃ i, decode s.cmdl = .instr i ∧ writesKeys i = true ∧ t.err = .noError := by
  rcases completion_endings h with ⟨e, m, -, -, rfl⟩ | ⟨i, body, result, outLen, hi, hs⟩
  · exact .inl ⟨rfl, rfl, rfl, rfl⟩
  · have hend := hs.ended
    subst hend
    cases hw : writesKeys i with
    | false => exact .inl (hs.keys hw)
    | true => exact .inr ⟨i, hi, hw, rfl⟩

/-- AUTH after a completion (10_state.md R41). -/
theorem completion_auth_iff {s t : State} (h : completion s = .next t) :
    t.auth = true ↔ decode s.cmdl = .instr .hmacverify ∧ t.err = .noError ∧ t.result = true := by
  rcases completion_endings h with ⟨e, m, he, -, rfl⟩ | ⟨i, body, result, outLen, hi, hs⟩
  · simp [he]
  · rw [hs.ended]
    simp [hi]

/-! ### The registers after a reset -/

/-- A key register whose 32 bytes are zero is the zero register. -/
theorem Key.eq_zero_of_bytes {k : Key} (h : k.bytes = zeros 32) : k = Key.zero :=
  Vector.toList_inj.mp (h.trans Key.bytes_zero.symm)

theorem State.reset_registersReset : RegistersReset State.reset := by
  have hkey : Key.bytes (Vector.replicate 32 0) = zeros 32 := Key.bytes_zero
  exact ⟨rfl, rfl, rfl, rfl, rfl, rfl, rfl, rfl, rfl, rfl, rfl, rfl, rfl, rfl, rfl, rfl, rfl, hkey, hkey⟩

/-- A soft reset gives every register its reset value (70_reset_and_hazards.md R381). -/
theorem State.softReset_registersReset (s : State) : RegistersReset s.softReset := State.reset_registersReset

/-- A power-on reset gives every register its reset value (70_reset_and_hazards.md R381). -/
theorem State.powerOnReset_registersReset (s : State) : RegistersReset s.powerOnReset := State.reset_registersReset

/-! ### The invariant at a reset -/

/-- A block whose registers have their reset values meets the invariant where its platform is legal and its buffer is
sound. -/
theorem StateInv.of_registersReset {t : State} (h : RegistersReset t) (hp : t.cfg.wf) (hb : BufferSound t) :
    StateInv t := by
  obtain ⟨hseq, -, -, -, hencv, -, hauth, -, herr, -, -, -, -, -, -, -, hout, henc, hmac⟩ := h
  exact
    { platform := hp
      keys := ⟨fun _ => Key.eq_zero_of_bytes henc, fun _ => Key.eq_zero_of_bytes hmac⟩
      busy := by simp [hseq]
      errors := by simp [herr]
      latch := by simp [hauth]
      encMac := by simp [hencv]
      buffer := hb
      outLen := by simp [hout] }

/-- Draws made before n were made before n + 1. -/
theorem Memory.drawnBelow_succ {m : Memory} {n : Nat} (h : m.drawnBelow n) : m.drawnBelow (n + 1) :=
  ⟨fun d hd => Nat.lt_succ_of_lt (h.1 d hd), fun k hk => Nat.lt_succ_of_lt (h.2 k hk)⟩

/-- A soft reset keeps the buffer sound: it keeps the buffer, or scrambles the write region of the abandoned command by
the next draw. -/
theorem State.softReset_bufferSound {s : State} (h : BufferSound s) : BufferSound s.softReset := by
  obtain ⟨hwf, hin, hdraws⟩ := h
  unfold BufferSound
  rw [State.softReset_mem, State.softReset_cfg, State.softReset_draws]
  rcases s.memAfterSoftReset_cases with hm | ⟨i, -, -, hm⟩ <;> rw [hm]
  · exact ⟨hwf, hin, Memory.drawnBelow_succ hdraws⟩
  · exact ⟨Memory.wf_scramble hwf _ _ _ hdraws, Memory.within_scramble hin _ _,
      Memory.drawnBelow_scramble hdraws _ _⟩

/-- A buffer wholly unspecified by a draw already made is sound. -/
theorem Memory.unspecified_sound (k n : Nat) :
    (Memory.unspecified k).wf ∧ (Memory.unspecified k).within n ∧ (Memory.unspecified k).drawnBelow (k + 1) := by
  refine ⟨Memory.wf_unspecified k, by simp [Memory.within, Memory.unspecified], ?_⟩
  simp [Memory.drawnBelow, Memory.unspecified]

theorem StateInv.softReset {s : State} (h : StateInv s) : StateInv s.softReset :=
  .of_registersReset s.softReset_registersReset h.platform (State.softReset_bufferSound h.buffer)

theorem StateInv.powerOnReset {s : State} (h : StateInv s) : StateInv s.powerOnReset :=
  .of_registersReset s.powerOnReset_registersReset h.platform (Memory.unspecified_sound s.draws _)

/-- The default platform is legal (00_scope.md R7). -/
theorem Platform.atDefault_wf : Platform.atDefault.wf := by decide

/-! ### The invariant at a completion -/

/-- A write inside MEM_BYTES keeps the buffer sound. -/
theorem BufferSound.writeMem {s : State} (h : BufferSound s) {a : Nat} {v : ByteString}
    (hv : v ≠ [] → a + v.length ≤ s.cfg.memBytes) : BufferSound (s.writeMem a v) := by
  obtain ⟨hwf, hin, hdraws⟩ := h
  exact ⟨Memory.wf_write hwf a v, Memory.within_write hin a v hv, Memory.drawnBelow_write hdraws a v⟩

theorem BufferSound.of_writtenInRange {s : State} (h : BufferSound s) {m : Memory} (hm : WrittenInRange s m) :
    BufferSound { s with mem := m } := by
  rcases hm with rfl | ⟨a, v, hv, rfl⟩
  · exact h
  · exact h.writeMem fun _ => hv

/-- A state of the same platform, draws and buffer has as sound a buffer. -/
theorem BufferSound.congr {s t : State} (h : BufferSound s) (hc : t.cfg = s.cfg) (hd : t.draws = s.draws)
    (hm : t.mem = s.mem) : BufferSound t := by
  unfold BufferSound
  rw [hc, hd, hm]
  exact h

/-- A failing end, after at most one write of the buffer, keeps the invariant. -/
theorem StateInv.raiseError {s : State} (h : StateInv s) (e : ErrCode) {m : Memory} (hm : WrittenInRange s m) :
    StateInv (({ s with mem := m } : State).raiseError e) where
  platform := h.platform
  keys := h.keys
  busy := by simp
  errors := fun _ => ⟨rfl, rfl, rfl⟩
  latch := by simp
  encMac := h.encMac
  buffer := h.buffer.of_writtenInRange hm
  outLen := Nat.zero_le _

/-- The key clauses of the invariant after a command's effect. -/
theorem CommandSuccess.body_keys {i : Instr} {s t body : State} {result : Bool} {outLen : Nat}
    (hs : CommandSuccess i s t body result outLen) (h : StateInv s) : KeysConsistent body ∧ EncWithMac body := by
  cases hw : writesKeys i with
  | true => exact hs.newKeys hw
  | false =>
    obtain ⟨henc, hmac, hencv, hmacv⟩ := hs.keys hw
    unfold KeysConsistent EncWithMac
    rw [henc, hmac, hencv, hmacv]
    exact ⟨h.keys, h.encMac⟩

/-- The buffer after a command's effect is sound: it is the old one, the old one with the write region written, or
all zero. -/
theorem CommandSuccess.body_bufferSound {i : Instr} {s t body : State} {result : Bool} {outLen : Nat}
    (hs : CommandSuccess i s t body result outLen) (h : BufferSound s) : BufferSound body := by
  obtain ⟨hcfg, -, -, -, hdraws, -, -⟩ := hs.control
  have hregion : (writeRegion i s).InRange s.cfg.memBytes := hs.range _ (by simp)
  rcases hs.buffer with hm | ⟨v, hv, hm⟩ | ⟨-, hm⟩
  · exact h.congr hcfg hdraws hm
  · exact (h.writeMem fun _ => by rw [hv]; exact hregion).congr hcfg hdraws hm
  · have hz : BufferSound { s with mem := Memory.zeroed } :=
      ⟨Memory.wf_zeroed, by simp [Memory.within, Memory.zeroed], by simp [Memory.drawnBelow, Memory.zeroed]⟩
    exact hz.congr hcfg hdraws hm

/-- A success keeps the invariant. AUTH is set by HMACVERIFY alone, which checked that MAC_KEY is valid and leaves the
keys as they are. -/
theorem CommandSuccess.stateInv {i : Instr} {s t body : State} {result : Bool} {outLen : Nat}
    (hs : CommandSuccess i s t body result outLen) (h : StateInv s) : StateInv t := by
  obtain ⟨hcfg, -, -, -, -, -, -⟩ := hs.control
  obtain ⟨hkeys, hencMac⟩ := hs.body_keys h
  rw [hs.ended]
  exact
    { platform := by rw [State.complete_cfg, hcfg]; exact h.platform
      keys := hkeys
      busy := by simp
      errors := by simp
      latch := by
        intro hauth
        simp only [State.complete_auth, Bool.and_eq_true, beq_iff_eq] at hauth
        obtain ⟨rfl, hresult⟩ := hauth
        obtain ⟨-, -, -, hmacv⟩ := hs.keys rfl
        exact ⟨hmacv.trans (hs.verified rfl), fun _ => hresult⟩
      encMac := hencMac
      buffer := hs.body_bufferSound h.buffer
      outLen := by
        rw [State.complete_outLen, State.complete_cfg, hcfg, BitVec.toNat_ofNat]
        exact (Nat.mod_le _ _).trans hs.outLenLe }

theorem StateInv.completion {s t : State} (h : StateInv s) (hc : completion s = .next t) : StateInv t := by
  rcases completion_endings hc with ⟨e, m, -, hm, rfl⟩ | ⟨i, body, result, outLen, -, hs⟩
  · exact h.raiseError e hm
  · exact hs.stateInv h

theorem StateInv.sequencerTurn {s t : State} (h : StateInv s) (ht : sequencerTurn s = .next t) : StateInv t := by
  rcases sequencerTurn_cases ht with ⟨-, hc⟩ | ⟨-, rfl⟩
  · exact h.completion hc
  · exact h

/-! ### The invariant at a host access -/

/-- The invariant speaks of neither the schedule nor the answer of the port, BUSY_VIOL or IRQ_EN. -/
theorem StateInv.unread {s : State} (h : StateInv s) (l : List Event) (p : Response) (b e : Bool) :
    StateInv { s with schedule := l, resp := p, busyViol := b, irqEn := e } := { h with }

theorem StateInv.accept {s : State} (h : StateInv s) (v : Word) : StateInv (s.accept v) where
  platform := h.platform
  keys := h.keys
  busy := by simp
  errors := by simp
  latch hauth := ⟨(h.latch hauth).1, by simp⟩
  encMac := h.encMac
  buffer := h.buffer
  outLen := Nat.zero_le _

theorem StateInv.writeStatus {s : State} (h : StateInv s) (v : Word) : StateInv (s.writeStatus v) :=
  { h with
    busy := fun hb => by
      obtain ⟨hdone, hrest⟩ := h.busy hb
      exact ⟨by simp [hdone], hrest⟩ }

theorem StateInv.setOperand {s : State} (h : StateInv s) (r : Reg) (v : Word) : StateInv (s.setOperand r v) := by
  cases r <;> exact { h with }

theorem StateInv.writeMem {s : State} (h : StateInv s) {a : Nat} {v : ByteString}
    (hv : a + v.length ≤ s.cfg.memBytes) : StateInv (s.writeMem a v) :=
  { h with buffer := h.buffer.writeMem fun _ => hv }

theorem StateInv.writeReg {s : State} (h : StateInv s) (r : Reg) (v : Word) : StateInv (s.writeReg r v) := by
  rcases writeReg_cases s r v with ⟨-, -, hw⟩ | ⟨-, -, hw⟩ | ⟨-, -, hw⟩ | ⟨-, hw⟩ | ⟨-, hw⟩ | ⟨-, hw⟩ | hw <;> rw [hw]
  · exact h.accept v
  · exact h.softReset
  · exact h.unread _ _ _ _
  · exact h.writeStatus v
  · exact h.setOperand r v
  · exact h.unread _ _ _ _
  · exact h

theorem StateInv.hostRead {s t : State} (h : StateInv s) {addr : Nat} {w : Width} (ht : hostRead s addr w = .next t) :
    StateInv t := by
  rcases hostRead_cases ht with ⟨_, -, rfl⟩ | ⟨_, -, -, rfl⟩ | ⟨_, -, -, rfl⟩ <;> exact h.unread _ _ _ _

theorem StateInv.hostWrite {s t : State} (h : StateInv s) {addr : Nat} {d : Datum}
    (ht : hostWrite s addr d = .next t) : StateInv t := by
  rcases hostWrite_cases ht with ⟨r, -, rfl⟩ | ⟨_, -, -, rfl⟩ | ⟨a, ha, -, rfl⟩
  · exact (h.writeReg r _).unread _ _ _ _
  · exact h.unread _ _ _ _
  · obtain ⟨-, hin⟩ := State.target_buffer_inv ha
    exact (h.writeMem (v := datumBytes d) (by simpa using hin)).unread _ _ _ _

theorem StateInv.hostAccess {s t : State} (h : StateInv s) {a : Access} (ht : hostAccess a s = .next t) :
    StateInv t := by
  cases a with
  | read addr w => exact h.hostRead ht
  | write addr d => exact h.hostWrite ht

/-- Settles O58: the reset state has reset registers and a buffer wholly unspecified by draw 0. -/
theorem invariantHoldsAtReset : Obligations.InvariantHoldsAtReset :=
  .of_registersReset State.reset_registersReset Platform.atDefault_wf (Memory.unspecified_sound 0 _)

/-- Settles O59, by the event of the step: the sequencer's turn, a host access or a power-on reset. -/
theorem everyStepKeepsTheInvariant : Obligations.EveryStepKeepsTheInvariant := by
  intro s t h ht
  have hsched (rest : List Event) : StateInv { s with schedule := rest } := h.unread _ _ _ _
  rcases step_cases ht with ⟨rest, -, hturn⟩ | ⟨a, rest, -, haccess⟩ | ⟨rest, -, rfl⟩
  · exact (hsched rest).sequencerTurn hturn
  · exact (hsched rest).hostAccess haccess
  · exact (hsched rest).powerOnReset

/-! ### What the host port answers -/

/-- A 32-bit read of a register answers its value (20_memory.md R89). -/
theorem hostAccess_regRead (s : State) (r : Reg) :
    hostAccess (regRead s r) s = .next { s with resp := .data (.word (s.readReg r)) } := by
  simp [hostAccess, hostRead, State.target_reg]

/-- A 32-bit write to a register is that register's write (20_memory.md R89, R90). -/
theorem hostAccess_regWrite (s : State) (r : Reg) (v : Word) :
    hostAccess (regWrite s r v) s = .next { s.writeReg r v with resp := .written } := by
  simp [hostAccess, hostWrite, Datum.width, datumWord, State.target_reg]

@[simp] theorem State.writeReg_ctrl (s : State) (v : Word) : s.writeReg .ctrl v = s.writeCtrl v := rfl

@[simp] theorem State.writeReg_status (s : State) (v : Word) : s.writeReg .status v = s.writeStatus v := rfl

theorem State.writeReg_cmd (s : State) (v : Word) :
    s.writeReg .cmd v = if s.isBusy then s.refuseAccess else s.accept v := rfl

/-- An operand register is written while IDLE and refused while BUSY. -/
theorem State.writeReg_operand {s : State} {r : Reg} {v : Word} (h : r ∈ operandRegs) :
    s.writeReg r v = if s.isBusy then s.refuseAccess else s.setOperand r v := by
  simp only [operandRegs, List.mem_cons, List.not_mem_nil, or_false] at h
  rcases h with rfl | rfl | rfl | rfl | rfl | rfl | rfl <;> rfl

/-- Only a bus error stops a host access. -/
theorem hostAccess_fault_iff {s : State} {a : Access} {f : Fault} :
    hostAccess a s = .fault f ↔ Access.target s a = .error f := by
  cases a with
  | read addr w =>
    unfold hostAccess hostRead Access.target
    cases ht : s.target addr w <;> cases s.isBusy <;> simp [ht]
  | write addr d =>
    unfold hostAccess hostWrite Access.target
    cases ht : s.target addr d.width <;> cases s.isBusy <;> simp [ht]

/-- The target of an access depends on the platform parameters alone. -/
theorem Access.target_congr {s t : State} (h : t.cfg = s.cfg) (a : Access) : Access.target t a = Access.target s a := by
  cases a <;> exact State.target_congr h _ _

/-- A write whose target is CTRL, with SRST set, is one of the two reset events. -/
theorem isReset_of_target_ctrl {s : State} {addr : Nat} {d : Datum} (ht : s.target addr d.width = .reg .ctrl)
    (hv : (datumWord d).getLsbD 1 = true) : IsReset s.cfg (.access (.write addr d)) := by
  obtain ⟨rfl, hw⟩ := State.target_reg_inv ht
  cases d with
  | word v => exact .inr ⟨v, hv, rfl⟩
  | byte v => cases hw
  | half v => cases hw

/-! ### Completion, reset or neither -/

/-- A register write is a soft reset, or it leaves the keys and AUTH. -/
theorem State.writeReg_keys_auth (s : State) (r : Reg) (v : Word) :
    (r = .ctrl ∧ v.getLsbD 1 = true ∧ s.writeReg r v = s.softReset)
      ∨ (SameKeys s (s.writeReg r v) ∧ (s.writeReg r v).auth = s.auth) := by
  have hsame : SameKeys s s ∧ s.auth = s.auth := ⟨⟨rfl, rfl, rfl, rfl⟩, rfl⟩
  rcases writeReg_cases s r v with ⟨-, -, hw⟩ | hreset | ⟨-, -, hw⟩ | ⟨-, hw⟩ | ⟨-, hw⟩ | ⟨-, hw⟩ | hw
  · exact .inr (hw ▸ hsame)
  · exact .inl hreset
  · exact .inr (hw ▸ hsame)
  · exact .inr (hw ▸ hsame)
  · right
    rw [hw]
    cases r <;> exact hsame
  · exact .inr (hw ▸ hsame)
  · exact .inr (hw.symm ▸ hsame)

/-- A host access resets the block, or leaves the keys and AUTH. -/
theorem hostAccess_keys_auth {s t : State} {a : Access} (h : hostAccess a s = .next t) :
    (IsReset s.cfg (.access a) ∧ RegistersReset t) ∨ (SameKeys s t ∧ t.auth = s.auth) := by
  have hsame : SameKeys s s ∧ s.auth = s.auth := ⟨⟨rfl, rfl, rfl, rfl⟩, rfl⟩
  cases a with
  | read addr w =>
    rcases hostRead_cases h with ⟨_, -, rfl⟩ | ⟨_, -, -, rfl⟩ | ⟨_, -, -, rfl⟩ <;> exact .inr hsame
  | write addr d =>
    rcases hostWrite_cases h with ⟨r, ht, rfl⟩ | ⟨_, -, -, rfl⟩ | ⟨_, -, -, rfl⟩
    · rcases s.writeReg_keys_auth r (datumWord d) with ⟨rfl, hv, hw⟩ | hkeep
      · rw [hw]
        exact .inl ⟨isReset_of_target_ctrl ht hv, s.softReset_registersReset⟩
      · exact .inr hkeep
    · exact .inr hsame
    · exact .inr hsame

/-- THE THREE KINDS OF STEP: the completion of a BUSY block on the sequencer's turn, a reset, or a step that leaves the
keys and AUTH. -/
theorem step_kinds {s t : State} (h : step s = .next t) :
    (∃ rest, (s.schedule = [] ∨ s.schedule = .sequencer :: rest) ∧ s.seq = .busy
        ∧ completion { s with schedule := rest } = .next t)
      ∨ (∃ e rest, s.schedule = e :: rest ∧ IsReset s.cfg e ∧ RegistersReset t)
      ∨ (SameKeys s t ∧ t.auth = s.auth) := by
  rcases step_cases h with ⟨rest, hl, hturn⟩ | ⟨a, rest, hl, haccess⟩ | ⟨rest, hl, rfl⟩
  · rcases sequencerTurn_cases hturn with ⟨hb, hc⟩ | ⟨-, rfl⟩
    · exact .inl ⟨rest, hl.imp_left And.left, hb, hc⟩
    · exact .inr (.inr ⟨⟨rfl, rfl, rfl, rfl⟩, rfl⟩)
  · rcases hostAccess_keys_auth haccess with ⟨hreset, hregs⟩ | hkeep
    · exact .inr (.inl ⟨_, rest, hl, hreset, hregs⟩)
    · exact .inr (.inr hkeep)
  · exact .inr (.inl ⟨_, rest, hl, .inl rfl, State.powerOnReset_registersReset _⟩)

theorem RegistersReset.keys {t : State} (h : RegistersReset t) :
    t.encKey.bytes = zeros 32 ∧ t.macKey.bytes = zeros 32 := by
  obtain ⟨-, -, -, -, -, -, -, -, -, -, -, -, -, -, -, -, -, hkeys⟩ := h
  exact hkeys

theorem RegistersReset.auth {t : State} (h : RegistersReset t) : t.auth = false := by
  obtain ⟨-, -, -, -, -, -, hauth, -⟩ := h
  exact hauth

/-- Settles O42: a completion changes the keys only as a success of a writer, a reset zeroes them, and no other step
reaches them. -/
theorem keysChangeOnlyByTheirWriters : Obligations.KeysChangeOnlyByTheirWriters := by
  intro s t ht
  rcases step_kinds ht with ⟨rest, hl, hb, hc⟩ | ⟨e, rest, hl, hreset, hregs⟩ | ⟨hkeep, -⟩
  · rcases completion_keys hc with hkeep | ⟨i, hi, hw, herr⟩
    · exact .inl hkeep
    · have hturn : s.schedule = [] ∨ ∃ rest, s.schedule = .sequencer :: rest := hl.imp_right fun hl => ⟨rest, hl⟩
      exact .inr (.inl ⟨i, hb, hi, hw, hturn, completion_idle hc, completion_isDone hc, herr⟩)
  · exact .inr (.inr ⟨e, rest, hl, hreset, hregs.keys⟩)
  · exact .inl hkeep

/-- Settles O43, by the same three kinds of step. -/
theorem authLatchIsSetOnlyByAMatchingVerify : Obligations.AuthLatchIsSetOnlyByAMatchingVerify := by
  refine ⟨fun s t hc => completion_auth_iff hc, fun s => ⟨s.softReset_auth, s.powerOnReset_auth⟩, fun s t ht => ?_⟩
  rcases step_kinds ht with ⟨rest, -, hb, hc⟩ | ⟨e, rest, hl, hreset, hregs⟩ | ⟨-, hkeep⟩
  · have hauth := completion_auth_iff hc
    exact .inr (.inl ⟨hb, completion_idle hc, hauth⟩)
  · exact .inr (.inr ⟨e, rest, hl, hreset, hregs.auth⟩)
  · exact .inl hkeep

/-! ### What the host port cannot see -/

/-- The outcome o' is the outcome o but for the change g: the same fault, or a next state that carries g on or undoes
it. -/
def AlikeUpTo (g : State → State) (o o' : Host.Outcome State Fault Refusal) : Prop :=
  (∀ f, o = .fault f ↔ o' = .fault f) ∧ ∀ t, o = .next t → o' = .next (g t) ∨ o' = .next t

/-- A next state and one that carries g on or undoes it are alike. -/
theorem AlikeUpTo.of_next {g : State → State} {o o' : Host.Outcome State Fault Refusal} {t : State} (h : o = .next t)
    (h' : o' = .next (g t) ∨ o' = .next t) : AlikeUpTo g o o' := by
  subst h
  refine ⟨fun f => ?_, fun u hu => Host.Outcome.next.inj hu ▸ h'⟩
  rcases h' with rfl | rfl <;> simp

/-- The change g of a block's state is BLIND at s: the host port finds the same platform, sequencer state, buffer and
register values; g commutes with what a host access does; acceptance carries it on or undoes it, and a soft reset undoes
it. -/
structure HostBlind (g : State → State) (s : State) : Prop where
  cfg : (g s).cfg = s.cfg
  seq : (g s).seq = s.seq
  mem : (g s).mem = s.mem
  readReg : ∀ r, (g s).readReg r = s.readReg r
  answer : ∀ (u : State) (p : Response), { g u with resp := p } = g { u with resp := p }
  refuse : (g s).refuseAccess = g s.refuseAccess
  writeMem : ∀ a v, (g s).writeMem a v = g (s.writeMem a v)
  writeStatus : ∀ v, (g s).writeStatus v = g (s.writeStatus v)
  enable : ∀ b, { g s with irqEn := b } = g { s with irqEn := b }
  setOperand : ∀ r v, (g s).setOperand r v = g (s.setOperand r v)
  accept : ∀ v, (g s).accept v = g (s.accept v) ∨ (g s).accept v = s.accept v
  softReset : (g s).softReset = s.softReset

theorem HostBlind.isBusy {g : State → State} {s : State} (hg : HostBlind g s) : (g s).isBusy = s.isBusy := by
  simp only [State.isBusy, hg.seq]

/-- A register write carries a blind change on or undoes it. -/
theorem HostBlind.writeReg {g : State → State} {s : State} (hg : HostBlind g s) (r : Reg) (v : Word) :
    (g s).writeReg r v = g (s.writeReg r v) ∨ (g s).writeReg r v = s.writeReg r v := by
  by_cases hr : r ∈ operandRegs
  · left
    rw [State.writeReg_operand hr, State.writeReg_operand hr, hg.isBusy]
    split
    · exact hg.refuse
    · exact hg.setOperand r v
  · cases r
    case id => exact .inl rfl
    case outLen => exact .inl rfl
    case status => exact .inl (hg.writeStatus v)
    case cmd =>
      rw [State.writeReg_cmd, State.writeReg_cmd, hg.isBusy]
      split
      · exact .inl hg.refuse
      · exact hg.accept v
    case ctrl =>
      rw [State.writeReg_ctrl, State.writeReg_ctrl]
      cases hv : v.getLsbD 1 with
      | true =>
        rw [State.writeCtrl_reset hv, State.writeCtrl_reset hv]
        exact .inr hg.softReset
      | false =>
        rw [State.writeCtrl_enable hv, State.writeCtrl_enable hv]
        exact .inl (hg.enable _)
    all_goals exact absurd (by decide) hr

/-- An access after a blind change leads to the changed next state, or to the same one. -/
theorem HostBlind.hostAccess_next {g : State → State} {s t : State} {a : Access} (hg : HostBlind g s)
    (h : hostAccess a s = .next t) : hostAccess a (g s) = .next (g t) ∨ hostAccess a (g s) = .next t := by
  have htarget (addr : Nat) (w : Width) : (g s).target addr w = s.target addr w := State.target_congr hg.cfg addr w
  cases a with
  | read addr w =>
    left
    change hostRead (g s) addr w = _
    unfold hostRead
    rw [htarget, hg.isBusy]
    rcases hostRead_cases h with ⟨r, ht, rfl⟩ | ⟨b, ht, hb, rfl⟩ | ⟨b, ht, hb, rfl⟩ <;> rw [ht]
    · simp only [hg.readReg, hg.answer]
    · simp only [hb, hg.refuse, hg.answer, if_true]
    · simp only [hb, Bool.false_eq_true, if_false]
      rw [hg.answer, hg.mem]
  | write addr d =>
    change hostWrite (g s) addr d = _ ∨ hostWrite (g s) addr d = _
    unfold hostWrite
    rw [htarget, hg.isBusy]
    rcases hostWrite_cases h with ⟨r, ht, rfl⟩ | ⟨b, ht, hb, rfl⟩ | ⟨b, ht, hb, rfl⟩ <;> rw [ht]
    · rcases hg.writeReg r (datumWord d) with hw | hw
      · exact .inl (by simp only [hw, hg.answer])
      · exact .inr (by simp only [hw])
    · exact .inl (by simp only [hb, hg.refuse, hg.answer, if_true])
    · exact .inl (by simp only [hb, hg.writeMem, hg.answer, Bool.false_eq_true, if_false])

/-- A host access does not see a blind change: bus errors depend on the platform alone. -/
theorem HostBlind.hostAccess {g : State → State} {s : State} (hg : HostBlind g s) (a : Access) :
    AlikeUpTo g (hostAccess a s) (hostAccess a (g s)) := by
  refine ⟨fun f => ?_, fun t => hg.hostAccess_next⟩
  rw [hostAccess_fault_iff, hostAccess_fault_iff, Access.target_congr hg.cfg]

/-- The state with other keys. -/
def State.withKeys (k1 k2 : Key) (s : State) : State := { s with encKey := k1, macKey := k2 }

/-- No host access sees the keys. -/
theorem State.withKeys_blind (k1 k2 : Key) (s : State) : HostBlind (State.withKeys k1 k2) s where
  cfg := rfl
  seq := rfl
  mem := rfl
  readReg r := by cases r <;> rfl
  answer _ _ := rfl
  refuse := rfl
  writeMem _ _ := rfl
  writeStatus _ := rfl
  enable _ := rfl
  setOperand r _ := by cases r <;> rfl
  accept _ := .inl rfl
  softReset := rfl

/-- The state with another command latch. -/
def State.withCmdl (v : Word) (s : State) : State := { s with cmdl := v }

/-- No host access sees the command latch of an idle block: acceptance overwrites it, and a soft reset abandons no
command. -/
theorem State.withCmdl_blind (v : Word) {s : State} (h : s.seq = .idle) : HostBlind (State.withCmdl v) s where
  cfg := rfl
  seq := rfl
  mem := rfl
  readReg r := by cases r <;> rfl
  answer _ _ := rfl
  refuse := rfl
  writeMem _ _ := rfl
  writeStatus _ := rfl
  enable _ := rfl
  setOperand r _ := by cases r <;> rfl
  accept _ := .inr rfl
  softReset := by
    have h' : (s.withCmdl v).seq = .idle := h
    rw [State.softReset_eq, State.softReset_eq, State.memAfterSoftReset_idle h, State.memAfterSoftReset_idle h']
    rfl

/-- Settles O44: the keys are a blind change of every state. -/
theorem hostAccessNeverShowsAKey : Obligations.HostAccessNeverShowsAKey := by
  intro a s k1 k2
  obtain ⟨hfault, hnext⟩ := (s.withKeys_blind k1 k2).hostAccess a
  refine ⟨hfault, fun t ht => ?_⟩
  rcases hnext t ht with ht' | ht'
  · exact ⟨t.withKeys k1 k2, ht', rfl, rfl, rfl⟩
  · exact ⟨t, ht', rfl, rfl, rfl⟩

/-- The step whose next event is a host access is that access. -/
theorem step_access {s : State} {a : Access} {rest : List Event} (h : s.schedule = .access a :: rest) :
    step s = hostAccess a { s with schedule := rest } := by
  simp [step, h]

/-- The step whose next event is a power-on reset is that reset. -/
theorem step_powerOn {s : State} {rest : List Event} (h : s.schedule = .powerOn :: rest) :
    step s = .next (State.powerOnReset { s with schedule := rest }) := by
  simp [step, h]

/-- A step of an idle block with no event left, or on the sequencer's turn, changes the schedule alone. -/
theorem step_idle {s : State} {rest : List Event} (hs : s.seq = .idle)
    (h : s.schedule = [] ∧ rest = [] ∨ s.schedule = .sequencer :: rest) :
    step s = .next { s with schedule := rest } := by
  rcases h with ⟨h, rfl⟩ | h
  · have hsame : { s with schedule := [] } = s := by rw [← h]
    rw [hsame]
    simp [step, sequencerTurn, h, hs]
  · simp [step, sequencerTurn, h, hs]

/-- No step of an idle block sees the command latch: a host access is blind to it, a power-on reset undoes the change,
and the sequencer does nothing. -/
theorem step_withCmdl {s : State} (hs : s.seq = .idle) (v : Word) :
    AlikeUpTo (State.withCmdl v) (step s) (step (s.withCmdl v)) := by
  have hs' : (s.withCmdl v).seq = .idle := hs
  have hsched : (s.withCmdl v).schedule = s.schedule := rfl
  cases hl : s.schedule with
  | nil => exact .of_next (step_idle hs (.inl ⟨hl, rfl⟩)) (.inl (step_idle hs' (.inl ⟨hsched.trans hl, rfl⟩)))
  | cons e rest =>
    cases e with
    | sequencer => exact .of_next (step_idle hs (.inr hl)) (.inl (step_idle hs' (.inr (hsched.trans hl))))
    | powerOn => exact .of_next (step_powerOn hl) (.inr (step_powerOn (hsched.trans hl)))
    | access a =>
      rw [step_access hl, step_access (hsched.trans hl)]
      exact (State.withCmdl_blind v (s := { s with schedule := rest }) hs).hostAccess a

/-- Settles O45: a step that carries the other command latch on, or undoes it, differs in nothing else. -/
theorem commandLatchIsUnobservableWhileIdle : Obligations.CommandLatchIsUnobservableWhileIdle := by
  intro s v hs
  obtain ⟨hfault, hnext⟩ := step_withCmdl hs v
  refine ⟨hfault, fun t ht => ?_⟩
  rcases hnext t ht with ht' | ht'
  · exact ⟨t.withCmdl v, ht', rfl⟩
  · exact ⟨t, ht', rfl⟩

/-! ### The register file -/

/-- An operand register holds the value written to it. -/
theorem State.readReg_setOperand_same (s : State) {r : Reg} (v : Word) (h : r ∈ operandRegs) :
    (s.setOperand r v).readReg r = v := by
  simp only [operandRegs, List.mem_cons, List.not_mem_nil, or_false] at h
  rcases h with rfl | rfl | rfl | rfl | rfl | rfl | rfl <;> rfl

/-- No register but the one written reads differently. -/
theorem State.readReg_setOperand_of_ne (s : State) {r r' : Reg} (v : Word) (h : r' ≠ r) :
    (s.setOperand r v).readReg r' = s.readReg r' := by
  cases r <;> cases r' <;> first | rfl | exact absurd rfl h

/-- An operand write changes nothing but the operand registers. -/
theorem State.setOperand_frame (s : State) (r : Reg) (v : Word) :
    { s.setOperand r v with
        srcAddr := s.srcAddr, srcLen := s.srcLen, auxAddr := s.auxAddr, auxLen := s.auxLen, dstAddr := s.dstAddr,
        ivAddr := s.ivAddr, iter := s.iter } = s := by
  cases r <;> rfl

/-- Settles O46: offsets and values stand in the definitions, and a read of a register reaches it. -/
theorem registerReadsHaveNoSideEffect : Obligations.RegisterReadsHaveNoSideEffect :=
  ⟨⟨rfl, rfl, rfl, rfl, rfl, rfl, rfl, rfl, rfl, rfl, rfl, rfl⟩, fun s r =>
    ⟨hostAccess_regRead s r, rfl, rfl, rfl, rfl, rfl, rfl, rfl, rfl, rfl, rfl, rfl, rfl⟩⟩

/-- The lowest bit of a word that ends in one more bit is that bit. -/
theorem getLsbD_append_bit_zero {n : Nat} (x : BitVec n) (b : BitVec 1) : (x ++ b).getLsbD 0 = b.getLsbD 0 := by
  rw [BitVec.getLsbD_append, if_pos Nat.one_pos]

/-- Above the lowest bit of a word that ends in one more bit stands the rest of the word. -/
theorem getLsbD_append_bit_succ {n : Nat} (x : BitVec n) (b : BitVec 1) (k : Nat) :
    (x ++ b).getLsbD (k + 1) = x.getLsbD k := by
  simp [BitVec.getLsbD_append]

@[simp] theorem flagBit_getLsbD_zero (b : Bool) : (flagBit b).getLsbD 0 = b := by
  simp [flagBit]

/-- The eight low bits of STATUS are its flags, bit 7 reserved (10_state.md R36). -/
theorem State.statusWord_flags (s : State) :
    s.statusWord.getLsbD 0 = (s.seq == .busy) ∧ s.statusWord.getLsbD 1 = s.isDone ∧ s.statusWord.getLsbD 2 = s.result
      ∧ s.statusWord.getLsbD 3 = s.encKeyValid ∧ s.statusWord.getLsbD 4 = s.macKeyValid
      ∧ s.statusWord.getLsbD 5 = s.auth ∧ s.statusWord.getLsbD 6 = s.busyViol ∧ s.statusWord.getLsbD 7 = false := by
  refine ⟨?_, ?_, ?_, ?_, ?_, ?_, ?_, ?_⟩
  case refine_8 =>
    simp only [State.statusWord, getLsbD_append_bit_succ, getLsbD_append_bit_zero]
    rfl
  all_goals
    simp only [State.statusWord, getLsbD_append_bit_succ, getLsbD_append_bit_zero, flagBit_getLsbD_zero, State.isBusy]

/-- Above its eight low bits STATUS holds ERR and zeros (10_state.md R36). -/
theorem State.statusWord_getLsbD_add_eight (s : State) (k : Nat) :
    s.statusWord.getLsbD (8 + k) = ((0 : BitVec 20) ++ s.err.code).getLsbD k := by
  rw [Nat.add_comm]
  simp only [State.statusWord, getLsbD_append_bit_succ]

/-- Bits 11:8 of STATUS are the code of ERR (10_state.md R36, 60_exceptions.md R347). -/
theorem State.statusWord_err (s : State) : s.statusWord.extractLsb' 8 4 = s.err.code := by
  ext k hk
  rw [BitVec.getElem_extractLsb', s.statusWord_getLsbD_add_eight, BitVec.getLsbD_append, if_pos hk,
    BitVec.getLsbD_eq_getElem hk]

/-- Bits 31:12 of STATUS read 0 (10_state.md R36). -/
theorem State.statusWord_reserved (s : State) : s.statusWord.extractLsb' 12 20 = 0 := by
  ext k hk
  have hadd : 12 + k = 8 + (4 + k) := by omega
  rw [BitVec.getElem_extractLsb', hadd, s.statusWord_getLsbD_add_eight, BitVec.getLsbD_append, if_neg (by omega)]
  simp

/-- Settles O47: the codes are the table's rows, and STATUS is cut into its flags, ERR and the reserved bits. -/
theorem statusBitsAreTheFlags : Obligations.StatusBitsAreTheFlags := by
  refine ⟨⟨rfl, rfl, rfl, rfl, rfl, rfl, rfl, rfl, rfl⟩, fun s => ?_⟩
  obtain ⟨h0, h1, h2, h3, h4, h5, h6, h7⟩ := s.statusWord_flags
  exact ⟨h0, h1, h2, h3, h4, h5, h6, h7, s.statusWord_err, s.statusWord_reserved⟩

/-- Settles O48: the write is `State.writeStatus`, which touches the two bits alone. -/
theorem statusWriteClearsOnlyItsTwoBits : Obligations.StatusWriteClearsOnlyItsTwoBits := by
  intro s v
  refine ⟨_, hostAccess_regWrite s .status v, ?_, ?_, rfl⟩ <;> simp

/-- CTRL reads IRQ_EN in bit 0 and 0 elsewhere (10_state.md R34). -/
theorem State.ctrlWord_toNat (s : State) : s.ctrlWord.toNat = if s.irqEn then 1 else 0 := by
  unfold State.ctrlWord flagBit
  cases s.irqEn <;> rfl

/-- Settles O49: with SRST clear the write sets IRQ_EN alone, with SRST set it is a soft reset. -/
theorem ctrlWriteEnablesOrResets : Obligations.CtrlWriteEnablesOrResets := by
  intro s v
  refine ⟨fun hv => ⟨_, hostAccess_regWrite s .ctrl v, ?_⟩, fun hv => ⟨_, hostAccess_regWrite s .ctrl v, ?_⟩,
    s.ctrlWord_toNat⟩ <;> rw [State.writeReg_ctrl]
  · rw [State.writeCtrl_enable hv]
    exact ⟨rfl, rfl⟩
  · rw [State.writeCtrl_reset hv]
    exact s.softReset_registersReset

/-- Settles O50: an operand write while IDLE is `State.setOperand`; ID and OUT_LEN have no write. -/
theorem registerWritesHoldOrAreIgnored : Obligations.RegisterWritesHoldOrAreIgnored := by
  refine ⟨fun s r v hr hs => ?_, fun s v r hr => ?_⟩
  · have hidle : s.isBusy = false := by simp [State.isBusy, hs]
    have hw : s.writeReg r v = s.setOperand r v := by simp [State.writeReg_operand hr, hidle]
    have haccess := hostAccess_regWrite s r v
    rw [hw] at haccess
    have hreads (u : State) (p : Response) (r' : Reg) : State.readReg { u with resp := p } r' = u.readReg r' := by
      cases r' <;> rfl
    refine ⟨_, haccess, ?_, fun r' hne => ?_, ?_⟩
    · rw [hreads, s.readReg_setOperand_same v hr]
    · rw [hreads, s.readReg_setOperand_of_ne v hne]
    · exact congrArg (fun u : State => { u with resp := s.resp }) (s.setOperand_frame r v)
  · rw [hostAccess_regWrite]
    simp only [List.mem_cons, List.not_mem_nil, or_false] at hr
    rcases hr with rfl | rfl <;> rfl

/-! ### The interrupt output and the reset state -/

/-- Settles O54: a completion sets DONE and keeps IRQ_EN; acceptance clears DONE, and a reset both. -/
theorem interruptFollowsDone : Obligations.InterruptFollowsDone := by
  refine ⟨fun s => rfl, fun s t hc => ?_, fun s v => ⟨?_, rfl, rfl⟩⟩
  · rw [State.irq, completion_isDone hc, completion_irqEn hc, Bool.and_true]
  · rw [State.irq, State.accept_isDone, Bool.and_false]

/-- Settles O55: the reset state is a closed term whose registers are the table's. -/
theorem resetStateHasTheTableValues : Obligations.ResetStateHasTheTableValues :=
  ⟨State.reset_registersReset, rfl, rfl, rfl, rfl, rfl⟩

end Sys2Proof.Machine
end

section
/-! SUPPORT. Proofs of the statements about memory (20_memory.md): the frame of the commands, the buffer window IDLE and
BUSY, the bus errors, and the access as one step. -/

namespace Sys2Proof.Machine

/-! ### The frame of a command -/

/-- Every outcome of a command keeps the operand registers and the control fields (20_memory.md R98). -/
theorem CommandOutcome.same_operands_control {i : Instr} {s t : State} (h : CommandOutcome i s t) :
    SameOperands s t ∧ SameControl s t := by
  rcases h with ⟨e, -, rfl⟩ | ⟨-, -, -, rfl⟩ | ⟨body, result, outLen, hs⟩
  · exact ⟨⟨rfl, rfl, rfl, rfl, rfl, rfl, rfl⟩, ⟨rfl, rfl, rfl, rfl, rfl, rfl, rfl⟩⟩
  · exact ⟨⟨rfl, rfl, rfl, rfl, rfl, rfl, rfl⟩, ⟨rfl, rfl, rfl, rfl, rfl, rfl, rfl⟩⟩
  · rw [hs.ended]
    exact ⟨hs.operands, hs.control⟩

/-- A command's success writes the string of its write region, or ZEROIZE_ALL clears the whole buffer, which is its
write region; either way a byte outside that region is kept. -/
theorem CommandSuccess.read_outside {i : Instr} {s t body : State} {result : Bool} {outLen : Nat}
    (hs : CommandSuccess i s t body result outLen) {a : Nat} (ha : a < s.cfg.memBytes)
    (hout : ¬ (writeRegion i s).Has a) : t.mem.read a = s.mem.read a := by
  rw [hs.ended, State.complete_mem]
  rcases hs.buffer with hm | ⟨v, hv, hm⟩ | ⟨rfl, -⟩
  · rw [hm]
  · rw [hm, Memory.read_write_outside _ _ _ _ (by rwa [hv])]
  · exact absurd ⟨Nat.zero_le a, by simpa [writeRegion] using ha⟩ hout

/-- Every buffer byte outside the write region of the command is kept. -/
theorem CommandOutcome.read_outside {i : Instr} {s t : State} (h : CommandOutcome i s t) {a : Nat}
    (ha : a < s.cfg.memBytes) (hout : ¬ (writeRegion i s).Has a) : t.mem.read a = s.mem.read a := by
  rcases h with ⟨e, -, rfl⟩ | ⟨rfl, -, -, rfl⟩ | ⟨body, result, outLen, hs⟩
  · rfl
  · rw [State.raiseError_mem, State.writeMem_mem]
    exact Memory.read_write_outside _ _ _ _ (by simpa [writeRegion] using hout)
  · exact hs.read_outside ha hout

/-- Settles O41, from what any command can do. -/
theorem commandsWriteOnlyTheirRegion : Obligations.CommandsWriteOnlyTheirRegion := by
  intro i s t h
  have ho := exec_outcome h
  obtain ⟨hops, hctl⟩ := ho.same_operands_control
  exact ⟨hops, hctl, fun a ha hout => ho.read_outside ha hout⟩

/-! ### The bytes of a value -/

@[simp] theorem datumZero_width (w : Width) : (datumZero w).width = w := by cases w <;> rfl

@[simp] theorem datumWord_datumZero (w : Width) : datumWord (datumZero w) = 0 := by cases w <;> rfl

@[simp] theorem Memory.readDatum_width (m : Memory) (a : Nat) (w : Width) : (m.readDatum a w).width = w := by
  cases w <;> rfl

/-- Byte k of a value in buffer order is bits 8k+7:8k (20_memory.md R86). -/
theorem datumBytes_getD {d : Datum} {k : Nat} (h : k < d.width.bytes) :
    (datumBytes d).getD k 0 = (datumWord d).extractLsb' (8 * k) 8 := by
  cases d with
  | byte v =>
    obtain rfl : k = 0 := Nat.lt_one_iff.mp h
    exact ((BitVec.extractLsb'_setWidth_of_le (by decide)).trans BitVec.extractLsb'_eq_self).symm
  | half v =>
    change k < 2 at h
    rw [datumWord, BitVec.extractLsb'_setWidth_of_le (by omega)]
    match k with
    | 0 => rfl
    | 1 => rfl
  | word v =>
    match k with
    | 0 => rfl
    | 1 => rfl
    | 2 => rfl
    | 3 => rfl

/-- A byte appended below shifts the bytes above it by one. -/
theorem extractByte_append_succ {n : Nat} (x : BitVec n) (b : Byte) (k : Nat) :
    (x ++ b).extractLsb' (8 * (k + 1)) 8 = x.extractLsb' (8 * k) 8 :=
  BitVec.extractLsb'_append_eq_of_le (by omega)

/-- Bits 8k+7:8k of a value read from the buffer are the byte at a + k (20_memory.md R86): the byte at a is appended
last, so byte k is the last one once k bytes below it are gone. -/
theorem Memory.readDatum_byte (m : Memory) (a : Nat) {w : Width} {k : Nat} (h : k < w.bytes) :
    (datumWord (m.readDatum a w)).extractLsb' (8 * k) 8 = m.read (a + k) := by
  cases w with
  | w8 =>
    obtain rfl : k = 0 := Nat.lt_one_iff.mp h
    exact (BitVec.extractLsb'_setWidth_of_le (by decide)).trans BitVec.extractLsb'_eq_self
  | w16 =>
    change k < 2 at h
    rw [Memory.readDatum, datumWord, BitVec.extractLsb'_setWidth_of_le (by omega)]
    match k with
    | 0 => exact BitVec.extractLsb'_append_eq_right
    | 1 => exact (extractByte_append_succ _ _ 0).trans BitVec.extractLsb'_eq_self
  | w32 =>
    rw [Memory.readDatum, datumWord]
    match k with
    | 0 => exact BitVec.extractLsb'_append_eq_right
    | 1 => exact (extractByte_append_succ _ _ 0).trans BitVec.extractLsb'_append_eq_right
    | 2 =>
      exact (extractByte_append_succ _ _ 1).trans <|
        (extractByte_append_succ _ _ 0).trans BitVec.extractLsb'_append_eq_right
    | 3 =>
      exact (extractByte_append_succ _ _ 2).trans <|
        (extractByte_append_succ _ _ 1).trans <| (extractByte_append_succ _ _ 0).trans BitVec.extractLsb'_eq_self

/-! ### The buffer window -/

theorem State.isBusy_of_busy {s : State} (h : s.seq = .busy) : s.isBusy = true := beq_iff_eq.mpr h

theorem State.isBusy_of_idle {s : State} (h : s.seq = .idle) : s.isBusy = false := by simp [State.isBusy, h]

/-- A legal buffer read answers the value at its offset while IDLE, and is refused with zeros while BUSY
(20_memory.md R86, R90). -/
theorem hostAccess_bufRead {s : State} (hc : s.cfg.wf) {a : Nat} {w : Width} (h : BufAccess s a w) :
    hostAccess (.read (bufAddr s a) w) s
      = .next (if s.isBusy then { s.refuseAccess with resp := .data (datumZero w) }
          else { s with resp := .data (s.mem.readDatum a w) }) := by
  simp only [hostAccess, hostRead, State.target_buffer hc h]
  cases s.isBusy <;> rfl

/-- A legal buffer write stores the bytes of its value while IDLE, and is refused while BUSY (20_memory.md R86, R90). -/
theorem hostAccess_bufWrite {s : State} (hc : s.cfg.wf) {a : Nat} {d : Datum} (h : BufAccess s a d.width) :
    hostAccess (.write (bufAddr s a) d) s
      = .next { (if s.isBusy then s.refuseAccess else s.writeMem a (datumBytes d)) with resp := .written } := by
  simp only [hostAccess, hostWrite, State.target_buffer hc h]
  cases s.isBusy <;> rfl

/-- CMD and the operand registers refuse a write while BUSY (20_memory.md R90). -/
theorem State.writeReg_refused {s : State} (hb : s.seq = .busy) {r : Reg} (hr : r ∈ refusedRegs) (v : Word) :
    s.writeReg r v = s.refuseAccess := by
  rcases List.mem_cons.mp hr with rfl | hop
  · rw [State.writeReg_cmd, if_pos (State.isBusy_of_busy hb)]
  · rw [State.writeReg_operand hop, if_pos (State.isBusy_of_busy hb)]

/-- Settles O51: the refusals, then the register accesses that BUSY does not change. -/
theorem busyBlockRefusesAccesses : Obligations.BusyBlockRefusesAccesses := by
  intro s hb
  refine ⟨fun r hr v => ?_, fun hc a d h => ?_, fun hc a w h => ?_, hostAccess_regRead s,
    hostAccess_regWrite s .ctrl, hostAccess_regWrite s .status⟩
  · rw [hostAccess_regWrite, State.writeReg_refused hb hr]
    rfl
  · rw [hostAccess_bufWrite hc h, if_pos (State.isBusy_of_busy hb)]
    rfl
  · refine ⟨datumZero w, datumZero_width w, datumWord_datumZero w, ?_⟩
    rw [hostAccess_bufRead hc h, if_pos (State.isBusy_of_busy hb)]
    rfl

/-- Settles O52: a write is `Memory.write` of the bytes of the value, a read `Memory.readDatum`. -/
theorem bufferWindowIsLittleEndian : Obligations.BufferWindowIsLittleEndian := by
  intro s a hc hs
  have hidle : ¬ s.isBusy = true := by simp [State.isBusy_of_idle hs]
  refine ⟨fun d h => ?_, fun w h => ?_⟩
  · rw [hostAccess_bufWrite hc h, if_neg hidle]
    refine ⟨_, rfl, fun k hk => ?_, fun x hx => ?_, rfl⟩
    · exact (Memory.read_write_inside _ _ _ _ (by simpa using hk)).trans (datumBytes_getD hk)
    · exact Memory.read_write_outside _ _ _ _ (by simpa using hx)
  · rw [hostAccess_bufRead hc h, if_neg hidle]
    exact ⟨_, s.mem.readDatum a w, rfl, rfl, s.mem.readDatum_width a w, fun k hk => s.mem.readDatum_byte a hk, rfl⟩

/-! ### Bus errors -/

/-- Inside the 32 MiB window the offset from BASE alone decides the target (20_memory.md R80). -/
theorem State.target_window (s : State) {off : Nat} (h : off < 0x02000000) (w : Width) :
    s.target (s.cfg.base + off) w = targetOfOffset s.cfg.memBytes off w := by
  unfold State.target Config.windowBytes
  rw [if_pos (by omega), Nat.add_sub_cancel_left]

/-- An offset in neither the register file nor the buffer window is unmapped (20_memory.md R83). -/
theorem targetOfOffset_unmapped {memBytes off : Nat} (w : Width)
    (h : (0x30 ≤ off ∧ off < 0x01000000) ∨ 0x01000000 + memBytes ≤ off) :
    targetOfOffset memBytes off w = .error .busErrorUnmapped := by
  unfold targetOfOffset Config.regFileBytes Config.bufBase
  rw [if_neg (by omega), if_neg (by omega)]

/-- Every register stands at a multiple of 4 (10_state.md R32). -/
theorem mod_four_of_regAt {off : Nat} {r : Reg} (h : regAt off = some r) : off % 4 = 0 := by
  rw [offset_of_regAt h]
  cases r <;> rfl

/-- An access of the register file of another width or alignment reaches no register (20_memory.md R84). -/
theorem targetOfOffset_badRegister {memBytes off : Nat} {w : Width} (hoff : off < 0x30)
    (h : w ≠ .w32 ∨ off % 4 ≠ 0) : targetOfOffset memBytes off w = .error .busErrorRegister := by
  unfold targetOfOffset Config.regFileBytes
  rw [if_pos hoff]
  split
  · rename_i r hr
    rcases h with hw | hal
    · exact absurd rfl hw
    · exact absurd (mod_four_of_regAt hr) hal
  · rfl

/-- The buffer window starts at a multiple of every width, so alignment in it is alignment of the offset. -/
theorem sub_bufBase_mod {off : Nat} (w : Width) (h : 0x01000000 ≤ off) :
    (off - 0x01000000) % w.bytes = off % w.bytes := by
  cases w <;> simp only [Width.bytes] <;> omega

/-- A misaligned access of the buffer window reaches no byte (20_memory.md R85). -/
theorem targetOfOffset_misalignedBuffer {memBytes off : Nat} {w : Width} (hlo : 0x01000000 ≤ off)
    (hhi : off < 0x01000000 + memBytes) (h : off % w.bytes ≠ 0) :
    targetOfOffset memBytes off w = .error .busErrorBuffer := by
  unfold targetOfOffset Config.regFileBytes Config.bufBase
  rw [if_neg (by omega), if_pos ⟨hlo, hhi⟩, sub_bufBase_mod w hlo, if_neg fun hal => h hal.1]

/-- A target that is an error stops the read and every write of that width with it, IDLE or BUSY (log 7, log 9). -/
theorem hostAccess_faults {s : State} {addr : Nat} {w : Width} {f : Fault} (h : s.target addr w = .error f) :
    hostAccess (.read addr w) s = .fault f ∧ ∀ d : Datum, d.width = w → hostAccess (.write addr d) s = .fault f :=
  ⟨hostAccess_fault_iff.mpr h, fun _ hd => hostAccess_fault_iff.mpr (by rw [Access.target, hd, h])⟩

/-- Settles O53, one kind of illegal offset at a time. -/
theorem illegalAccessesAreBusErrors : Obligations.IllegalAccessesAreBusErrors := by
  intro s off w _ hoff
  refine ⟨fun h => ?_, fun hreg h => ?_, fun hlo hhi h => ?_⟩
  · have hfault (w' : Width) : s.target (s.cfg.base + off) w' = .error .busErrorUnmapped :=
      (s.target_window hoff w').trans (targetOfOffset_unmapped w' h)
    exact ⟨(hostAccess_faults (hfault w)).1, fun d => (hostAccess_faults (hfault d.width)).2 d rfl⟩
  · exact hostAccess_faults ((s.target_window hoff w).trans (targetOfOffset_badRegister hreg h))
  · exact hostAccess_faults ((s.target_window hoff w).trans (targetOfOffset_misalignedBuffer hlo hhi h))

/-! ### An access as one step -/

/-- Settles O7. -/
theorem stepPerformsTheNextAccess : Obligations.StepPerformsTheNextAccess := by
  refine fun s => ⟨fun a rest h => step_access h, fun hs h => ?_⟩
  have hsame : { s with schedule := [] } = s := by rw [← h]
  exact (step_idle hs (.inl ⟨h, rfl⟩)).trans (congrArg Host.Outcome.next hsame)

end Sys2Proof.Machine
end

section
/-! SUPPORT. Proofs of the statements about the command words (30_encoding.md): the opcode map, the fields of a word,
and what the decoder answers for every word. -/

namespace Sys2Proof

/-! ### The opcode map -/

/-- Each row of the opcode map pairs a command with its own OPCODE. -/
theorem opcode_of_mem_opcodeTable : ∀ r ∈ opcodeTable, r.opcode = opcodeOf r.instr := by decide

/-- The opcodes of the map are the assigned ones (30_encoding.md R131, R133). -/
theorem map_opcode_opcodeTable : opcodeTable.map OpcodeRow.opcode = assignedOpcodes := rfl

/-- The search for a command's OPCODE ends at that command's row. -/
@[simp] theorem rowOfOpcode_opcodeOf (i : Instr) : rowOfOpcode (opcodeOf i) = some ⟨opcodeOf i, i⟩ := by
  cases i <;> rfl

/-- The row found for an opcode is that of the command with this OPCODE. -/
theorem eq_opcodeOf_of_rowOfOpcode {op : BitVec 8} {r : OpcodeRow} (h : rowOfOpcode op = some r) :
    op = opcodeOf r.instr := by
  have hop : r.opcode = op := eq_of_beq (List.find?_some (p := fun r : OpcodeRow => r.opcode == op) h)
  rw [← hop, opcode_of_mem_opcodeTable r (List.mem_of_find?_eq_some h)]

/-- An opcode has no row exactly when it is not assigned. -/
theorem rowOfOpcode_eq_none_iff {op : BitVec 8} : rowOfOpcode op = none ↔ op ∉ assignedOpcodes := by
  rw [← map_opcode_opcodeTable, rowOfOpcode, List.find?_eq_none, List.mem_map]
  simp only [beq_iff_eq, not_exists, not_and]

/-- The opcodes outside the map are those R133 lists. -/
theorem notMem_assignedOpcodes_iff {op : BitVec 8} :
    op ∉ assignedOpcodes ↔
      op.toNat = 0x00 ∨ (0x06 ≤ op.toNat ∧ op.toNat ≤ 0x0F) ∨ (0x12 ≤ op.toNat ∧ op.toNat ≤ 0x1F)
        ∨ (0x22 ≤ op.toNat ∧ op.toNat ≤ 0x2F) ∨ 0x31 ≤ op.toNat := by
  simp only [assignedOpcodes, List.mem_cons, List.not_mem_nil, or_false, ← BitVec.toNat_inj, BitVec.reduceToNat]
  omega

/-! ### The fields of a command word -/

/-- The OPCODE field is the word's low byte (30_encoding.md R130). -/
theorem toNat_opcodeField (v : Word) : (v.extractLsb' 0 8).toNat = v.toNat % 256 := by
  rw [BitVec.extractLsb'_toNat, Nat.shiftRight_zero]

/-- The RSVD field is 0 exactly when the word is its low byte (30_encoding.md R130). -/
theorem reservedField_eq_zero_iff (v : Word) : v.extractLsb' 8 24 = 0 ↔ v.toNat < 256 := by
  have hv := v.isLt
  simp only [← BitVec.toNat_inj, BitVec.extractLsb'_toNat, Nat.shiftRight_eq_div_pow, BitVec.reduceToNat]
  omega

/-- A command's word is the word with RSVD 0 and the command's OPCODE (30_encoding.md R139). -/
theorem eq_encode_iff {v : Word} {i : Instr} :
    v = encode i ↔ v.extractLsb' 8 24 = 0 ∧ v.extractLsb' 0 8 = opcodeOf i := by
  have hop := (opcodeOf i).isLt
  rw [reservedField_eq_zero_iff, encode, ← BitVec.toNat_inj, ← BitVec.toNat_inj, toNat_opcodeField,
    BitVec.toNat_setWidth]
  omega

/-! ### The decoder -/

/-- A word with a reserved bit set is illegal, whatever its OPCODE (30_encoding.md R132). -/
theorem decode_of_reserved {v : Word} (h : v.extractLsb' 8 24 ≠ 0) : decode v = .illegal .reservedBits := if_neg h

/-- A word with RSVD 0 and an opcode without a row is illegal for its opcode (30_encoding.md R133). -/
theorem decode_of_unassigned {v : Word} (hr : v.extractLsb' 8 24 = 0) (ho : rowOfOpcode (v.extractLsb' 0 8) = none) :
    decode v = .illegal .unassignedOpcode := by
  rw [decode, if_pos hr, ho]

/-- A word with RSVD 0 and an opcode with a row decodes to the row's command (30_encoding.md R131). -/
theorem decode_of_row {v : Word} {r : OpcodeRow} (hr : v.extractLsb' 8 24 = 0)
    (ho : rowOfOpcode (v.extractLsb' 0 8) = some r) : decode v = .instr r.instr := by
  rw [decode, if_pos hr, ho]

/-- A word decodes to a command exactly when RSVD is 0 and its OPCODE is the command's (30_encoding.md R131). -/
theorem decode_eq_instr_iff {v : Word} {i : Instr} :
    decode v = .instr i ↔ v.extractLsb' 8 24 = 0 ∧ v.extractLsb' 0 8 = opcodeOf i := by
  constructor
  · intro h
    by_cases hr : v.extractLsb' 8 24 = 0
    · cases ho : rowOfOpcode (v.extractLsb' 0 8) with
      | none => cases (decode_of_unassigned hr ho).symm.trans h
      | some r =>
        cases (decode_of_row hr ho).symm.trans h
        exact ⟨hr, eq_opcodeOf_of_rowOfOpcode ho⟩
    · cases (decode_of_reserved hr).symm.trans h
  · rintro ⟨hr, ho⟩
    exact decode_of_row hr (ho ▸ rowOfOpcode_opcodeOf i)

/-- A word decodes to a command exactly when it is the command's word (30_encoding.md R131, R139). -/
theorem decode_eq_instr_iff_eq_encode {v : Word} {i : Instr} : decode v = .instr i ↔ v = encode i :=
  decode_eq_instr_iff.trans eq_encode_iff.symm

@[simp] theorem decode_encode (i : Instr) : decode (encode i) = .instr i := decode_eq_instr_iff_eq_encode.mpr rfl

/-- A word is illegal exactly when a reserved bit is set or its opcode is not assigned (30_encoding.md R132, R133). -/
theorem decode_isIllegal_iff {v : Word} :
    (∃ w, decode v = .illegal w) ↔ v.extractLsb' 8 24 ≠ 0 ∨ v.extractLsb' 0 8 ∉ assignedOpcodes := by
  rw [← rowOfOpcode_eq_none_iff]
  by_cases hr : v.extractLsb' 8 24 = 0
  · cases ho : rowOfOpcode (v.extractLsb' 0 8) with
    | none => simp [decode_of_unassigned hr ho]
    | some r => simp [decode_of_row hr ho, hr]
  · exact iff_of_true ⟨_, decode_of_reserved hr⟩ (.inl hr)

/-! ### The statements -/

/-- Settles O3, by the two readings of "decodes to i": the fields of the word, and the word itself. -/
theorem decodeReadsExactlyTheTable : Obligations.DecodeReadsExactlyTheTable := fun _ _ =>
  ⟨decode_eq_instr_iff, decode_eq_instr_iff_eq_encode⟩

/-- Settles O4: the unassigned opcodes, read off the word's low byte, are the ranges of R133. -/
theorem illegalWordsAreThoseListed : Obligations.IllegalWordsAreThoseListed := by
  intro v
  rw [decode_isIllegal_iff, notMem_assignedOpcodes_iff, toNat_opcodeField]

/-- Settles O1: each word is its opcode, evaluated. -/
theorem commandWordsOfTheMnemonics : Obligations.CommandWordsOfTheMnemonics :=
  ⟨rfl, rfl, rfl, rfl, rfl, rfl, rfl, rfl, rfl, rfl, fun _ => rfl⟩

/-- Settles O2. -/
theorem decodeOfEncode : Obligations.DecodeOfEncode := decode_encode

/-- Settles O5: five words of commands, an opcode without a row, and two words with a reserved bit set. -/
theorem sampleWordsDecode : Obligations.SampleWordsDecode :=
  ⟨decode_encode .kdf64, decode_encode .zeroizeAll, decode_encode .aesdec, decode_encode .hmacverify,
    decode_encode .ctcmp, decode_of_unassigned rfl rfl, decode_of_reserved (by decide),
    decode_of_reserved (by decide)⟩

end Sys2Proof
end

section
/-! SUPPORT. Proofs of the statements about the key derivation (40_kdf.md): the padding of the hashes, equivalent HMAC
keys, the blocks of PBKDF2, and the commands KDF64 and KDF32. -/

namespace Sys2Proof.Machine

/-! ### The padding of the hashes -/

/-- The padding's zero bytes bring the length to 56 modulo 64 (40_kdf.md R161). -/
theorem shaPadZeros_mod (n : Nat) : (n + 1 + shaPadZeros n) % 64 = 56 := by
  unfold shaPadZeros
  omega

/-- The count of the padding's zero bytes is below 64, so a smaller count misses 56 modulo 64 (40_kdf.md R161). -/
theorem shaPadZeros_least {n k : Nat} (h : k < shaPadZeros n) : (n + 1 + k) % 64 ≠ 56 := by
  have hpad := shaPadZeros_mod n
  have hlt : shaPadZeros n < 64 := Nat.mod_lt _ (by decide)
  omega

/-- Settles O20. -/
theorem hashPaddingIsLeast : Obligations.HashPaddingIsLeast := fun m =>
  ⟨shaPadZeros_mod m.length, fun _ => shaPadZeros_least, shaPad_length_mod m, rfl⟩

/-! ### Equivalent HMAC keys -/

/-- K0 of a key of at most 64 bytes is the key with zero bytes up to 64 (40_kdf.md R165). -/
theorem hmacKeyBlock_of_length_le (hash : ByteString → ByteString) {key : ByteString} (h : key.length ≤ 64) :
    hmacKeyBlock hash key = key ++ zeros (64 - key.length) := by
  rw [hmacKeyBlock, if_neg (Nat.not_lt.mpr h)]

/-- K0 of a longer key is K0 of its hash (40_kdf.md R165). -/
theorem hmacKeyBlock_of_lt_length {hash : ByteString → ByteString} {key : ByteString} (h : 64 < key.length)
    (hhash : (hash key).length ≤ 64) : hmacKeyBlock hash key = hmacKeyBlock hash (hash key) := by
  rw [hmacKeyBlock_of_length_le hash hhash, hmacKeyBlock, if_pos h]

theorem zeros_append_zeros (m n : Nat) : zeros m ++ zeros n = zeros (m + n) := List.replicate_append_replicate

/-- Zero bytes appended to a key, within 64 bytes, are those K0 appends anyway (40_kdf.md R166). -/
theorem hmacKeyBlock_append_zeros (hash : ByteString → ByteString) {key : ByteString} {z : Nat}
    (h : key.length + z ≤ 64) : hmacKeyBlock hash (key ++ zeros z) = hmacKeyBlock hash key := by
  have hlen : (key ++ zeros z).length = key.length + z := by simp
  have hrest : z + (64 - (key.length + z)) = 64 - key.length := by omega
  rw [hmacKeyBlock_of_length_le hash (hlen.trans_le h), hmacKeyBlock_of_length_le hash (by omega), hlen,
    List.append_assoc, zeros_append_zeros, hrest]

/-- HMAC reads its key through K0 alone (40_kdf.md R165). -/
theorem hmacWith_congr {hash : ByteString → ByteString} {k k' : ByteString}
    (h : hmacKeyBlock hash k = hmacKeyBlock hash k') (m : ByteString) : hmacWith hash k m = hmacWith hash k' m := by
  rw [hmacWith, hmacWith, h]

/-- Settles O19: HMAC reads its key through K0 alone, and both pairs of keys have one K0. -/
theorem trailingZerosDoNotChangeHmac : Obligations.TrailingZerosDoNotChangeHmac := by
  constructor
  · intro key m z h
    have h1 := hmacKeyBlock_append_zeros sha1 h
    have h256 := hmacKeyBlock_append_zeros sha256 h
    exact ⟨h1, h256, hmacWith_congr h1 m, hmacWith_congr h256 m⟩
  · intro key m h
    exact ⟨sha1_length key, hmacWith_congr (hmacKeyBlock_of_lt_length h (by simp)) m⟩

/-! ### The blocks of PBKDF2 -/

/-- The last of n + 1 iterations from U and T: it adds the (n + 1)-th PRF of U to the XOR of the others
(40_kdf.md R168). -/
theorem pbkdf2Iterate_succ (p : ByteString) (n : Nat) (u t : ByteString) :
    pbkdf2Iterate p (n + 1) u t = xorBytes (pbkdf2Iterate p n u t) ((hmacSha1 p)^[n + 1] u) := by
  induction n generalizing u t with
  | zero => rfl
  | succ n ih =>
    calc pbkdf2Iterate p (n + 2) u t
      _ = pbkdf2Iterate p (n + 1) (hmacSha1 p u) (xorBytes t (hmacSha1 p u)) := rfl
      _ = xorBytes (pbkdf2Iterate p (n + 1) u t) ((hmacSha1 p)^[n + 2] u) := ih _ _

/-- One more iteration adds the next PRF of the chain to the block (40_kdf.md R168). -/
theorem pbkdf2Block_succ (p s : ByteString) {c : Nat} (hc : 1 ≤ c) (i : Nat) :
    pbkdf2Block p s (c + 1) i
      = xorBytes (pbkdf2Block p s c i) ((hmacSha1 p)^[c] (hmacSha1 p (s ++ be32 (BitVec.ofNat 32 i)))) := by
  obtain ⟨n, rfl⟩ := Nat.exists_eq_add_of_le' hc
  exact pbkdf2Iterate_succ p n _ _

/-- 64 derived bytes are three blocks and 4 bytes of the fourth (40_kdf.md R169). -/
theorem pbkdf2_64 (p s : ByteString) (c : Nat) :
    pbkdf2 p s c 64
      = pbkdf2Block p s c 1 ++ pbkdf2Block p s c 2 ++ pbkdf2Block p s c 3 ++ (pbkdf2Block p s c 4).take 4 := by
  simp [pbkdf2, List.range_succ, List.take_append, List.take_of_length_le]

/-- 32 derived bytes are one block and 12 bytes of the second (40_kdf.md R169). -/
theorem pbkdf2_32 (p s : ByteString) (c : Nat) :
    pbkdf2 p s c 32 = pbkdf2Block p s c 1 ++ (pbkdf2Block p s c 2).take 12 := by
  simp [pbkdf2, List.range_succ, List.take_append, List.take_of_length_le]

/-- Settles O17: U_j is the PRF iterated j - 1 times on U_1, and T_c the model's block for the count c. -/
theorem derivedKeyIsMadeOfBlocks : Obligations.DerivedKeyIsMadeOfBlocks := by
  refine ⟨fun p s i => ?_, fun p s c =>
    ⟨pbkdf2_64 p s c, pbkdf2_32 p s c, pbkdf2_length p s c 64, pbkdf2_length p s c 32⟩⟩
  refine ⟨fun j => (hmacSha1 p)^[j - 1] (hmacSha1 p (s ++ be32 (BitVec.ofNat 32 i))),
    fun c => pbkdf2Block p s c i, rfl, fun j hj => ?_, rfl, fun j hj => pbkdf2Block_succ p s hj i, fun _ _ => rfl⟩
  obtain ⟨n, rfl⟩ := Nat.exists_eq_add_of_le' hj
  exact Function.iterate_succ_apply' (hmacSha1 p) n _

/-- A shorter derivation is the beginning of a longer one: its blocks are the first ones (40_kdf.md R170). -/
theorem take_pbkdf2 (p s : ByteString) (c : Nat) {m n : Nat} (h : m ≤ n) :
    (pbkdf2 p s c n).take m = pbkdf2 p s c m := by
  obtain ⟨extra, hblocks⟩ := Nat.exists_eq_add_of_le (show (m + 19) / 20 ≤ (n + 19) / 20 by omega)
  rw [pbkdf2, pbkdf2, List.take_take, Nat.min_eq_left h, hblocks, List.range_add, List.flatMap_append]
  refine List.take_append_of_le_length ?_
  simp only [List.length_flatMap, pbkdf2Block_length, List.map_const', List.sum_replicate, List.length_range,
    smul_eq_mul]
  omega

/-! ### Endings of a guarded command -/

/-- A command that only raises the error e does no more than end with it (60_exceptions.md R350). -/
theorem endsOnlyWithError_of_raiseError {i : Instr} {e : ErrCode} {s : State}
    (h : exec i s = .next (s.raiseError e)) : EndsOnlyWithError i e s :=
  ⟨_, h, ⟨rfl, rfl, rfl, rfl, rfl, rfl⟩, ⟨rfl, rfl, rfl, rfl⟩, ⟨rfl, rfl, rfl, rfl, rfl, rfl, rfl⟩,
    ⟨rfl, rfl, rfl, rfl, rfl, rfl, rfl⟩, rfl⟩

/-- A guarded command whose checks raise true errors ends without error exactly when no check fails. -/
theorem State.guarded_noError_iff {s t : State} {cs : List Check} {ok : Unit → State}
    (h : s.guarded cs ok = .next t) (hcodes : ∀ c ∈ cs, c.code ≠ .noError) (hok : (ok ()).err = .noError) :
    t.err = .noError ↔ firstError cs = none := by
  rcases State.guarded_cases h with ⟨e, he, rfl⟩ | ⟨hn, rfl⟩
  · obtain ⟨c, hc, -, rfl⟩ := firstError_mem he
    simp [he, hcodes c hc]
  · simp [hok, hn]

/-! ### The checks of KDF64 and KDF32 -/

/-- The checks of both key derivations, in their order (40_kdf.md R180, R181). -/
abbrev State.kdfChecks (s : State) : List Check := [s.rangeCheck [s.src, s.aux], s.policyCheck]

/-- Both regions a key derivation reads are in range (40_kdf.md R180, R181). -/
abbrev State.KdfInRange (s : State) : Prop := s.src.InRange s.cfg.memBytes ∧ s.aux.InRange s.cfg.memBytes

theorem exec_kdf64 (s : State) :
    exec .kdf64 s = s.guarded s.kdfChecks fun _ =>
      (s.loadBothKeys ((s.derivedKey 64).take 32) ((s.derivedKey 64).drop 32)).complete .kdf64 false 0 := rfl

theorem exec_kdf32 (s : State) :
    exec .kdf32 s = s.guarded s.kdfChecks fun _ => (s.loadMacKey (s.derivedKey 32)).complete .kdf32 false 0 := rfl

/-- The range check of a key derivation passes exactly when both its regions are in range. -/
theorem State.kdfRangeCheck_passes {s : State} : (s.rangeCheck [s.src, s.aux]).fails = false ↔ s.KdfInRange := by
  rw [State.rangeCheck_passes, List.forall_mem_cons, List.forall_mem_singleton]

/-- The policy check passes exactly with both floors met (40_kdf.md R175). -/
theorem State.policyCheck_passes {s : State} :
    s.policyCheck.fails = false ↔ 10000 ≤ s.iter.toNat ∧ 16 ≤ s.auxLen.toNat := by
  rw [State.policyCheck, decide_eq_false_iff_not, not_or, Nat.not_lt, Nat.not_lt]

theorem State.firstError_kdfChecks_range {s : State} (h : ¬ s.KdfInRange) :
    firstError s.kdfChecks = some .range := by
  rw [firstError_cons, if_pos (Bool.eq_true_of_not_eq_false (mt State.kdfRangeCheck_passes.mp h)),
    State.rangeCheck_code]

theorem State.firstError_kdfChecks_policy {s : State} (h : s.KdfInRange)
    (hp : s.iter.toNat < 10000 ∨ s.auxLen.toNat < 16) : firstError s.kdfChecks = some .policy := by
  have hfails : s.policyCheck.fails = true := decide_eq_true hp
  rw [firstError_cons, if_neg (Bool.eq_false_iff.mp (State.kdfRangeCheck_passes.mpr h)), firstError_cons,
    if_pos hfails]
  rfl

/-- A key derivation passes its checks exactly with both regions in range and both floors met (40_kdf.md R175). -/
theorem State.firstError_kdfChecks_eq_none {s : State} :
    firstError s.kdfChecks = none ↔ s.KdfInRange ∧ 10000 ≤ s.iter.toNat ∧ 16 ≤ s.auxLen.toNat := by
  rw [firstError_eq_none, List.forall_mem_cons, List.forall_mem_singleton, State.kdfRangeCheck_passes,
    State.policyCheck_passes]

/-- No check of a key derivation has the code NONE. -/
theorem State.kdfChecks_code_ne_noError (s : State) : ∀ c ∈ s.kdfChecks, c.code ≠ .noError :=
  List.forall_mem_cons.mpr ⟨nofun, List.forall_mem_singleton.mpr nofun⟩

/-- The two errors of a key derivation, RANGE before POLICY (40_kdf.md R175, 60_exceptions.md R345). -/
theorem kdf_errors {i : Instr} {s : State} {ok : Unit → State} (h : exec i s = s.guarded s.kdfChecks ok) :
    (¬ s.KdfInRange → EndsOnlyWithError i .range s)
      ∧ (s.src.InRange s.cfg.memBytes → s.aux.InRange s.cfg.memBytes →
          s.iter.toNat < 10000 ∨ s.auxLen.toNat < 16 → EndsOnlyWithError i .policy s) := by
  refine ⟨fun hr => ?_, fun hsrc haux hp => ?_⟩
  · exact endsOnlyWithError_of_raiseError
      (h.trans (State.guarded_error (State.firstError_kdfChecks_range hr)))
  · exact endsOnlyWithError_of_raiseError
      (h.trans (State.guarded_error (State.firstError_kdfChecks_policy ⟨hsrc, haux⟩ hp)))

/-! ### KDF64 and KDF32 -/

/-- The derived bytes are PBKDF2 over the salt with the ASCII bytes of |scs1| appended (40_kdf.md R176). -/
theorem State.derivedKey_eq (s : State) (n : Nat) :
    s.derivedKey n
      = pbkdf2 (s.readRegion s.src) (s.readRegion s.aux ++ [0x7C, 0x73, 0x63, 0x73, 0x31, 0x7C]) s.iter.toNat n := rfl

/-- Settles O15. -/
theorem kdf64DerivesBothKeys : Obligations.Kdf64DerivesBothKeys := by
  refine ⟨decode_encode .kdf64, fun s => ⟨fun hsrc haux hiter hsalt => ?_, kdf_errors (exec_kdf64 s)⟩⟩
  have hpass : firstError s.kdfChecks = none :=
    State.firstError_kdfChecks_eq_none.mpr ⟨⟨hsrc, haux⟩, hiter, hsalt⟩
  refine ⟨_, (exec_kdf64 s).trans (State.guarded_ok hpass), ?_, rfl, rfl, ⟨rfl, rfl, rfl, rfl, rfl, rfl⟩,
    ⟨rfl, rfl, rfl, rfl, rfl, rfl, rfl⟩, ⟨rfl, rfl, rfl, rfl, rfl, rfl, rfl⟩, rfl⟩
  rw [State.complete_encKey, State.complete_macKey, State.loadBothKeys_encKey, State.loadBothKeys_macKey,
    Key.bytes_ofBytes _ (by simp), Key.bytes_ofBytes _ (by simp), List.take_append_drop, State.derivedKey_eq]

/-- Settles O16. -/
theorem kdf32DerivesTheSigningKey : Obligations.Kdf32DerivesTheSigningKey := by
  refine ⟨decode_encode .kdf32, fun s => ⟨fun hsrc haux hiter hsalt => ?_, kdf_errors (exec_kdf32 s)⟩⟩
  have hpass : firstError s.kdfChecks = none :=
    State.firstError_kdfChecks_eq_none.mpr ⟨⟨hsrc, haux⟩, hiter, hsalt⟩
  refine ⟨_, (exec_kdf32 s).trans (State.guarded_ok hpass), ?_, Key.bytes_zero, rfl, rfl,
    ⟨rfl, rfl, rfl, rfl, rfl, rfl⟩, ⟨rfl, rfl, rfl, rfl, rfl, rfl, rfl⟩, ⟨rfl, rfl, rfl, rfl, rfl, rfl, rfl⟩, rfl⟩
  rw [State.complete_macKey, State.loadMacKey_macKey, Key.bytes_ofBytes _ (by simp), State.derivedKey_eq]

/-! ### KDF32 beside KDF64 -/

/-- The range condition of KDF32 is that of the two regions it reads: it writes none (30_encoding.md R135). -/
theorem rangeOk_kdf32_iff {s : State} : RangeOk .kdf32 s ↔ s.KdfInRange := by
  have hwrite : (writeRegion .kdf32 s).InRange s.cfg.memBytes := Nat.zero_le _
  rw [RangeOk, readRegions, List.forall_mem_append, List.forall_mem_cons, List.forall_mem_singleton,
    List.forall_mem_singleton]
  exact and_iff_left hwrite

/-- With equal passphrase, salt and count, the 32 derived bytes are the first of the 64 (40_kdf.md R170). -/
theorem State.derivedKey_32_eq_take {s s' : State} (hsrc : s'.readRegion s'.src = s.readRegion s.src)
    (haux : s'.readRegion s'.aux = s.readRegion s.aux) (hiter : s'.iter = s.iter) :
    s'.derivedKey 32 = (s.derivedKey 64).take 32 := by
  rw [State.derivedKey_eq, State.derivedKey_eq, take_pbkdf2 _ _ _ (by decide), hsrc, haux, hiter]

/-- Settles O18: both commands make the same checks, equal salts have equal lengths, and the one derivation begins
with the other. -/
theorem shortDerivationIsAPrefix : Obligations.ShortDerivationIsAPrefix := by
  refine ⟨fun p s c => (take_pbkdf2 p s c (by decide)).symm, fun s s' t u hsrc haux hiter ht hu hwell => ?_⟩
  rw [exec_kdf64] at ht
  rw [exec_kdf32] at hu
  have hpass64 : firstError s.kdfChecks = none :=
    (State.guarded_noError_iff ht s.kdfChecks_code_ne_noError rfl).mp hwell
  obtain ⟨-, hfloorIter, hfloorSalt⟩ := State.firstError_kdfChecks_eq_none.mp hpass64
  have hsalt : s'.auxLen.toNat = s.auxLen.toNat := by simpa using congrArg List.length haux
  have hwell32 : u.err = .noError ↔ firstError s'.kdfChecks = none :=
    State.guarded_noError_iff hu s'.kdfChecks_code_ne_noError rfl
  constructor
  · rw [hwell32, State.firstError_kdfChecks_eq_none, rangeOk_kdf32_iff, hiter, hsalt]
    exact and_iff_left ⟨hfloorIter, hfloorSalt⟩
  · intro hu32
    cases ht.symm.trans (State.guarded_ok hpass64)
    cases hu.symm.trans (State.guarded_ok (hwell32.mp hu32))
    exact congrArg Key.ofBytes (State.derivedKey_32_eq_take hsrc haux hiter)

end Sys2Proof.Machine
end

section
/-! SUPPORT. Proofs of the statements about the cipher (41_aes_cbc.md R200 to R215): multiplication in GF(2^8), the
S-box, the steps of a round and their inverses, the block cipher, CBC and PKCS7. -/

namespace Sys2Proof.Machine

/-! ### Multiplication in GF(2^8) -/

/-- The part of the product that bit k of the second factor gives (41_aes_cbc.md R202). -/
def gfTerm (a b : Byte) (k : Nat) : Byte := if b.getLsbD k then xtimePow k a else 0

/-- The product is the XOR of the parts of its eight bits (41_aes_cbc.md R202). -/
theorem gfMul_eq_terms (a b : Byte) :
    gfMul a b = gfTerm a b 0 ^^^ gfTerm a b 1 ^^^ gfTerm a b 2 ^^^ gfTerm a b 3 ^^^ gfTerm a b 4 ^^^ gfTerm a b 5
      ^^^ gfTerm a b 6 ^^^ gfTerm a b 7 := by
  have hstep (acc : Byte) (k : Nat) :
      (if b.getLsbD k then acc ^^^ xtimePow k a else acc) = acc ^^^ gfTerm a b k := by
    unfold gfTerm
    split <;> simp
  simp [gfMul, List.range_succ, hstep]

/-- `xtime` is a shift and, when bit 7 was set, the reduction by the field's polynomial (41_aes_cbc.md R202). -/
theorem xtime_eq (b : Byte) : xtime b = (b <<< 1) ^^^ (if b.getLsbD 7 then 0x1B else 0) := by
  unfold xtime
  split <;> simp

theorem xtime_xor (a b : Byte) : xtime (a ^^^ b) = xtime a ^^^ xtime b := by
  have hreduce : (if (a ^^^ b).getLsbD 7 then (0x1B : Byte) else 0)
      = (if a.getLsbD 7 then 0x1B else 0) ^^^ (if b.getLsbD 7 then 0x1B else 0) := by
    rw [BitVec.getLsbD_xor]
    cases a.getLsbD 7 <;> cases b.getLsbD 7 <;> rfl
  rw [xtime_eq, xtime_eq, xtime_eq, BitVec.shiftLeft_xor_distrib, hreduce]
  ac_rfl

theorem xtimePow_xor (k : Nat) (a b : Byte) : xtimePow k (a ^^^ b) = xtimePow k a ^^^ xtimePow k b := by
  induction k with
  | zero => rfl
  | succ k ih => rw [xtimePow, ih, xtime_xor, ← xtimePow, ← xtimePow]

theorem gfTerm_xor_left (a b x : Byte) (k : Nat) : gfTerm (a ^^^ b) x k = gfTerm a x k ^^^ gfTerm b x k := by
  unfold gfTerm
  split
  · exact xtimePow_xor k a b
  · rfl

theorem gfTerm_xor_right (a x y : Byte) (k : Nat) : gfTerm a (x ^^^ y) k = gfTerm a x k ^^^ gfTerm a y k := by
  unfold gfTerm
  rw [BitVec.getLsbD_xor]
  cases x.getLsbD k <;> cases y.getLsbD k <;> simp

theorem gfMul_xor_left (a b x : Byte) : gfMul (a ^^^ b) x = gfMul a x ^^^ gfMul b x := by
  simp only [gfMul_eq_terms, gfTerm_xor_left]
  ac_rfl

theorem gfMul_xor_right (a x y : Byte) : gfMul a (x ^^^ y) = gfMul a x ^^^ gfMul a y := by
  simp only [gfMul_eq_terms, gfTerm_xor_right]
  ac_rfl

@[simp] theorem gfMul_zero_left (x : Byte) : gfMul 0#8 x = 0#8 := by
  have h := gfMul_xor_left 0 0 x
  rwa [BitVec.xor_self, BitVec.xor_self] at h

@[simp] theorem gfMul_zero_right (a : Byte) : gfMul a 0#8 = 0#8 := by
  have h := gfMul_xor_right a 0 0
  rwa [BitVec.xor_self, BitVec.xor_self] at h

@[simp] theorem gfMul_one_left : ∀ x : Byte, gfMul 1#8 x = x := by decide +kernel

/-- The field's polynomial: x^8 = x^4 + x^3 + x + 1 (41_aes_cbc.md R202). -/
theorem xtimePow_eight : ∀ a : Byte, xtimePow 8 a = gfMul a 0x1B := by decide +kernel

theorem gfTerm_shiftLeft_zero (a b : Byte) : gfTerm a (b <<< 1) 0 = 0 := by simp [gfTerm]

theorem gfTerm_shiftLeft_succ (a b : Byte) {k : Nat} (hk : k < 7) :
    gfTerm a (b <<< 1) (k + 1) = xtime (gfTerm a b k) := by
  have hbit : (b <<< 1).getLsbD (k + 1) = b.getLsbD k := by
    simp [BitVec.getLsbD_shiftLeft]
    omega
  unfold gfTerm
  rw [hbit]
  split <;> rfl

/-- The part of bit 7, multiplied by x once more, is the product with the reduction of x^8. -/
theorem xtime_gfTerm_seven (a b : Byte) :
    xtime (gfTerm a b 7) = gfMul a (if b.getLsbD 7 then 0x1B else 0) := by
  unfold gfTerm
  split
  · exact xtimePow_eight a
  · exact (gfMul_zero_right a).symm

/-- A factor x moves out of the product's second factor. -/
theorem gfMul_xtime_right (a b : Byte) : gfMul a (xtime b) = xtime (gfMul a b) := by
  rw [xtime_eq b, gfMul_xor_right, ← xtime_gfTerm_seven, gfMul_eq_terms a (b <<< 1), gfMul_eq_terms a b]
  simp [xtime_xor, gfTerm_shiftLeft_zero, gfTerm_shiftLeft_succ]

theorem gfMul_xtimePow_right (a b : Byte) (k : Nat) : gfMul a (xtimePow k b) = xtimePow k (gfMul a b) := by
  induction k with
  | zero => rfl
  | succ k ih => rw [xtimePow, gfMul_xtime_right, ih, ← xtimePow]

theorem gfMul_gfTerm (a b x : Byte) (k : Nat) : gfMul a (gfTerm b x k) = gfTerm (gfMul a b) x k := by
  unfold gfTerm
  split
  · exact gfMul_xtimePow_right a b k
  · exact gfMul_zero_right a

theorem gfMul_assoc (a b x : Byte) : gfMul (gfMul a b) x = gfMul a (gfMul b x) := by
  rw [gfMul_eq_terms b x, gfMul_eq_terms (gfMul a b) x]
  simp only [gfMul_xor_right, gfMul_gfTerm]

/-! ### The S-box -/

/-- The byte that the affine map of 41_aes_cbc.md R203 takes to b: each bit is the XOR of three bits of b and a bit of
the constant 0x05. -/
def sboxAffineInverse (b : Byte) : Byte := b.rotateLeft 1 ^^^ b.rotateLeft 3 ^^^ b.rotateLeft 6 ^^^ 0x05

/-- The affine map of 41_aes_cbc.md R203 undoes `sboxAffineInverse`. -/
theorem getLsbD_affine_sboxAffineInverse : ∀ b : Byte, ∀ i < 8, b.getLsbD i
    = ((sboxAffineInverse b).getLsbD i ^^ (sboxAffineInverse b).getLsbD ((i + 4) % 8)
      ^^ (sboxAffineInverse b).getLsbD ((i + 5) % 8) ^^ (sboxAffineInverse b).getLsbD ((i + 6) % 8)
      ^^ (sboxAffineInverse b).getLsbD ((i + 7) % 8) ^^ (0x63 : Byte).getLsbD i) := by
  decide +kernel

/-- Each entry of the table is the affine map of the inverse (41_aes_cbc.md R203). -/
theorem gfMul_sboxAffineInverse_sbox : ∀ x : Byte, x ≠ 0 → gfMul x (sboxAffineInverse (sbox x)) = 1 := by
  decide +kernel

theorem sboxAffineInverse_sbox_zero : sboxAffineInverse (sbox 0) = 0 := by decide

/-- Settles O24: the inverse is the table's entry with the affine map undone. -/
theorem sboxIsTheAffineMapOfTheInverse : Obligations.SboxIsTheAffineMapOfTheInverse := fun x =>
  ⟨sboxAffineInverse (sbox x), fun h => h ▸ sboxAffineInverse_sbox_zero, gfMul_sboxAffineInverse_sbox x,
    getLsbD_affine_sboxAffineInverse (sbox x)⟩

/-- Settles O25. -/
theorem inverseSboxUndoesSbox : Obligations.InverseSboxUndoesSbox := by
  unfold Obligations.InverseSboxUndoesSbox
  decide +kernel

/-! ### The inverse of each step of a round -/

/-- Two functions that agree on the 16 entries give one state. -/
theorem aesState_congr {f g : Nat → Nat → Byte} (h : ∀ r c, r < 4 → c < 4 → f r c = g r c) :
    aesState f = aesState g := by
  refine List.map_congr_left fun i hi => h _ _ ?_ ?_ <;> rw [List.mem_range] at hi <;> omega

/-- A 16-byte string is the state of its entries (41_aes_cbc.md R201). -/
theorem aesState_aesCell {s : ByteString} (h : s.length = 16) : aesState (aesCell s) = s := by
  refine List.ext_getElem (by simp [h]) fun i hi hi' => ?_
  simp [aesState, aesCell, Nat.mod_add_div, hi']

/-- A state whose entries are those of a 16-byte string is that string. -/
theorem aesState_eq {f : Nat → Nat → Byte} {s : ByteString} (hs : s.length = 16)
    (h : ∀ r c, r < 4 → c < 4 → f r c = aesCell s r c) : aesState f = s :=
  (aesState_congr h).trans (aesState_aesCell hs)

theorem invSubBytes_subBytes (s : ByteString) : invSubBytes (subBytes s) = s := by
  rw [invSubBytes, subBytes, List.map_map]
  exact List.map_id'' inverseSboxUndoesSbox s

theorem invShiftRows_shiftRows {s : ByteString} (h : s.length = 16) : invShiftRows (shiftRows s) = s := by
  refine aesState_eq h fun r c hr hc => ?_
  have hcol : ((c + 4 - r) % 4 + r) % 4 = c := by omega
  rw [shiftRows, aesCell_aesState _ _ _ hr (Nat.mod_lt _ (by decide)), hcol]

/-- The same round key added twice cancels (41_aes_cbc.md R205). -/
theorem addRoundKey_addRoundKey (w : List ByteString) (rd : Nat) {s : ByteString} (h : s.length = 16) :
    addRoundKey w rd (addRoundKey w rd s) = s := by
  refine aesState_eq h fun r c hr hc => ?_
  rw [addRoundKey, aesCell_aesState _ _ _ hr hc, BitVec.xor_assoc, BitVec.xor_self, BitVec.xor_zero]

/-! ### The product of the MixColumns matrices -/

/-- The product of a row and a column of four bytes over GF(2^8) (41_aes_cbc.md R205). -/
def gfDot (row col : Nat → Byte) : Byte :=
  gfMul (row 0) (col 0) ^^^ gfMul (row 1) (col 1) ^^^ gfMul (row 2) (col 2) ^^^ gfMul (row 3) (col 3)

/-- The coefficient in row r, column j of a matrix of 41_aes_cbc.md R205. -/
def mixCoeff (m : List (List Byte)) (r j : Nat) : Byte := (m.getD r []).getD j 0

theorem mixWith_eq (m : List (List Byte)) (s : ByteString) :
    mixWith m s = aesState fun r c => gfDot (mixCoeff m r) fun j => aesCell s j c := rfl

theorem gfDot_congr {row col col' : Nat → Byte} (h : ∀ j < 4, col j = col' j) : gfDot row col = gfDot row col' := by
  simp only [gfDot, h 0 (by decide), h 1 (by decide), h 2 (by decide), h 3 (by decide)]

/-- A row times a product of a matrix and a column is the row of the product matrix times the column. -/
theorem gfDot_gfDot (row col : Nat → Byte) (m : Nat → Nat → Byte) :
    gfDot row (fun j => gfDot (m j) col) = gfDot (fun i => gfDot row fun j => m j i) col := by
  simp only [gfDot, gfMul_xor_left, gfMul_xor_right, gfMul_assoc]
  ac_rfl

/-- InvMixColumns' matrix times MixColumns' is the identity (41_aes_cbc.md R205). -/
theorem mixCoeff_product : ∀ r < 4, ∀ i < 4,
    gfDot (mixCoeff invMixRows r) (fun j => mixCoeff mixRows j i) = if i = r then 1 else 0 := by decide +kernel

/-- A row of the identity matrix times a column is the column's entry. -/
theorem gfDot_identity {row : Nat → Byte} {r : Nat} (hr : r < 4) (h : ∀ i < 4, row i = if i = r then 1 else 0)
    (col : Nat → Byte) : gfDot row col = col r := by
  rw [gfDot, h 0 (by decide), h 1 (by decide), h 2 (by decide), h 3 (by decide)]
  interval_cases r <;> simp

theorem invMixColumns_mixColumns {s : ByteString} (h : s.length = 16) : invMixColumns (mixColumns s) = s := by
  rw [invMixColumns, mixColumns, mixWith_eq invMixRows]
  refine aesState_eq h fun r c hr hc => ?_
  calc gfDot (mixCoeff invMixRows r) (fun j => aesCell (mixWith mixRows s) j c)
    _ = gfDot (mixCoeff invMixRows r) (fun j => gfDot (mixCoeff mixRows j) fun i => aesCell s i c) :=
        gfDot_congr fun j hj => aesCell_aesState _ j c hj hc
    _ = gfDot (fun i => gfDot (mixCoeff invMixRows r) fun j => mixCoeff mixRows j i) (fun i => aesCell s i c) :=
        gfDot_gfDot _ _ _
    _ = aesCell s r c := gfDot_identity hr (mixCoeff_product r hr) _

/-! ### The block cipher -/

/-- A round of the inverse cipher turns what a round and the next round's substitution and shift made back into what
the round's own substitution and shift had made (41_aes_cbc.md R210, R211). -/
theorem aesInvRound_aesRound (w : List ByteString) (rd : Nat) (s : ByteString) :
    aesInvRound w rd (shiftRows (subBytes (aesRound w rd s))) = shiftRows (subBytes s) := by
  rw [aesInvRound, invShiftRows_shiftRows (by simp [aesRound]), invSubBytes_subBytes, aesRound,
    addRoundKey_addRoundKey _ _ (by simp), invMixColumns_mixColumns (by simp)]

/-- The inverse rounds undo the rounds, each shifted by one substitution and shift (41_aes_cbc.md R211). -/
theorem aesInvRounds_aesRounds (w : List ByteString) (n : Nat) (s : ByteString) :
    aesInvRounds w n (shiftRows (subBytes (aesRounds w n s))) = shiftRows (subBytes s) := by
  induction n with
  | zero => rfl
  | succ n ih => rw [aesInvRounds, aesRounds, aesInvRound_aesRound, ih]

theorem aesDecryptBlock_aesEncryptBlock (w : List ByteString) {x : ByteString} (h : x.length = 16) :
    aesDecryptBlock w (aesEncryptBlock w x) = x := by
  rw [aesDecryptBlock, aesEncryptBlock, addRoundKey_addRoundKey _ _ (by simp), aesInvRounds_aesRounds,
    invShiftRows_shiftRows (by simp), invSubBytes_subBytes, addRoundKey_addRoundKey _ _ h]

/-- Settles O26. -/
theorem aesDecryptionUndoesEncryption : Obligations.AesDecryptionUndoesEncryption := fun _ _ h =>
  aesDecryptBlock_aesEncryptBlock _ h

/-! ### XOR of byte strings -/

theorem xorBytes_assoc (a b c : ByteString) : xorBytes (xorBytes a b) c = xorBytes a (xorBytes b c) := by
  simp only [xorBytes]
  exact List.ext_getElem (by simp [min_assoc]) (by simp [BitVec.xor_assoc])

/-- A string added twice cancels (00_scope.md R8). -/
theorem xorBytes_xorBytes_cancel {a b : ByteString} (h : a.length = b.length) : xorBytes (xorBytes a b) b = a := by
  simp only [xorBytes]
  exact List.ext_getElem (by simp [h]) (by simp)

/-! ### CBC -/

/-- Decrypting the encrypted blocks gives the plaintext (41_aes_cbc.md R214, R215). -/
theorem cbcDecBlocks_cbcEncBlocks (w : List ByteString) (n : Nat) {prev x : ByteString} (hp : prev.length = 16)
    (hx : x.length = 16 * n) : cbcDecBlocks w n prev (cbcEncBlocks w n prev x) = x := by
  induction n generalizing prev x with
  | zero => exact (List.eq_nil_of_length_eq_zero hx).symm
  | succ n ih =>
    have hblock : (x.take 16).length = 16 := by simp; omega
    have hrest : (x.drop 16).length = 16 * n := by simp; omega
    have hxor : (xorBytes (x.take 16) prev).length = 16 := by simp [hblock, hp]
    have hlen := aesEncryptBlock_length w (xorBytes (x.take 16) prev)
    rw [cbcEncBlocks, cbcDecBlocks, List.take_left' hlen, List.drop_left' hlen,
      aesDecryptBlock_aesEncryptBlock w hxor, xorBytes_xorBytes_cancel (hblock.trans hp.symm), ih hlen hrest,
      List.take_append_drop]

/-- Settles O28: the ciphertext has as many blocks as the padded plaintext. -/
theorem cbcDecryptionUndoesEncryption : Obligations.CbcDecryptionUndoesEncryption := by
  intro key iv m hiv
  have hlen : (cbcEnc key iv m).length = (pkcs7Pad m).length := by simp
  rw [cbcDecRaw, hlen, cbcEnc]
  exact cbcDecBlocks_cbcEncBlocks _ _ hiv (by simp [paddedLen])

/-- The decryption of a first block and the rest: the IV reaches the first plaintext block alone (41_aes_cbc.md
R215). -/
theorem cbcDecRaw_eq_append (key iv : ByteString) {c : ByteString} (hc : c.length % 16 = 0) (hne : c ≠ []) :
    cbcDecRaw key iv c = xorBytes (aesD key (c.take 16)) iv ++ cbcDecRaw key (c.take 16) (c.drop 16) := by
  have hpos := List.length_pos_iff.mpr hne
  have hblocks : c.length / 16 = (c.drop 16).length / 16 + 1 := by simp; omega
  rw [cbcDecRaw, hblocks, cbcDecBlocks, cbcDecRaw, aesD]

/-- Settles O29. -/
theorem ivChangeReachesOnlyTheFirstBlock : Obligations.IvChangeReachesOnlyTheFirstBlock := by
  intro key iv d c hiv hd hc hne
  have hfirst : (xorBytes (aesD key (c.take 16)) iv).length = 16 := by simp [hiv]
  have hchanged : (xorBytes (aesD key (c.take 16)) (xorBytes iv d)).length = 16 := by simp [hiv, hd]
  rw [cbcDecRaw_eq_append key _ hc hne, cbcDecRaw_eq_append key iv hc hne, List.take_left' hchanged,
    List.take_left' hfirst, List.drop_left' hchanged, List.drop_left' hfirst]
  exact ⟨(xorBytes_assoc _ _ _).symm, rfl⟩

/-! ### PKCS7 -/

/-- A string ends in p times the byte b exactly when its last p bytes, counted from the end, are b. -/
theorem drop_eq_replicate_iff {y : ByteString} {p : Nat} (hp : p ≤ y.length) (b : Byte) :
    y.drop (y.length - p) = List.replicate p b ↔ ∀ k < p, y.getD (y.length - 1 - k) 0 = b := by
  constructor
  · intro h k hk
    have hidx : y.length - 1 - k = y.length - p + (p - 1 - k) := by omega
    rw [List.getD_eq_getElem?_getD, hidx, ← List.getElem?_drop, h, List.getElem?_replicate_of_lt (by omega),
      Option.getD_some]
  · intro h
    refine List.ext_getElem (by simp; omega) fun i hi hi' => ?_
    rw [List.length_replicate] at hi'
    have hidx : y.length - 1 - (p - 1 - i) = y.length - p + i := by omega
    have hbyte := h (p - 1 - i) (by omega)
    rw [hidx, List.getD_eq_getElem _ _ (by omega)] at hbyte
    rw [List.getElem_drop, List.getElem_replicate, hbyte]

/-- What the padding check accepts (41_aes_cbc.md R213). -/
theorem padOk_iff {y : ByteString} (hlen : 16 ≤ y.length) :
    padOk y = true ↔ 1 ≤ padByte y ∧ padByte y ≤ 16
      ∧ y.drop (y.length - padByte y) = List.replicate (padByte y) (BitVec.ofNat 8 (padByte y)) := by
  have hbyte (b : Byte) : b.toNat = padByte y ↔ b = BitVec.ofNat 8 (padByte y) := by
    rw [padByte, BitVec.ofNat_toNat, BitVec.setWidth_eq, BitVec.toNat_inj]
  simp only [padOk, Bool.and_eq_true, decide_eq_true_eq, List.all_eq_true, List.mem_range, beq_iff_eq, hbyte,
    and_assoc, and_congr_right_iff]
  exact fun _ hp => (drop_eq_replicate_iff (hp.trans hlen) _).symm

/-- The byte the padding check reads is the last one (41_aes_cbc.md R213). -/
theorem getLast?_eq_padByte {y : ByteString} (hne : y ≠ []) : y.getLast?.map BitVec.toNat = some (padByte y) := by
  have hpos := List.length_pos_iff.mpr hne
  rw [List.getLast?_eq_getLast_of_ne_nil hne, padByte, List.getD_eq_getElem _ _ (by omega), List.getLast_eq_getElem,
    Option.map_some]

theorem padCount_bounds (n : Nat) : 1 ≤ padCount n ∧ padCount n ≤ 16 := by
  unfold padCount
  omega

theorem paddedLen_eq (n : Nat) : paddedLen n = n + padCount n := by
  unfold paddedLen padCount
  omega

theorem pkcs7Pad_ne_nil (m : ByteString) : pkcs7Pad m ≠ [] := by
  rw [← List.length_pos_iff, pkcs7Pad_length]
  exact Nat.mul_pos (by decide) (Nat.succ_pos _)

/-- The last byte of a padded plaintext is its padding length (41_aes_cbc.md R212). -/
@[simp] theorem padByte_pkcs7Pad (m : ByteString) : padByte (pkcs7Pad m) = padCount m.length := by
  obtain ⟨hpos, hle⟩ := padCount_bounds m.length
  have hlast : (pkcs7Pad m).getLast? = some (BitVec.ofNat 8 (padCount m.length)) := by
    rw [pkcs7Pad, List.getLast?_append, List.getLast?_replicate, if_neg (by omega), Option.some_or]
  have hread := getLast?_eq_padByte (pkcs7Pad_ne_nil m)
  rw [hlast, Option.map_some, BitVec.toNat_ofNat, Nat.mod_eq_of_lt (by omega)] at hread
  exact (Option.some.inj hread).symm

@[simp] theorem take_pkcs7Pad (m : ByteString) : (pkcs7Pad m).take m.length = m := List.take_left' rfl

theorem drop_pkcs7Pad (m : ByteString) :
    (pkcs7Pad m).drop m.length = List.replicate (padCount m.length) (BitVec.ofNat 8 (padCount m.length)) :=
  List.drop_left' rfl

/-- A padded plaintext passes the padding check (41_aes_cbc.md R212, R213). -/
theorem padOk_pkcs7Pad (m : ByteString) : padOk (pkcs7Pad m) = true := by
  obtain ⟨hpos, hle⟩ := padCount_bounds m.length
  have hlen : (pkcs7Pad m).length = m.length + padCount m.length := by rw [pkcs7Pad_length, paddedLen_eq]
  have hwhole : 16 ≤ (pkcs7Pad m).length := by
    rw [pkcs7Pad_length]
    exact Nat.le_mul_of_pos_right 16 (Nat.succ_pos _)
  rw [padOk_iff hwhole, padByte_pkcs7Pad, hlen, Nat.add_sub_cancel, drop_pkcs7Pad]
  exact ⟨hpos, hle, rfl⟩

/-- Settles O27. -/
theorem paddingCheckAcceptsExactlyPaddedStrings : Obligations.PaddingCheckAcceptsExactlyPaddedStrings := by
  refine ⟨fun m => ?_, fun y hlen _ => ⟨getLast?_eq_padByte (List.length_pos_iff.mp (by omega)), padOk_iff hlen⟩⟩
  obtain ⟨hpos, hle⟩ := padCount_bounds m.length
  exact ⟨rfl, hpos, hle, rfl, pkcs7Pad_length m, take_pkcs7Pad m, padOk_pkcs7Pad m, padByte_pkcs7Pad m⟩

end Sys2Proof.Machine
end

section
/-! SUPPORT. Proofs of the statements about AESENC and AESDEC (41_aes_cbc.md R221 to R234): the region checks of a
command, what a write at DST leaves, and the endings of both commands. -/

namespace Sys2Proof.Machine

/-! ### The checks of the commands that write -/

/-- Checks 2 and 3 of a command, over its regions of 30_encoding.md R135 (60_exceptions.md R345). -/
abbrev State.regionChecks (i : Instr) (s : State) : List Check :=
  [s.rangeCheck (readRegions i s ++ [writeRegion i s]), overlapCheck (writeRegion i s) (readRegions i s)]

theorem State.rangeCheck_regions_passes {i : Instr} {s : State} :
    (s.rangeCheck (readRegions i s ++ [writeRegion i s])).fails = false ↔ RangeOk i s :=
  State.rangeCheck_passes s _

theorem State.overlapCheck_regions_passes {i : Instr} {s : State} (hi : i ≠ .loadkeys) :
    (overlapCheck (writeRegion i s) (readRegions i s)).fails = false ↔ OverlapOk i s :=
  (overlapCheck_passes _ _).trans (or_iff_right hi).symm

/-- The first error of a command that checks its regions: RANGE, then OVERLAP, then those of its further checks
(60_exceptions.md R345). -/
theorem State.firstError_regionChecks {i : Instr} {s : State} (hi : i ≠ .loadkeys) (rest : List Check) :
    (¬ RangeOk i s → firstError (s.regionChecks i ++ rest) = some .range)
      ∧ (RangeOk i s → ¬ OverlapOk i s → firstError (s.regionChecks i ++ rest) = some .overlap)
      ∧ (RangeOk i s → OverlapOk i s → firstError (s.regionChecks i ++ rest) = firstError rest) := by
  rw [← State.rangeCheck_regions_passes, ← State.overlapCheck_regions_passes hi, Bool.not_eq_false, Bool.not_eq_false]
  refine ⟨fun hr => ?_, fun hr ho => ?_, fun hr ho => ?_⟩
  · simp [hr]
  · simp [hr, ho]
  · simp [hr, ho]

/-- Both errors of a command that checks its regions first, RANGE before OVERLAP (60_exceptions.md R345). -/
theorem region_errors {i : Instr} {s : State} {rest : List Check} {ok : Unit → State} (hi : i ≠ .loadkeys)
    (h : exec i s = s.guarded (s.regionChecks i ++ rest) ok) :
    (¬ RangeOk i s → EndsOnlyWithError i .range s)
      ∧ (RangeOk i s → ¬ OverlapOk i s → EndsOnlyWithError i .overlap s) := by
  obtain ⟨hrange, hoverlap, -⟩ := State.firstError_regionChecks (s := s) hi rest
  exact ⟨fun hr => endsOnlyWithError_of_raiseError (h.trans (State.guarded_error (hrange hr))),
    fun hr ho => endsOnlyWithError_of_raiseError (h.trans (State.guarded_error (hoverlap hr ho)))⟩

/-- A command that passes its region checks ends with the first error of its further checks (60_exceptions.md R345). -/
theorem endsOnlyWithError_of_rest {i : Instr} {s : State} {rest : List Check} {ok : Unit → State} {e : ErrCode}
    (hi : i ≠ .loadkeys) (h : exec i s = s.guarded (s.regionChecks i ++ rest) ok) (hr : RangeOk i s)
    (ho : OverlapOk i s) (he : firstError rest = some e) : EndsOnlyWithError i e s := by
  obtain ⟨-, -, hpass⟩ := State.firstError_regionChecks (s := s) hi rest
  exact endsOnlyWithError_of_raiseError (h.trans (State.guarded_error ((hpass hr ho).trans he)))

/-- A command that passes its region checks and its further checks has its effect (60_exceptions.md R345). -/
theorem exec_of_rest {i : Instr} {s : State} {rest : List Check} {ok : Unit → State}
    (hi : i ≠ .loadkeys) (h : exec i s = s.guarded (s.regionChecks i ++ rest) ok) (hr : RangeOk i s)
    (ho : OverlapOk i s) (he : firstError rest = none) : exec i s = .next (ok ()) := by
  obtain ⟨-, -, hpass⟩ := State.firstError_regionChecks (s := s) hi rest
  exact h.trans (State.guarded_ok ((hpass hr ho).trans he))

/-- A command that reads SRC and the IV passes its region checks under the conditions on the three regions
(20_memory.md R95, R96). -/
theorem cipher_regions_ok {i : Instr} {s : State} (hread : readRegions i s = [s.src, s.ivRegion])
    (hsrc : s.src.InRange s.cfg.memBytes) (hiv : s.ivRegion.InRange s.cfg.memBytes)
    (hout : (writeRegion i s).InRange s.cfg.memBytes) (hosrc : ¬ (writeRegion i s).Overlaps s.src)
    (hoiv : ¬ (writeRegion i s).Overlaps s.ivRegion) : RangeOk i s ∧ OverlapOk i s := by
  rw [RangeOk, OverlapOk, hread]
  exact ⟨List.forall_mem_cons.mpr ⟨hsrc, List.forall_mem_cons.mpr ⟨hiv, List.forall_mem_singleton.mpr hout⟩⟩,
    .inr (List.forall_mem_cons.mpr ⟨hosrc, List.forall_mem_singleton.mpr hoiv⟩)⟩

/-- A string written at DST is read back there, and nothing else of the buffer changes (20_memory.md R94). -/
theorem State.writeMem_dst (s : State) {v : ByteString} {n : Nat} (hv : v.length = n) :
    (s.writeMem s.dstAddr.toNat v).mem.readBytes s.dstAddr.toNat n = v
      ∧ SameBufferOutside (s.dst n) s (s.writeMem s.dstAddr.toNat v) := by
  subst hv
  exact ⟨Memory.readBytes_write_same _ _ _, fun _ => Memory.read_write_outside _ _ _ _⟩

theorem Memory.take_readBytes (m : Memory) (a : Nat) {k n : Nat} (h : k ≤ n) :
    (m.readBytes a n).take k = m.readBytes a k := by
  rw [Memory.readBytes, Memory.readBytes, ← List.map_take, List.take_range, Nat.min_eq_left h]

/-- OUT_LEN holds every length below 2^32 (10_state.md R48). -/
theorem State.complete_outLen_toNat {s : State} {i : Instr} {r : Bool} {n : Nat} (h : n < 2 ^ 32) :
    (s.complete i r n).outLen.toNat = n := by
  rw [State.complete_outLen, BitVec.toNat_ofNat, Nat.mod_eq_of_lt h]

/-! ### AESENC -/

theorem exec_aesenc (s : State) :
    exec .aesenc s = s.guarded (s.regionChecks .aesenc ++ [s.encKeyCheck]) fun _ =>
      (s.writeMem s.dstAddr.toNat (cbcEnc s.encKey.bytes (s.readRegion s.ivRegion) (s.readRegion s.src))).complete
        .aesenc false s.aesencLen := rfl

/-- The ciphertext of the source has the length of AESENC's write region (41_aes_cbc.md R212, R221). -/
theorem State.cbcEnc_src_length (s : State) (key iv : ByteString) :
    (cbcEnc key iv (s.readRegion s.src)).length = s.aesencLen := by
  rw [cbcEnc_length, State.readRegion_length, State.src_len, paddedLen, State.aesencLen]

/-- Settles O30. -/
theorem aesencEncryptsTheSource : Obligations.AesencEncryptsTheSource := by
  refine ⟨decode_encode .aesenc, fun s => ⟨?_, ?_⟩⟩
  · intro hwf hsrc hiv hout hosrc hoiv hkey
    obtain ⟨hr, ho⟩ := cipher_regions_ok (i := .aesenc) rfl hsrc hiv hout hosrc hoiv
    obtain ⟨-, -, hmax, -⟩ := hwf
    have hfits : s.aesencLen < 2 ^ 32 := (Nat.le_of_add_left_le hout).trans_lt (hmax.trans_lt (by decide))
    obtain ⟨hwritten, houtside⟩ :=
      s.writeMem_dst (s.cbcEnc_src_length s.encKey.bytes (s.readRegion s.ivRegion))
    exact ⟨_, exec_of_rest (by decide) (exec_aesenc s) hr ho (by simp [hkey]), hwritten, houtside,
      ⟨rfl, rfl, rfl, rfl, rfl, State.complete_outLen_toNat hfits⟩, ⟨rfl, rfl, rfl, rfl⟩,
      ⟨rfl, rfl, rfl, rfl, rfl, rfl, rfl⟩, ⟨rfl, rfl, rfl, rfl, rfl, rfl, rfl⟩⟩
  · obtain ⟨hrange, hoverlap⟩ := region_errors (by decide) (exec_aesenc s)
    exact ⟨hrange, hoverlap, fun hr ho hkey =>
      endsOnlyWithError_of_rest (by decide) (exec_aesenc s) hr ho (by simp [hkey])⟩

/-! ### AESDEC -/

/-- The checks of AESDEC after those of its regions, in their order (60_exceptions.md R345). -/
abbrev State.aesdecChecks (s : State) : List Check := [s.encKeyCheck, s.authCheck, s.cipherLengthCheck]

theorem exec_aesdec (s : State) :
    exec .aesdec s = s.guarded (s.regionChecks .aesdec ++ s.aesdecChecks) fun _ => s.finishDecrypt := rfl

@[simp] theorem State.authCheck_code (s : State) : s.authCheck.code = .notAuth := rfl

@[simp] theorem State.authCheck_fails (s : State) : s.authCheck.fails = !s.auth := rfl

@[simp] theorem State.cipherLengthCheck_code (s : State) : s.cipherLengthCheck.code = .integrity := rfl

@[simp] theorem State.cipherLengthCheck_fails (s : State) :
    s.cipherLengthCheck.fails = decide (s.srcLen.toNat = 0 ∨ s.srcLen.toNat % 16 ≠ 0) := rfl

/-- No check of AESDEC has the code NONE. -/
theorem State.allAesdecChecks_code_ne_noError (s : State) :
    ∀ c ∈ s.regionChecks .aesdec ++ s.aesdecChecks, c.code ≠ .noError := by
  simp

/-- All checks of AESDEC, in order: its key and the latch, then whole blocks (41_aes_cbc.md R230 to R232). -/
theorem State.firstError_aesdecChecks {s : State} (hkey : s.encKeyValid = true) :
    (s.auth = false → firstError s.aesdecChecks = some .notAuth)
      ∧ (s.auth = true → (s.srcLen.toNat = 0 ∨ s.srcLen.toNat % 16 ≠ 0) →
          firstError s.aesdecChecks = some .integrity)
      ∧ (s.auth = true → s.srcLen.toNat ≠ 0 → s.srcLen.toNat % 16 = 0 → firstError s.aesdecChecks = none) := by
  refine ⟨fun hauth => ?_, fun hauth hlen => ?_, fun hauth hpos hmod => ?_⟩
  · simp [hkey, hauth]
  · simp [hkey, hauth, hlen]
  · simp [hkey, hauth, hpos, hmod]

/-- An AESDEC that passes its checks ends as 41_aes_cbc.md R233 and R234 say. -/
theorem exec_aesdec_of_checks {s : State} (hr : RangeOk .aesdec s) (ho : OverlapOk .aesdec s)
    (hkey : s.encKeyValid = true) (hauth : s.auth = true) (hpos : s.srcLen.toNat ≠ 0)
    (hmod : s.srcLen.toNat % 16 = 0) : exec .aesdec s = .next s.finishDecrypt := by
  obtain ⟨-, -, hpass⟩ := State.firstError_aesdecChecks hkey
  exact exec_of_rest (by decide) (exec_aesdec s) hr ho (hpass hauth hpos hmod)

theorem State.finishDecrypt_of_padOk {s : State} (h : padOk s.rawPlaintext = true) :
    s.finishDecrypt = (s.writeMem s.dstAddr.toNat
      (s.rawPlaintext.take (s.srcLen.toNat - padByte s.rawPlaintext) ++ zeros (padByte s.rawPlaintext))).complete
      .aesdec false (s.srcLen.toNat - padByte s.rawPlaintext) := if_pos h

theorem State.finishDecrypt_of_badPad {s : State} (h : padOk s.rawPlaintext = false) :
    s.finishDecrypt = (s.writeMem s.dstAddr.toNat (zeros s.srcLen.toNat)).raiseError .integrity :=
  if_neg (Bool.eq_false_iff.mp h)

/-- The plaintext and its zero bytes fill AESDEC's write region (41_aes_cbc.md R233). -/
theorem State.wiped_rawPlaintext_length {s : State} (hpos : s.srcLen.toNat ≠ 0) (hmod : s.srcLen.toNat % 16 = 0)
    (hpad : padOk s.rawPlaintext = true) :
    (s.rawPlaintext.take (s.srcLen.toNat - padByte s.rawPlaintext) ++ zeros (padByte s.rawPlaintext)).length
      = s.srcLen.toNat := by
  have hlen := State.rawPlaintext_length hmod
  obtain ⟨-, hle, -⟩ := (padOk_iff (by omega)).mp hpad
  rw [List.length_append, List.length_take, zeros_length, hlen]
  omega

/-- Settles O31. -/
theorem aesdecDecryptsWhenAuthorised : Obligations.AesdecDecryptsWhenAuthorised := by
  intro s hsrc hiv hout hosrc hoiv hkey hauth hpos hmod hpad
  obtain ⟨hr, ho⟩ := cipher_regions_ok (i := .aesdec) rfl hsrc hiv hout hosrc hoiv
  have hexec := exec_aesdec_of_checks hr ho hkey hauth hpos hmod
  rw [State.finishDecrypt_of_padOk hpad] at hexec
  obtain ⟨hwritten, houtside⟩ := s.writeMem_dst (State.wiped_rawPlaintext_length hpos hmod hpad)
  have hfits : s.srcLen.toNat - padByte s.rawPlaintext < 2 ^ 32 := (Nat.sub_le _ _).trans_lt s.srcLen.isLt
  exact ⟨_, hexec, hwritten, houtside, ⟨rfl, rfl, rfl, rfl, rfl, State.complete_outLen_toNat hfits⟩,
    ⟨rfl, rfl, rfl, rfl⟩, ⟨rfl, rfl, rfl, rfl, rfl, rfl, rfl⟩, ⟨rfl, rfl, rfl, rfl, rfl, rfl, rfl⟩⟩

/-- Settles O32. -/
theorem badPaddingZeroesTheOutput : Obligations.BadPaddingZeroesTheOutput := by
  intro s hr ho hkey hauth hpos hmod hpad
  have hexec := exec_aesdec_of_checks hr ho hkey hauth hpos hmod
  rw [State.finishDecrypt_of_badPad hpad] at hexec
  obtain ⟨hwritten, houtside⟩ := s.writeMem_dst (zeros_length s.srcLen.toNat)
  exact ⟨_, hexec, ⟨rfl, rfl, rfl, rfl, rfl, rfl⟩, hwritten, houtside, ⟨rfl, rfl, rfl, rfl⟩,
    ⟨rfl, rfl, rfl, rfl, rfl, rfl, rfl⟩, ⟨rfl, rfl, rfl, rfl, rfl, rfl, rfl⟩⟩

/-- Settles O33. -/
theorem ciphertextMustBeWholeBlocks : Obligations.CiphertextMustBeWholeBlocks := by
  intro s hr ho hkey hauth hlen
  obtain ⟨-, hintegrity, -⟩ := State.firstError_aesdecChecks hkey
  exact endsOnlyWithError_of_rest (by decide) (exec_aesdec s) hr ho (hintegrity hauth hlen)

/-- Settles O34: the latch is one of the checks, so with AUTH 0 some check fails, and no check has the code NONE. -/
theorem aesdecNeedsTheAuthLatch : Obligations.AesdecNeedsTheAuthLatch := by
  intro s hauth
  constructor
  · cases he : firstError (s.regionChecks .aesdec ++ s.aesdecChecks) with
    | none =>
      have hpass := (firstError_eq_none _).mp he s.authCheck (by simp)
      simp [hauth] at hpass
    | some e =>
      obtain ⟨c, hc, -, rfl⟩ := firstError_mem he
      exact ⟨_, (exec_aesdec s).trans (State.guarded_error he), s.allAesdecChecks_code_ne_noError c hc, rfl,
        ⟨rfl, rfl, rfl, rfl⟩⟩
  · intro hr ho hkey
    obtain ⟨hnotAuth, -, -⟩ := State.firstError_aesdecChecks hkey
    exact endsOnlyWithError_of_rest (by decide) (exec_aesdec s) hr ho (hnotAuth hauth)

/-! ### AESDEC after AESENC -/

/-- An AESENC that ends without error has written the ciphertext of its source (41_aes_cbc.md R221). -/
theorem readBytes_dst_of_aesenc {s t : State} (h : exec .aesenc s = .next t) (hwell : t.err = .noError) :
    t.mem.readBytes s.dstAddr.toNat s.aesencLen
      = cbcEnc s.encKey.bytes (s.readRegion s.ivRegion) (s.readRegion s.src) := by
  rw [exec_aesenc] at h
  have hpass := (State.guarded_noError_iff h (by simp) rfl).mp hwell
  cases h.symm.trans (State.guarded_ok hpass)
  exact (s.writeMem_dst (s.cbcEnc_src_length _ _)).1

/-- The raw plaintext of a ciphertext sealed with the same key and IV is the padded source (41_aes_cbc.md R215). -/
theorem State.rawPlaintext_of_sealed {u : State} {key iv m : ByteString} (hkey : u.encKey.bytes = key)
    (hiv : u.readRegion u.ivRegion = iv) (hc : u.readRegion u.src = cbcEnc key iv m) :
    u.rawPlaintext = pkcs7Pad m := by
  rw [State.rawPlaintext, hc, ← hkey, ← hiv]
  exact cbcDecryptionUndoesEncryption _ _ _ (by simp)

/-- Settles O35: the raw plaintext is the padded source, whose padding is right. -/
theorem aesdecRecoversWhatAesencSealed : Obligations.AesdecRecoversWhatAesencSealed := by
  intro s t u ht hwell hkey hvalid hauth hlen hsrc hiv hr ho
  have hraw : u.rawPlaintext = pkcs7Pad (s.readRegion s.src) :=
    State.rawPlaintext_of_sealed (congrArg Key.bytes hkey) hiv (hsrc.trans (readBytes_dst_of_aesenc ht hwell))
  have hpad : padOk u.rawPlaintext = true := hraw ▸ padOk_pkcs7Pad _
  have hpos : u.srcLen.toNat ≠ 0 := by omega
  have hmod : u.srcLen.toNat % 16 = 0 := by omega
  have hplain : u.srcLen.toNat - padByte u.rawPlaintext = s.srcLen.toNat := by
    rw [hraw, padByte_pkcs7Pad, hlen, State.readRegion_length, State.src_len, padCount]
    omega
  have hexec := exec_aesdec_of_checks hr ho hvalid hauth hpos hmod
  obtain ⟨hwritten, -⟩ := u.writeMem_dst (State.wiped_rawPlaintext_length hpos hmod hpad)
  rw [State.finishDecrypt_of_padOk hpad] at hexec
  refine ⟨_, hexec, rfl, ?_, ?_⟩
  · rw [State.complete_outLen, hplain, BitVec.ofNat_toNat, BitVec.setWidth_eq]
  · have htake : (u.rawPlaintext.take s.srcLen.toNat).length = s.srcLen.toNat := by
      rw [List.length_take, State.rawPlaintext_length hmod]
      omega
    have hsource : (s.readRegion s.src).length = s.srcLen.toNat := by simp
    rw [State.complete_mem, ← Memory.take_readBytes _ _ (n := u.srcLen.toNat) (by omega), hwritten, hplain,
      List.take_left' htake, hraw, ← hsource, take_pkcs7Pad]

end Sys2Proof.Machine
end

section
/-! SUPPORT. Proofs of the statements about HMAC-SHA256 (42_hmac_sha256.md R258 to R271): the HMAC under the block's
key, the comparison by CT_EQ, and the commands HMAC and HMACVERIFY. -/

namespace Sys2Proof.Machine

/-! ### HMAC-SHA256 under MAC_KEY -/

/-- K0 of a key register is its 32 bytes and 32 zero bytes (42_hmac_sha256.md R258). -/
theorem hmacKeyBlock_keyBytes (hash : ByteString → ByteString) (k : Key) :
    hmacKeyBlock hash k.bytes = k.bytes ++ zeros 32 := by
  have hlen : k.bytes.length ≤ 64 := by simp
  rw [hmacKeyBlock_of_length_le hash hlen, Key.bytes_length]

/-- Settles O38: the block's key is too short for the long-key branch. -/
theorem hmacOfTheBlockKey : Obligations.HmacOfTheBlockKey := by
  intro k m
  refine ⟨?_, hmacSha256_length k.bytes m⟩
  rw [hmacSha256, hmacWith, hmacKeyBlock_keyBytes]

/-! ### The comparison -/

/-- The OR of bytes into an accumulator is 0 exactly when all of them are (43_compare.md R291). -/
theorem foldl_or_eq_zero_iff {xs : ByteString} {acc : Byte} :
    xs.foldl (· ||| ·) acc = 0 ↔ acc = 0 ∧ ∀ x ∈ xs, x = 0 := by
  induction xs generalizing acc with
  | nil => simp
  | cons x xs ih =>
    have hhead : acc ||| x = 0 ↔ acc = 0 ∧ x = 0 := BitVec.or_eq_zero_iff
    rw [List.foldl_cons, ih, hhead, List.forall_mem_cons, and_assoc]

/-- Strings of one length have an XOR of zero bytes exactly when they are equal. -/
theorem xorBytes_all_zero_iff {a b : ByteString} (h : a.length = b.length) :
    (∀ x ∈ xorBytes a b, x = 0) ↔ a = b := by
  induction a generalizing b with
  | nil => simp [xorBytes, List.length_eq_zero_iff.mp h.symm]
  | cons x xs ih =>
    obtain ⟨y, ys, rfl⟩ := List.exists_cons_of_length_eq_add_one h.symm
    have hhead : x ^^^ y = 0 ↔ x = y := BitVec.xor_eq_zero_iff
    have htail : (∀ z ∈ xorBytes xs ys, z = 0) ↔ xs = ys := ih (Nat.succ.inj h)
    rw [xorBytes] at htail ⊢
    rw [List.zipWith_cons_cons, List.forall_mem_cons, hhead, htail, List.cons_eq_cons]

/-- CT_EQ answers 1 exactly for equal strings, lengths included (43_compare.md R291). -/
theorem ctEq_iff_eq {a b : ByteString} : ctEq a b = true ↔ a = b := by
  by_cases hlen : a.length = b.length
  · rw [ctEq, if_neg (not_not.mpr hlen), beq_iff_eq, ctAccumulate, foldl_or_eq_zero_iff, xorBytes_all_zero_iff hlen]
    exact and_iff_right rfl
  · rw [ctEq, if_pos hlen]
    exact iff_of_false nofun fun h => hlen (congrArg List.length h)

/-! ### HMAC -/

theorem exec_hmac (s : State) :
    exec .hmac s = s.guarded (s.regionChecks .hmac ++ [s.macKeyCheck]) fun _ =>
      (s.writeMem s.dstAddr.toNat s.tag).complete .hmac false 32 := rfl

/-- HMAC passes its region checks under the conditions on its two regions (20_memory.md R95, R96). -/
theorem hmac_regions_ok {s : State} (hsrc : s.src.InRange s.cfg.memBytes) (hout : (s.dst 32).InRange s.cfg.memBytes)
    (hosrc : ¬ (s.dst 32).Overlaps s.src) : RangeOk .hmac s ∧ OverlapOk .hmac s :=
  ⟨List.forall_mem_cons.mpr ⟨hsrc, List.forall_mem_singleton.mpr hout⟩, .inr (List.forall_mem_singleton.mpr hosrc)⟩

/-- Settles O36. -/
theorem hmacWritesTheTag : Obligations.HmacWritesTheTag := by
  refine ⟨decode_encode .hmac, fun s => ⟨?_, ?_⟩⟩
  · intro hsrc hout hosrc hkey
    obtain ⟨hr, ho⟩ := hmac_regions_ok hsrc hout hosrc
    obtain ⟨hwritten, houtside⟩ := s.writeMem_dst s.tag_length
    exact ⟨_, exec_of_rest (by decide) (exec_hmac s) hr ho (by simp [hkey]), hwritten, houtside,
      ⟨rfl, rfl, rfl, rfl, rfl, rfl⟩, ⟨rfl, rfl, rfl, rfl⟩, ⟨rfl, rfl, rfl, rfl, rfl, rfl, rfl⟩,
      ⟨rfl, rfl, rfl, rfl, rfl, rfl, rfl⟩⟩
  · obtain ⟨hrange, hoverlap⟩ := region_errors (by decide) (exec_hmac s)
    exact ⟨hrange, hoverlap, fun hr ho hkey =>
      endsOnlyWithError_of_rest (by decide) (exec_hmac s) hr ho (by simp [hkey])⟩

/-! ### HMACVERIFY -/

/-- The checks of HMACVERIFY, in their order (42_hmac_sha256.md R270). -/
abbrev State.verifyChecks (s : State) : List Check := [s.rangeCheck [s.src, s.aux], s.macKeyCheck]

/-- CT_EQ rejects a tag of another length than 32 by itself (43_compare.md R291). -/
theorem State.ctEq_tag_of_auxLen_ne {s : State} (h : s.auxLen.toNat ≠ 32) :
    ctEq s.tag (s.readRegion s.aux) = false :=
  if_pos (by simpa using h.symm)

/-- The early rejection of a tag by its length does not show: HMACVERIFY always ends with the answer of CT_EQ
(42_hmac_sha256.md R270, R271). -/
theorem exec_hmacverify (s : State) :
    exec .hmacverify s = s.guarded s.verifyChecks fun _ =>
      s.complete .hmacverify (ctEq s.tag (s.readRegion s.aux)) 0 := by
  by_cases hlen : s.auxLen.toNat = 32
  · simp [exec, execHmacverify, hlen]
  · simp [exec, execHmacverify, hlen, State.ctEq_tag_of_auxLen_ne hlen]

/-- The answer of HMACVERIFY is 1 exactly for the tag of 32 bytes (42_hmac_sha256.md R270). -/
theorem State.ctEq_tag_iff {s : State} :
    ctEq s.tag (s.readRegion s.aux) = true ↔ s.auxLen.toNat = 32 ∧ s.readRegion s.aux = s.tag := by
  rw [ctEq_iff_eq, eq_comm]
  refine (and_iff_right_of_imp fun h => ?_).symm
  simpa using congrArg List.length h

/-- The range check of HMACVERIFY is that of all its regions: as KDF32 it reads SRC and AUX and writes none
(30_encoding.md R135). -/
theorem rangeOk_hmacverify_iff {s : State} :
    RangeOk .hmacverify s ↔ (s.rangeCheck [s.src, s.aux]).fails = false :=
  rangeOk_kdf32_iff.trans State.kdfRangeCheck_passes.symm

/-- The first error of HMACVERIFY: RANGE, then NO_KEY (60_exceptions.md R345). -/
theorem State.firstError_verifyChecks (s : State) :
    (¬ RangeOk .hmacverify s → firstError s.verifyChecks = some .range)
      ∧ (RangeOk .hmacverify s → s.macKeyValid = false → firstError s.verifyChecks = some .noKey)
      ∧ (RangeOk .hmacverify s → s.macKeyValid = true → firstError s.verifyChecks = none) := by
  rw [rangeOk_hmacverify_iff, Bool.not_eq_false]
  refine ⟨fun hr => ?_, fun hr hkey => ?_, fun hr hkey => ?_⟩
  · simp [hr]
  · simp [hr, hkey]
  · simp [hr, hkey]

/-- Settles O37: without an error the answer is that of CT_EQ on the tag and the expected tag. -/
theorem hmacverifySetsResultAndAuth : Obligations.HmacverifySetsResultAndAuth := by
  refine ⟨decode_encode .hmacverify, fun s => ?_⟩
  obtain ⟨hrange, hnoKey, hpass⟩ := s.firstError_verifyChecks
  refine ⟨fun hsrc haux hkey => ?_, fun hr => ?_, fun hr hkey => ?_⟩
  · have hr : RangeOk .hmacverify s := rangeOk_hmacverify_iff.mpr (State.kdfRangeCheck_passes.mpr ⟨hsrc, haux⟩)
    exact ⟨_, (exec_hmacverify s).trans (State.guarded_ok (hpass hr hkey)), State.ctEq_tag_iff,
      ⟨rfl, rfl, rfl, rfl, rfl, rfl⟩, ⟨rfl, rfl, rfl, rfl⟩, ⟨rfl, rfl, rfl, rfl, rfl, rfl, rfl⟩,
      ⟨rfl, rfl, rfl, rfl, rfl, rfl, rfl⟩, rfl⟩
  · exact endsOnlyWithError_of_raiseError ((exec_hmacverify s).trans (State.guarded_error (hrange hr)))
  · exact endsOnlyWithError_of_raiseError ((exec_hmacverify s).trans (State.guarded_error (hnoKey hr hkey)))

end Sys2Proof.Machine
end

section
/-! SUPPORT. Proofs of the statements about the comparator (43_compare.md R291, R295): CT_EQ and the command CTCMP. -/

namespace Sys2Proof.Machine

/-- Settles O39: every byte of the accumulated XOR is 0 exactly for equal strings. -/
theorem comparatorDecidesEquality : Obligations.ComparatorDecidesEquality := fun _ _ => ctEq_iff_eq

/-! ### CTCMP -/

/-- The one check of CTCMP (43_compare.md R295). -/
abbrev State.ctcmpChecks (s : State) : List Check := [s.rangeCheck [s.src, s.aux]]

theorem exec_ctcmp (s : State) :
    exec .ctcmp s = s.guarded s.ctcmpChecks fun _ =>
      s.complete .ctcmp (ctEq (s.readRegion s.src) (s.readRegion s.aux)) 0 := rfl

/-- CTCMP finds no error exactly when both its regions, those of a key derivation, are in range (20_memory.md R95). -/
theorem State.firstError_ctcmpChecks_eq_none {s : State} :
    firstError s.ctcmpChecks = none ↔ s.src.InRange s.cfg.memBytes ∧ s.aux.InRange s.cfg.memBytes := by
  rw [firstError_eq_none, List.forall_mem_singleton, State.kdfRangeCheck_passes]

/-- The only error of CTCMP is RANGE (43_compare.md R295). -/
theorem State.firstError_ctcmpChecks_range {s : State} (h : firstError s.ctcmpChecks ≠ none) :
    firstError s.ctcmpChecks = some .range := by
  obtain ⟨e, he⟩ := Option.ne_none_iff_exists'.mp h
  obtain ⟨c, hc, -, rfl⟩ := firstError_mem he
  rw [he, List.mem_singleton.mp hc, State.rangeCheck_code]

/-- Settles O40: in range, CTCMP completes with the answer of CT_EQ on its two regions; else it only raises RANGE. -/
theorem ctcmpComparesTheRegions : Obligations.CtcmpComparesTheRegions := by
  refine ⟨decode_encode .ctcmp, fun s => ⟨fun hsrc haux => ?_, fun hrange => ?_⟩⟩
  · have hpass : firstError s.ctcmpChecks = none := State.firstError_ctcmpChecks_eq_none.mpr ⟨hsrc, haux⟩
    exact ⟨_, (exec_ctcmp s).trans (State.guarded_ok hpass), ctEq_iff_eq, ⟨rfl, rfl, rfl, rfl, rfl, rfl⟩,
      ⟨rfl, rfl, rfl, rfl⟩, ⟨rfl, rfl, rfl, rfl, rfl, rfl, rfl⟩, ⟨rfl, rfl, rfl, rfl, rfl, rfl, rfl⟩, rfl⟩
  · have herror : firstError s.ctcmpChecks = some .range :=
      State.firstError_ctcmpChecks_range (mt State.firstError_ctcmpChecks_eq_none.mp hrange)
    exact endsOnlyWithError_of_raiseError ((exec_ctcmp s).trans (State.guarded_error herror))

end Sys2Proof.Machine
end

section
/-! SUPPORT. Proofs of the statements about key management (44_key_management.md R311 to R325): the checks of LOADKEYS,
the wiped source, and the commands LOADKEYS, ZEROIZE and ZEROIZE_ALL. -/

namespace Sys2Proof.Machine

/-! ### The checks of LOADKEYS -/

/-- The checks of LOADKEYS, in their order (44_key_management.md R312, 60_exceptions.md R345). -/
abbrev State.loadkeysChecks (s : State) : List Check := [s.rangeCheck [s.src], s.sessionLengthCheck]

theorem exec_loadkeys (s : State) :
    exec .loadkeys s = s.guarded s.loadkeysChecks fun _ =>
      ((s.loadBothKeys ((s.readRegion s.src).take 32) ((s.readRegion s.src).drop 32)).writeMem
        s.srcAddr.toNat (zeros 64)).complete .loadkeys false 0 := rfl

@[simp] theorem State.sessionLengthCheck_code (s : State) : s.sessionLengthCheck.code = .length := rfl

@[simp] theorem State.sessionLengthCheck_fails (s : State) :
    s.sessionLengthCheck.fails = decide (s.srcLen.toNat ≠ 64) := rfl

/-- The range check of LOADKEYS passes exactly when its source is in range (20_memory.md R95). -/
theorem State.srcRangeCheck_passes {s : State} :
    (s.rangeCheck [s.src]).fails = false ↔ s.src.InRange s.cfg.memBytes := by
  rw [State.rangeCheck_passes, List.forall_mem_singleton]

/-- The first error of LOADKEYS: RANGE, then LENGTH (44_key_management.md R312, 60_exceptions.md R345). -/
theorem State.firstError_loadkeysChecks (s : State) :
    (¬ s.src.InRange s.cfg.memBytes → firstError s.loadkeysChecks = some .range)
      ∧ (s.src.InRange s.cfg.memBytes → s.srcLen.toNat ≠ 64 → firstError s.loadkeysChecks = some .length)
      ∧ (s.src.InRange s.cfg.memBytes → s.srcLen.toNat = 64 → firstError s.loadkeysChecks = none) := by
  rw [← State.srcRangeCheck_passes, Bool.not_eq_false]
  refine ⟨fun hr => ?_, fun hr hlen => ?_, fun hr hlen => ?_⟩
  · simp [hr]
  · simp [hr, hlen]
  · simp [hr, hlen]

/-! ### The wiped source -/

/-- Every byte of a region overwritten with zero bytes reads 0. -/
theorem Memory.read_write_zeros (m : Memory) {a n x : Nat} (h : a ≤ x ∧ x < a + n) :
    (m.write a (zeros n)).read x = 0 := by
  have hx : x - a < n := by omega
  rw [Memory.read_write, zeros_length, if_pos h, zeros, List.getD_replicate _ hx]

/-- Zero bytes over the whole source wipe it, and nothing else of the buffer changes (44_key_management.md R313). -/
theorem State.wipe_src (s : State) {n : Nat} (hn : s.srcLen.toNat = n) :
    (∀ a, s.src.Has a → (s.mem.write s.srcAddr.toNat (zeros n)).read a = 0)
      ∧ ∀ a, ¬ s.src.Has a → (s.mem.write s.srcAddr.toNat (zeros n)).read a = s.mem.read a := by
  subst hn
  refine ⟨fun a ha => Memory.read_write_zeros _ ha, fun a ha => Memory.read_write_outside _ _ _ _ ?_⟩
  rwa [zeros_length]

/-! ### LOADKEYS -/

/-- Settles O21: the source is read as the two keys before the wipe; the errors are those of the two checks. -/
theorem loadkeysLoadsAndWipesTheSource : Obligations.LoadkeysLoadsAndWipesTheSource := by
  refine ⟨decode_encode .loadkeys, fun s => ?_⟩
  obtain ⟨hrange, hlength, hpass⟩ := s.firstError_loadkeysChecks
  refine ⟨fun hr hlen => ?_, fun hr => ?_, fun hr hlen => ?_⟩
  · obtain ⟨hwiped, houtside⟩ := s.wipe_src hlen
    have henc : ((s.readRegion s.src).take 32).length = 32 := by simp [hlen]
    have hmac : ((s.readRegion s.src).drop 32).length = 32 := by simp [hlen]
    exact ⟨_, (exec_loadkeys s).trans (State.guarded_ok (hpass hr hlen)), Key.bytes_ofBytes _ henc,
      Key.bytes_ofBytes _ hmac, rfl, rfl, ⟨rfl, rfl, rfl, rfl, rfl, rfl⟩, hwiped, houtside,
      ⟨rfl, rfl, rfl, rfl, rfl, rfl, rfl⟩, ⟨rfl, rfl, rfl, rfl, rfl, rfl, rfl⟩⟩
  · exact endsOnlyWithError_of_raiseError ((exec_loadkeys s).trans (State.guarded_error (hrange hr)))
  · exact endsOnlyWithError_of_raiseError ((exec_loadkeys s).trans (State.guarded_error (hlength hr hlen)))

/-! ### ZEROIZE and ZEROIZE_ALL -/

theorem exec_zeroize (s : State) : exec .zeroize s = .next (s.wipeKeys.complete .zeroize false 0) := rfl

theorem exec_zeroizeAll (s : State) :
    exec .zeroizeAll s = .next (({ s.wipeKeys with mem := Memory.zeroed } : State).complete .zeroizeAll false 0) := rfl

/-- Settles O22: a completion after the wipe of the keys, with no check before it. -/
theorem zeroizeWipesBothKeys : Obligations.ZeroizeWipesBothKeys :=
  ⟨decode_encode .zeroize, fun s => ⟨_, exec_zeroize s, Key.bytes_zero, Key.bytes_zero, rfl, rfl,
    ⟨rfl, rfl, rfl, rfl, rfl, rfl⟩, rfl, ⟨rfl, rfl, rfl, rfl, rfl, rfl, rfl⟩,
    ⟨rfl, rfl, rfl, rfl, rfl, rfl, rfl⟩⟩⟩

/-- Settles O23: as ZEROIZE, and every byte of the zeroed buffer reads 0. -/
theorem zeroizeAllWipesTheBuffer : Obligations.ZeroizeAllWipesTheBuffer :=
  ⟨decode_encode .zeroizeAll, fun s => ⟨_, exec_zeroizeAll s, Key.bytes_zero, Key.bytes_zero, rfl, rfl,
    ⟨rfl, rfl, rfl, rfl, rfl, rfl⟩, fun a _ => Memory.read_zeroed a, ⟨rfl, rfl, rfl, rfl, rfl, rfl, rfl⟩,
    ⟨rfl, rfl, rfl, rfl, rfl, rfl, rfl⟩⟩⟩

end Sys2Proof.Machine
end

section
/-! SUPPORT. Proofs of the statements about the lifecycle of a command (60_exceptions.md): acceptance, the five checks
in their common order, what a completion records and leaves, and the progress of a BUSY block. -/

namespace Sys2Proof.Machine

/-! ### The five checks in their common order -/

/-- Check 3 of 60_exceptions.md R345; LOADKEYS writes the region it reads and is exempt (30_encoding.md R135). -/
def State.commonOverlapCheck (i : Instr) (s : State) : Check :=
  overlapCheck (writeRegion i s) (if i = .loadkeys then [] else readRegions i s)

/-- Check 4 of 60_exceptions.md R345: the key the command uses, if it uses one. -/
def State.commonKeyCheck (i : Instr) (s : State) : Check :=
  match i with
  | .aesenc => s.encKeyCheck
  | .aesdec => s.encKeyCheck
  | .hmac => s.macKeyCheck
  | .hmacverify => s.macKeyCheck
  | .kdf64 | .kdf32 | .loadkeys | .zeroize | .zeroizeAll | .ctcmp => { fails := false, code := .noKey }

/-- Check 5 of 60_exceptions.md R345: the AUTH latch, for AESDEC. -/
def State.commonAuthCheck (i : Instr) (s : State) : Check := { fails := i == .aesdec && !s.auth, code := .notAuth }

/-- Check 6 of 60_exceptions.md R345: the command's parameters. -/
def State.commonParamCheck (i : Instr) (s : State) : Check :=
  match i with
  | .kdf64 => s.policyCheck
  | .kdf32 => s.policyCheck
  | .loadkeys => s.sessionLengthCheck
  | .aesdec => s.cipherLengthCheck
  | .zeroize | .zeroizeAll | .aesenc | .hmac | .hmacverify | .ctcmp => { fails := false, code := .noError }

/-- Checks 2 to 6 of 60_exceptions.md R345, which every command makes in this order; check 1 is the decoder's. -/
def State.commonChecks (i : Instr) (s : State) : List Check :=
  [s.rangeCheck (readRegions i s ++ [writeRegion i s]), s.commonOverlapCheck i, s.commonKeyCheck i,
    s.commonAuthCheck i, s.commonParamCheck i]

theorem State.commonOverlapCheck_passes {i : Instr} {s : State} :
    (s.commonOverlapCheck i).fails = false ↔ OverlapOk i s := by
  by_cases hi : i = .loadkeys
  · simp [State.commonOverlapCheck, overlapCheck, hi, OverlapOk]
  · rw [State.commonOverlapCheck, if_neg hi, State.overlapCheck_regions_passes hi]

theorem State.commonKeyCheck_passes {i : Instr} {s : State} : (s.commonKeyCheck i).fails = false ↔ KeyOk i s := by
  cases i <;> simp [State.commonKeyCheck, KeyOk]

theorem State.commonAuthCheck_passes {i : Instr} {s : State} : (s.commonAuthCheck i).fails = false ↔ AuthOk i s := by
  simp [State.commonAuthCheck, AuthOk]

theorem State.commonParamCheck_passes {i : Instr} {s : State} :
    (s.commonParamCheck i).fails = false ↔ ParamOk i s := by
  cases i
  case kdf64 => exact State.policyCheck_passes
  case kdf32 => exact State.policyCheck_passes
  all_goals simp [State.commonParamCheck, ParamOk]

@[simp] theorem State.commonOverlapCheck_code (i : Instr) (s : State) : (s.commonOverlapCheck i).code = .overlap := rfl

@[simp] theorem State.commonKeyCheck_code (i : Instr) (s : State) : (s.commonKeyCheck i).code = .noKey := by
  cases i <;> rfl

@[simp] theorem State.commonAuthCheck_code (i : Instr) (s : State) : (s.commonAuthCheck i).code = .notAuth := rfl

@[simp] theorem State.commonParamCheck_code (i : Instr) (s : State) : (s.commonParamCheck i).code = paramError i := by
  cases i <;> rfl

/-- The first error in the common order: the code of the first condition of 60_exceptions.md R345 that fails. -/
theorem State.firstError_commonChecks (i : Instr) (s : State) :
    (¬ RangeOk i s → firstError (s.commonChecks i) = some .range)
      ∧ (RangeOk i s → ¬ OverlapOk i s → firstError (s.commonChecks i) = some .overlap)
      ∧ (RangeOk i s → OverlapOk i s → ¬ KeyOk i s → firstError (s.commonChecks i) = some .noKey)
      ∧ (RangeOk i s → OverlapOk i s → KeyOk i s → ¬ AuthOk i s → firstError (s.commonChecks i) = some .notAuth)
      ∧ (RangeOk i s → OverlapOk i s → KeyOk i s → AuthOk i s → ¬ ParamOk i s →
          firstError (s.commonChecks i) = some (paramError i))
      ∧ (RangeOk i s → OverlapOk i s → KeyOk i s → AuthOk i s → ParamOk i s →
          firstError (s.commonChecks i) = none) := by
  rw [← State.rangeCheck_regions_passes, ← State.commonOverlapCheck_passes, ← State.commonKeyCheck_passes,
    ← State.commonAuthCheck_passes, ← State.commonParamCheck_passes]
  simp only [Bool.not_eq_false, State.commonChecks]
  refine ⟨fun hr => ?_, fun hr ho => ?_, fun hr ho hk => ?_, fun hr ho hk ha => ?_, fun hr ho hk ha hp => ?_,
    fun hr ho hk ha hp => ?_⟩
  · simp [hr]
  · simp [hr, ho]
  · simp [hr, ho, hk]
  · simp [hr, ho, hk, ha]
  · simp [hr, ho, hk, ha, hp]
  · simp [hr, ho, hk, ha, hp]

/-! ### Each command makes the common checks -/

/-- The empty write region of a command that writes none is always in range (30_encoding.md R135). -/
theorem State.rangeCheck_append_empty (s : State) (rs : List Region) :
    s.rangeCheck (rs ++ [{ addr := 0, len := 0 }]) = s.rangeCheck rs := by
  simp [State.rangeCheck]

/-- Nothing overlaps the empty write region (20_memory.md R96). -/
theorem overlapCheck_empty (a : Nat) (rs : List Region) : (overlapCheck { addr := a, len := 0 } rs).fails = false :=
  (overlapCheck_passes _ _).mpr fun _ _ h => Nat.lt_irrefl 0 h.1

/-- What is left of the common checks for a command that writes no region. -/
theorem State.firstError_commonChecks_of_no_write {i : Instr} {s : State}
    (hi : writeRegion i s = { addr := 0, len := 0 }) :
    firstError (s.commonChecks i)
      = firstError [s.rangeCheck (readRegions i s), s.commonKeyCheck i, s.commonAuthCheck i, s.commonParamCheck i] := by
  simp [State.commonChecks, State.commonOverlapCheck, hi, State.rangeCheck_append_empty, overlapCheck_empty]

/-- The common checks of LOADKEYS are its own: its one region counts once, and it is exempt from OVERLAP. -/
theorem State.firstError_commonChecks_loadkeys (s : State) :
    firstError (s.commonChecks .loadkeys) = firstError s.loadkeysChecks := by
  have hrange : s.rangeCheck (readRegions .loadkeys s ++ [writeRegion .loadkeys s]) = s.rangeCheck [s.src] := by
    simp [State.rangeCheck, readRegions, writeRegion]
  rw [State.commonChecks, hrange]
  rfl

/-- No common check fails for ZEROIZE_ALL, whose write region is the whole buffer. -/
theorem State.firstError_commonChecks_zeroizeAll (s : State) : firstError (s.commonChecks .zeroizeAll) = none := by
  have hrange : (s.rangeCheck (readRegions .zeroizeAll s ++ [writeRegion .zeroizeAll s])).fails = false := by
    simp [State.rangeCheck, readRegions, writeRegion]
  rw [State.commonChecks, firstError_cons, hrange]
  rfl

/-- The last state t of a command that passed its checks has no error, but for the padding of AESDEC
(60_exceptions.md R345). -/
def EffectEnds (i : Instr) (s t : State) : Prop :=
  t.err = .noError ∨ (i = .aesdec ∧ padOk s.rawPlaintext = false ∧ t.err = .integrity)

theorem State.finishDecrypt_effectEnds (s : State) : EffectEnds .aesdec s s.finishDecrypt := by
  cases hp : padOk s.rawPlaintext with
  | true => exact .inl (by rw [State.finishDecrypt_of_padOk hp, State.complete_err])
  | false => exact .inr ⟨rfl, hp, by rw [State.finishDecrypt_of_badPad hp, State.raiseError_err]⟩

/-- The command i on s is one guarded by the common checks. -/
def MakesCommonChecks (i : Instr) (s : State) : Prop :=
  ∃ ok, exec i s = s.guarded (s.commonChecks i) ok ∧ EffectEnds i s (ok ())

/-- A command makes the common checks if its own checks find the same first error. -/
theorem makesCommonChecks_of_guarded {i : Instr} {s : State} {cs : List Check} {ok : Unit → State}
    (h : exec i s = s.guarded cs ok) (hcs : firstError (s.commonChecks i) = firstError cs)
    (hok : EffectEnds i s (ok ())) : MakesCommonChecks i s :=
  ⟨ok, by rw [h, State.guarded, State.guarded, hcs], hok⟩

/-- A command without checks of its own makes the common checks if none of them fails. -/
theorem makesCommonChecks_of_next {i : Instr} {s t : State} (h : exec i s = .next t)
    (hcs : firstError (s.commonChecks i) = none) (hok : EffectEnds i s t) : MakesCommonChecks i s :=
  ⟨fun _ => t, by rw [h, State.guarded_ok hcs], hok⟩

/-- EVERY COMMAND MAKES THE COMMON CHECKS: the ones a command does not list cannot fail for it. -/
theorem makesCommonChecks (i : Instr) (s : State) : MakesCommonChecks i s := by
  cases i with
  | kdf64 =>
    exact makesCommonChecks_of_guarded (exec_kdf64 s) (State.firstError_commonChecks_of_no_write rfl) (.inl rfl)
  | kdf32 =>
    exact makesCommonChecks_of_guarded (exec_kdf32 s) (State.firstError_commonChecks_of_no_write rfl) (.inl rfl)
  | loadkeys =>
    exact makesCommonChecks_of_guarded (exec_loadkeys s) s.firstError_commonChecks_loadkeys (.inl rfl)
  | zeroize =>
    have hchecks : firstError (s.commonChecks .zeroize) = none := State.firstError_commonChecks_of_no_write rfl
    exact makesCommonChecks_of_next (exec_zeroize s) hchecks (.inl rfl)
  | zeroizeAll =>
    exact makesCommonChecks_of_next (exec_zeroizeAll s) s.firstError_commonChecks_zeroizeAll (.inl rfl)
  | aesenc => exact makesCommonChecks_of_guarded (exec_aesenc s) rfl (.inl rfl)
  | aesdec => exact makesCommonChecks_of_guarded (exec_aesdec s) rfl s.finishDecrypt_effectEnds
  | hmac => exact makesCommonChecks_of_guarded (exec_hmac s) rfl (.inl rfl)
  | hmacverify =>
    exact makesCommonChecks_of_guarded (exec_hmacverify s) (State.firstError_commonChecks_of_no_write rfl) (.inl rfl)
  | ctcmp =>
    exact makesCommonChecks_of_guarded (exec_ctcmp s) (State.firstError_commonChecks_of_no_write rfl) (.inl rfl)

/-- Settles O11: a command guarded by the common checks ends with the first error they find. -/
theorem checksAreMadeInTheCommonOrder : Obligations.ChecksAreMadeInTheCommonOrder := by
  intro i s
  obtain ⟨ok, hexec, hends⟩ := makesCommonChecks i s
  have herror {e : ErrCode} (h : firstError (s.commonChecks i) = some e) : EndsOnlyWithError i e s :=
    endsOnlyWithError_of_raiseError (hexec.trans (State.guarded_error h))
  obtain ⟨hrange, hoverlap, hkey, hauth, hparam, hpass⟩ := s.firstError_commonChecks i
  exact ⟨fun hr => herror (hrange hr), fun hr ho => herror (hoverlap hr ho),
    fun hr ho hk => herror (hkey hr ho hk), fun hr ho hk ha => herror (hauth hr ho hk ha),
    fun hr ho hk ha hp => herror (hparam hr ho hk ha hp),
    fun hr ho hk ha hp => ⟨_, hexec.trans (State.guarded_ok (hpass hr ho hk ha hp)), hends⟩⟩

/-! ### The completion -/

/-- A command always answers a next state: its error, or its effect. -/
theorem exec_next (i : Instr) (s : State) : ∃ t, exec i s = .next t := by
  obtain ⟨ok, hexec, -⟩ := makesCommonChecks i s
  cases he : firstError (s.commonChecks i) with
  | none => exact ⟨_, hexec.trans (State.guarded_ok he)⟩
  | some e => exact ⟨_, hexec.trans (State.guarded_error he)⟩

theorem completion_instr {s : State} {i : Instr} (h : decode s.cmdl = .instr i) : completion s = exec i s := by
  rw [completion, h]

theorem completion_illegal {s : State} {w : Illegal} (h : decode s.cmdl = .illegal w) :
    completion s = .next (s.raiseError .badCmd) := by
  rw [completion, h]

/-- A completion always answers a next state (60_exceptions.md R343). -/
theorem completion_next (s : State) : ∃ t, completion s = .next t := by
  cases hd : decode s.cmdl with
  | instr i => exact completion_instr hd ▸ exec_next i s
  | illegal w => exact ⟨_, completion_illegal hd⟩

/-- No completion changes CMDL. -/
theorem completion_cmdl {s t : State} (h : completion s = .next t) : t.cmdl = s.cmdl := by
  rcases completion_endings h with ⟨e, m, -, -, rfl⟩ | ⟨i, body, result, outLen, -, hs⟩
  · rfl
  · obtain ⟨-, hcmdl, -⟩ := hs.control
    rw [hs.ended, State.complete_cmdl, hcmdl]

/-- Settles O10. -/
theorem everyCompletionEndsIdleAndDone : Obligations.EveryCompletionEndsIdleAndDone := by
  intro s
  obtain ⟨t, ht⟩ := completion_next s
  exact ⟨t, ht, completion_idle ht, completion_isDone ht, completion_cmdl ht⟩

/-- What raising an error records, and all that it leaves (60_exceptions.md R350). -/
theorem State.raiseError_frame (s : State) (e : ErrCode) :
    EndedWithError e (s.raiseError e) ∧ SameKeys s (s.raiseError e) ∧ SameOperands s (s.raiseError e)
      ∧ SameControl s (s.raiseError e) ∧ (s.raiseError e).mem = s.mem :=
  ⟨⟨rfl, rfl, rfl, rfl, rfl, rfl⟩, ⟨rfl, rfl, rfl, rfl⟩, ⟨rfl, rfl, rfl, rfl, rfl, rfl, rfl⟩,
    ⟨rfl, rfl, rfl, rfl, rfl, rfl, rfl⟩, rfl⟩

/-- Settles O9: all an illegal word does is raise BAD_CMD. -/
theorem illegalWordEndsWithBadCmd : Obligations.IllegalWordEndsWithBadCmd := fun s _ hd =>
  ⟨_, completion_illegal hd, s.raiseError_frame .badCmd⟩

/-- A command ends without error or with an error of its row (60_exceptions.md R346). -/
theorem CommandOutcome.err {i : Instr} {s t : State} (h : CommandOutcome i s t) :
    t.err = .noError ∨ t.err ∈ possibleErrors i := by
  rcases h with ⟨e, he, rfl⟩ | ⟨rfl, -, -, rfl⟩ | ⟨body, result, outLen, hs⟩
  · exact .inr he
  · exact .inr (by decide : ErrCode.integrity ∈ possibleErrors .aesdec)
  · exact .inl (by rw [hs.ended, State.complete_err])

/-- Settles O12. -/
theorem errorsAreThoseOfTheTable : Obligations.ErrorsAreThoseOfTheTable := by
  intro s t ht
  refine ⟨fun w hd => ?_, fun i hd => ?_⟩
  · cases (completion_illegal hd).symm.trans ht
    exact ⟨rfl, rfl, rfl⟩
  · exact (exec_outcome ((completion_instr hd).symm.trans ht)).err

/-- Settles O13: an error is raised on the state as it is, or by AESDEC after the zero bytes over its output. -/
theorem anErrorChangesNothingElse : Obligations.AnErrorChangesNothingElse := by
  intro i s t hexec herr
  rcases exec_outcome hexec with ⟨e, -, rfl⟩ | ⟨rfl, -, hpad, rfl⟩ | ⟨body, result, outLen, hs⟩
  · obtain ⟨hend, hkeys, hops, hctl, hmem⟩ := s.raiseError_frame e
    exact ⟨hend, hkeys, hops, hctl, .inl hmem⟩
  · obtain ⟨hend, hkeys, hops, hctl, -⟩ :=
      (s.writeMem s.dstAddr.toNat (zeros s.srcLen.toNat)).raiseError_frame .integrity
    obtain ⟨-, houtside⟩ := s.writeMem_dst (zeros_length s.srcLen.toNat)
    exact ⟨hend, hkeys, hops, hctl,
      .inr ⟨rfl, rfl, hpad, fun a ha => Memory.read_write_zeros _ ha, houtside⟩⟩
  · exact absurd (by rw [hs.ended, State.complete_err]) herr

/-- Settles O14: without error the outcome is a success, whose record `complete` writes. -/
theorem completionRecordsTheOutcome : Obligations.CompletionRecordsTheOutcome := by
  intro i s t hexec herr
  rcases exec_outcome hexec with ⟨e, he, rfl⟩ | ⟨rfl, -, -, rfl⟩ | ⟨body, result, outLen, hs⟩
  · rw [State.raiseError_err] at herr
    exact absurd (herr ▸ he) (noError_notMem_possibleErrors i)
  · exact absurd herr (by simp)
  · have hend := hs.ended
    subst hend
    exact ⟨rfl, rfl, rfl, hs.answer⟩

/-! ### Acceptance and the step -/

/-- Settles O8. -/
theorem acceptanceLatchesTheWord : Obligations.AcceptanceLatchesTheWord := by
  intro s v
  rw [hostAccess_regWrite]
  refine ⟨fun hidle => ?_, fun hbusy => ?_⟩
  · have hidle' : ¬ s.isBusy = true := by simp [State.isBusy_of_idle hidle]
    rw [State.writeReg_cmd, if_neg hidle']
    exact ⟨_, rfl, rfl, rfl, rfl, rfl, rfl, rfl, ⟨rfl, rfl, rfl, rfl⟩, rfl, rfl, rfl,
      ⟨rfl, rfl, rfl, rfl, rfl, rfl, rfl⟩, rfl, rfl⟩
  · rw [State.writeReg_refused hbusy (by decide)]
    rfl

theorem sequencerTurn_busy {s : State} (h : s.seq = .busy) : sequencerTurn s = completion s := by
  rw [sequencerTurn, h]

theorem step_nil {s : State} (h : s.schedule = []) : step s = sequencerTurn s := by
  rw [step, h]

theorem step_sequencer {s : State} {rest : List Event} (h : s.schedule = .sequencer :: rest) :
    step s = sequencerTurn { s with schedule := rest } := by
  rw [step, h]

/-- Settles O6. -/
theorem stepRunsTheDecodedCommand : Obligations.StepRunsTheDecodedCommand := by
  intro s i hbusy hd
  refine ⟨fun hl => ?_, fun rest hl => ?_⟩
  · rw [step_nil hl, sequencerTurn_busy hbusy, completion_instr hd]
  · have hturn : sequencerTurn { s with schedule := rest } = completion { s with schedule := rest } :=
      sequencerTurn_busy hbusy
    rw [step_sequencer hl, hturn]
    exact completion_instr hd

/-! ### The progress of a BUSY block -/

/-- The state t with the schedule, IRQ_EN, DONE, BUSY_VIOL and the answer of the port put back to those of s. -/
abbrev State.putBack (s t : State) : State :=
  { t with irqEn := s.irqEn, isDone := s.isDone, busyViol := s.busyViol, schedule := s.schedule, resp := s.resp }

/-- From s to t only the schedule moved on and what a host access can change of a BUSY block (20_memory.md R90). -/
abbrev OnlyPortChanged (s t : State) : Prop := s.putBack t = s

theorem OnlyPortChanged.trans {s t u : State} (hst : OnlyPortChanged s t) (htu : OnlyPortChanged t u) :
    OnlyPortChanged s u :=
  calc s.putBack u
    _ = s.putBack (t.putBack u) := rfl
    _ = s.putBack t := congrArg s.putBack htu
    _ = s := hst

theorem OnlyPortChanged.seq {s t : State} (h : OnlyPortChanged s t) : t.seq = s.seq := (congrArg State.seq h :)

theorem OnlyPortChanged.cfg {s t : State} (h : OnlyPortChanged s t) : t.cfg = s.cfg := (congrArg State.cfg h :)

/-- A register write of a BUSY block is a soft reset, or it changes IRQ_EN, DONE and BUSY_VIOL alone. -/
theorem State.writeReg_busy {s : State} (hb : s.seq = .busy) (r : Reg) (v : Word) :
    (r = .ctrl ∧ v.getLsbD 1 = true ∧ s.writeReg r v = s.softReset) ∨ OnlyPortChanged s (s.writeReg r v) := by
  have hbusy : s.isBusy ≠ false := by simp [State.isBusy_of_busy hb]
  rcases writeReg_cases s r v with ⟨-, hidle, -⟩ | hreset | ⟨-, -, hw⟩ | ⟨-, hw⟩ | ⟨hidle, -⟩ | ⟨-, hw⟩ | hw
  · exact absurd hidle hbusy
  · exact .inl hreset
  · exact .inr (hw ▸ rfl)
  · exact .inr (hw ▸ rfl)
  · exact absurd hidle hbusy
  · exact .inr (hw ▸ rfl)
  · exact .inr (hw.symm ▸ rfl)

/-- A host access of a BUSY block resets it, or changes only what OnlyPortChanged lists. -/
theorem hostAccess_busy {s t : State} {a : Access} (hb : s.seq = .busy) (h : hostAccess a s = .next t) :
    (IsReset s.cfg (.access a) ∧ RegistersReset t) ∨ OnlyPortChanged s t := by
  have hbusy : s.isBusy ≠ false := by simp [State.isBusy_of_busy hb]
  cases a with
  | read addr w =>
    rcases hostRead_cases h with ⟨_, -, rfl⟩ | ⟨_, -, -, rfl⟩ | ⟨_, -, hidle, -⟩
    · exact .inr rfl
    · exact .inr rfl
    · exact absurd hidle hbusy
  | write addr d =>
    rcases hostWrite_cases h with ⟨r, ht, rfl⟩ | ⟨_, -, -, rfl⟩ | ⟨_, -, hidle, -⟩
    · rcases State.writeReg_busy hb r (datumWord d) with ⟨rfl, hv, hw⟩ | hkeep
      · rw [hw]
        exact .inl ⟨isReset_of_target_ctrl ht hv, s.softReset_registersReset⟩
      · exact .inr hkeep
    · exact .inr rfl
    · exact absurd hidle hbusy

/-- The host port refuses no access as not modelled: it answers or faults. -/
theorem hostAccess_ne_refused (a : Access) (s : State) (r : Refusal) : hostAccess a s ≠ .refused r := by
  cases a with
  | read addr w =>
    unfold hostAccess hostRead
    cases ht : s.target addr w <;> cases s.isBusy <;> simp [ht]
  | write addr d =>
    unfold hostAccess hostWrite
    cases ht : s.target addr d.width <;> cases s.isBusy <;> simp [ht]

/-- An access that is no bus error is answered. -/
theorem Answers.next {s : State} {a : Access} (h : Answers s a) : ∃ t, hostAccess a s = .next t := by
  cases hout : hostAccess a s with
  | next t => exact ⟨t, rfl⟩
  | fault f => exact absurd hout (h f)
  | refused r => exact absurd hout (hostAccess_ne_refused a s r)

/-- Bus errors depend on the platform parameters alone. -/
theorem Answers.congr {s t : State} {a : Access} (h : Answers s a) (hc : t.cfg = s.cfg) : Answers t a := by
  intro f hf
  rw [hostAccess_fault_iff, Access.target_congr hc] at hf
  exact h f (hostAccess_fault_iff.mpr hf)

/-- The next step of t is the completion of its command, or a reset of the block on the platform cfg. -/
def CompletesOrResetsNext (cfg : Platform) (t : State) : Prop :=
  ((t.schedule = [] ∨ ∃ rest, t.schedule = .sequencer :: rest)
      ∧ ∃ u, step t = .next u ∧ u.seq = .idle ∧ u.isDone = true)
    ∨ ∃ e rest, t.schedule = e :: rest ∧ IsReset cfg e ∧ ∃ u, step t = .next u ∧ RegistersReset u

/-- A BUSY block on the sequencer's turn completes in its next step. -/
theorem sequencerTurn_completes {s : State} (hb : s.seq = .busy) :
    ∃ u, sequencerTurn s = .next u ∧ u.seq = .idle ∧ u.isDone = true := by
  obtain ⟨u, hu⟩ := completion_next s
  exact ⟨u, (sequencerTurn_busy hb).trans hu, completion_idle hu, completion_isDone hu⟩

/-- THE NEXT STEP OF A BUSY BLOCK is its completion, a reset, or an access that leaves it BUSY. -/
theorem step_busy {s : State} (hb : s.seq = .busy) (hans : ∀ a, .access a ∈ s.schedule → Answers s a) :
    CompletesOrResetsNext s.cfg s
      ∨ ∃ a rest u, s.schedule = .access a :: rest ∧ step s = .next u ∧ OnlyPortChanged s u := by
  cases hl : s.schedule with
  | nil => exact .inl (.inl ⟨.inl hl, step_nil hl ▸ sequencerTurn_completes hb⟩)
  | cons e rest =>
    cases e with
    | sequencer => exact .inl (.inl ⟨.inr ⟨rest, hl⟩, step_sequencer hl ▸ sequencerTurn_completes hb⟩)
    | powerOn =>
      exact .inl (.inr ⟨.powerOn, rest, hl, .inl rfl, _, step_powerOn hl, State.powerOnReset_registersReset _⟩)
    | access a =>
      have hanswers : Answers { s with schedule := rest } a := (hans a (by simp [hl])).congr rfl
      obtain ⟨u, hu⟩ := hanswers.next
      rcases hostAccess_busy (s := { s with schedule := rest }) hb hu with ⟨hreset, hregs⟩ | hkeep
      · exact .inl (.inr ⟨_, rest, hl, hreset, u, (step_access hl).trans hu, hregs⟩)
      · have hsched : OnlyPortChanged s { s with schedule := rest } := rfl
        exact .inr ⟨a, rest, u, rfl, (step_access hl).trans hu, hsched.trans hkeep⟩

theorem afterSteps_succ {s t : State} (h : step s = .next t) (n : Nat) : afterSteps (n + 1) s = afterSteps n t := by
  rw [afterSteps, h]

/-- A BUSY block whose accesses are answered comes, by accesses alone, to a state whose next step ends its command. -/
theorem busy_reaches_end {events : List Event} {s : State} (hl : s.schedule = events) (hb : s.seq = .busy)
    (hans : ∀ a, .access a ∈ s.schedule → Answers s a) :
    ∃ n t, n ≤ events.length ∧ afterSteps n s = some t ∧ OnlyPortChanged s t ∧ t.schedule = events.drop n
      ∧ CompletesOrResetsNext s.cfg t := by
  induction events generalizing s with
  | nil =>
    rcases step_busy hb hans with hend | ⟨a, rest, u, hcons, -⟩
    · exact ⟨0, s, Nat.zero_le _, rfl, rfl, hl, hend⟩
    · rw [hl] at hcons
      cases hcons
  | cons e events ih =>
    rcases step_busy hb hans with hend | ⟨a, rest, u, hcons, hstep, hkeep⟩
    · exact ⟨0, s, Nat.zero_le _, rfl, rfl, hl, hend⟩
    · have hlu : u.schedule = events := by rw [step_schedule hstep, hl, List.tail_cons]
      have hansu (a : Access) (ha : .access a ∈ u.schedule) : Answers u a :=
        (hans a (by rw [hl, ← hlu]; exact List.mem_cons_of_mem e ha)).congr hkeep.cfg
      obtain ⟨n, t, hn, hafter, hkeept, hlt, hend⟩ := ih hlu (hkeep.seq.trans hb) hansu
      exact ⟨n + 1, t, Nat.succ_le_succ hn, (afterSteps_succ hstep n).trans hafter, hkeep.trans hkeept, hlt,
        hkeep.cfg ▸ hend⟩

/-- Settles O60. -/
theorem busyBlockReachesItsCompletion : Obligations.BusyBlockReachesItsCompletion :=
  fun _ hb hans => busy_reaches_end rfl hb hans

end Sys2Proof.Machine
end

section
/-! SUPPORT. Proofs of the statements about resets (70_reset_and_hazards.md): what a reset leaves of an idle block and of
one whose command it abandons. -/

namespace Sys2Proof.Machine

/-- A host write of CTRL with SRST set is answered, IDLE or BUSY, and resets the block (70_reset_and_hazards.md R380). -/
theorem hostAccess_softReset (s : State) {v : Word} (hv : v.getLsbD 1 = true) :
    hostAccess (regWrite s .ctrl v) s = .next { s.softReset with resp := .written } := by
  rw [hostAccess_regWrite, State.writeReg_ctrl, State.writeCtrl_reset hv]

/-- A soft reset that abandons a command keeps every byte outside the write region of that command
(70_reset_and_hazards.md R384). -/
theorem State.memAfterSoftReset_read_outside {s : State} {i : Instr} (hb : s.seq = .busy)
    (hd : decode s.cmdl = .instr i) {a : Nat} (ha : a < s.cfg.memBytes) (hout : ¬ (writeRegion i s).Has a) :
    s.memAfterSoftReset.read a = s.mem.read a := by
  rw [State.memAfterSoftReset_busy hb hd, Memory.read_scramble _ _ _ _ _ ha, if_neg hout]

/-- Settles O57: the abandoned command scrambles its write region alone, and an illegal word has none. -/
theorem resetAbandonsARunningCommand : Obligations.ResetAbandonsARunningCommand := fun s _ hv hb =>
  ⟨_, hostAccess_softReset s hv, s.softReset_registersReset, rfl,
    fun _ hd _ ha hout => State.memAfterSoftReset_read_outside hb hd ha hout,
    fun _ hd => State.memAfterSoftReset_illegal hd⟩

/-- Settles O56: an idle block has no command to abandon, so its buffer stays; a power-on reset is the step of its
event. -/
theorem resetClearsRegistersAndKeys : Obligations.ResetClearsRegistersAndKeys := by
  refine ⟨fun s v hv hidle => ?_, fun s rest hl => ?_⟩
  · exact ⟨_, hostAccess_softReset s hv, s.softReset_registersReset, State.memAfterSoftReset_idle hidle, rfl⟩
  · exact ⟨_, step_powerOn hl, State.powerOnReset_registersReset _, rfl, rfl⟩

end Sys2Proof.Machine
end
